-- ==== Sys2Proof/Word.lean ====
section
/-! DEFINITION. The word types of the CORE (spec/00_scope.md R7): bytes, 32-bit words, 64-bit values, 20-bit bus addresses. -/

namespace Sys2Proof

/-- One byte of a word, as R48 cuts it. -/
abbrev Byte := BitVec 8

/-- R7: "a word is 32 bits". Registers, command words and binary32 samples are words. -/
abbrev Word := BitVec 32

/-- A 64-bit register of the PH unit (R49). -/
abbrev DWord := BitVec 64

/-- R46: a bus address is a byte address of `ADDR_W` = 20 bits. -/
abbrev BusAddr := BitVec 20

end Sys2Proof
end

