-- ==== Sys2Proof/Syntax.lean ====
section
/-! DEFINITION. The commands of the CORE, one constructor per row of spec/opcode_table.json (spec/30_encoding.md R67, R68), and
the bus events that reach it (spec/20_memory.md R46, R47; the reset input of spec/70_reset_and_hazards.md R135). -/

namespace Sys2Proof

/-- R63: the two command registers; "the register a word is written to is part of its decoding". -/
inductive CmdReg where
  | dlCmd
  | phCmd
deriving DecidableEq, Repr

/-- The commands. `ch` and `len` are unsigned fields of format DLF (R64, R66); every other operand comes from a register. -/
inductive Instr where
  /-- DL_PREPARE, R81. -/
  | dlPrepare
  /-- DL_WRITE ch, len, R82. -/
  | dlWrite (ch len : Nat)
  /-- DL_READMIX ch, len, R83. -/
  | dlReadmix (ch len : Nat)
  /-- DL_ADVANCE, R84. -/
  | dlAdvance
  /-- DL_RELEASE, R85. -/
  | dlRelease
  /-- DL_CLRERR, R86. -/
  | dlClrerr
  /-- PH_SETRATE, R105. -/
  | phSetrate
  /-- PH_SETFREQ, R106. -/
  | phSetfreq
  /-- PH_SETPHASE, R107. -/
  | phSetphase
  /-- PH_RESET, R108. -/
  | phReset
  /-- PH_NEXT, R109. -/
  | phNext
  /-- PH_CLRERR, R110. -/
  | phClrerr
deriving DecidableEq, Repr

/-- The command register each command is written to (R63, R67, R68). -/
def Instr.cmdReg : Instr → CmdReg
  | .dlPrepare => .dlCmd
  | .dlWrite _ _ => .dlCmd
  | .dlReadmix _ _ => .dlCmd
  | .dlAdvance => .dlCmd
  | .dlRelease => .dlCmd
  | .dlClrerr => .dlCmd
  | .phSetrate => .phCmd
  | .phSetfreq => .phCmd
  | .phSetphase => .phCmd
  | .phReset => .phCmd
  | .phNext => .phCmd
  | .phClrerr => .phCmd

/-- The width of a bus access: 8, 16, 32 or 64 bits. R47 gives a meaning to 32 bits alone. -/
inductive Width where
  | w8
  | w16
  | w32
  | w64
deriving DecidableEq, Repr

/-- What the outside can do to the CORE: a bus read, a bus write (of the low bits of `data`, as wide as the access), or a
change of the reset input (R135). -/
inductive BusEvent where
  | load (addr : BusAddr) (width : Width)
  | store (addr : BusAddr) (width : Width) (data : DWord)
  | assertReset
  | releaseReset
deriving DecidableEq, Repr

/-- R72 `ld32 A`: the only read the CORE defines. -/
abbrev BusEvent.ld32 (addr : BusAddr) : BusEvent := .load addr .w32

/-- R72 `st32 A, V`: the only write the CORE defines. -/
abbrev BusEvent.st32 (addr : BusAddr) (v : Word) : BusEvent := .store addr .w32 (v.setWidth 64)

end Sys2Proof
end

