-- ==== Sys2Proof/WellFormed.lean ====
section
/-! DEFINITION. Well-formed commands (spec/30_encoding.md R72: "`c` is 0..255 and `n` is 0..65535; a value outside those ranges
is an assembly error") and well-formed bus events (spec/20_memory.md R47). -/

namespace Sys2Proof

/-- R72: the operands fit the fields of format DLF. -/
def Instr.wf : Instr → Bool
  | .dlPrepare => true
  | .dlWrite ch len => decide (ch < 256) && decide (len < 65536)
  | .dlReadmix ch len => decide (ch < 256) && decide (len < 65536)
  | .dlAdvance => true
  | .dlRelease => true
  | .dlClrerr => true
  | .phSetrate => true
  | .phSetfreq => true
  | .phSetphase => true
  | .phReset => true
  | .phNext => true
  | .phClrerr => true

/-- R47: "the only access the CORE defines is 32 bits wide at an address that is a multiple of 4". -/
def accessDefined (addr : BusAddr) (width : Width) : Bool :=
  decide (width = .w32) && decide (addr.toNat % 4 = 0)

/-- A bus event the interface gives a meaning to. -/
def BusEvent.wf : BusEvent → Bool
  | .load a w => accessDefined a w
  | .store a w _ => accessDefined a w
  | .assertReset => true
  | .releaseReset => true

end Sys2Proof
end

