-- ==== Sys2Proof/Decode.lean ====
section
/-! DEFINITION. The decoder of spec/30_encoding.md R71, total on every word and rejecting by name, and the encoder of the same
tables (R64, R65, R67, R68). -/

namespace Sys2Proof

/-- Why a word selects no row of its register's table (R69). Every reason records IllegalCommand alike. -/
inductive Reject where
  /-- The opcode is reserved at both registers: 0x00, 0x07..0x10, 0x17..0xFF. -/
  | reservedOpcode
  /-- A PH opcode at `DL_CMD` or a DL opcode at `PH_CMD`. -/
  | otherUnitsOpcode
  /-- The opcode is the register's own, but bits 31:8 must be 0 and are not. -/
  | nonzeroField
deriving DecidableEq, Repr

/-- R64, R65: `op`, bits 7:0. -/
def opField (w : Word) : Nat := (w.extractLsb' 0 8).toNat

/-- R64: `ch`, bits 15:8, unsigned (R66). -/
def chField (w : Word) : Nat := (w.extractLsb' 8 8).toNat

/-- R64: `len`, bits 31:16, unsigned (R66). -/
def lenField (w : Word) : Nat := (w.extractLsb' 16 16).toNat

/-- A command without operands in its word: bits 31:8 must be 0 (R64, R65, D43). -/
def bare (w : Word) (i : Instr) : Except Reject Instr :=
  if w.extractLsb' 8 24 = 0 then .ok i else .error .nonzeroField

/-- R71 at `DL_CMD`. -/
def decodeDl (w : Word) : Except Reject Instr :=
  match opField w with
  | 0x01 => bare w .dlPrepare
  | 0x02 => .ok (.dlWrite (chField w) (lenField w))
  | 0x03 => .ok (.dlReadmix (chField w) (lenField w))
  | 0x04 => bare w .dlAdvance
  | 0x05 => bare w .dlRelease
  | 0x06 => bare w .dlClrerr
  | op => if 0x11 ≤ op ∧ op ≤ 0x16 then .error .otherUnitsOpcode else .error .reservedOpcode

/-- R71 at `PH_CMD`. -/
def decodePh (w : Word) : Except Reject Instr :=
  match opField w with
  | 0x11 => bare w .phSetrate
  | 0x12 => bare w .phSetfreq
  | 0x13 => bare w .phSetphase
  | 0x14 => bare w .phReset
  | 0x15 => bare w .phNext
  | 0x16 => bare w .phClrerr
  | op => if 0x01 ≤ op ∧ op ≤ 0x06 then .error .otherUnitsOpcode else .error .reservedOpcode

/-- R71: "Decoding, as a total function from the register and the word". -/
def decode : CmdReg → Word → Except Reject Instr
  | .dlCmd => decodeDl
  | .phCmd => decodePh

/-- The opcode column of R67 and R68. -/
def Instr.opcode : Instr → Nat
  | .dlPrepare => 0x01
  | .dlWrite _ _ => 0x02
  | .dlReadmix _ _ => 0x03
  | .dlAdvance => 0x04
  | .dlRelease => 0x05
  | .dlClrerr => 0x06
  | .phSetrate => 0x11
  | .phSetfreq => 0x12
  | .phSetphase => 0x13
  | .phReset => 0x14
  | .phNext => 0x15
  | .phClrerr => 0x16

/-- The mask column of R67 and R68. -/
def Instr.mask : Instr → Word
  | .dlPrepare => 0xFFFFFFFF
  | .dlWrite _ _ => 0x000000FF
  | .dlReadmix _ _ => 0x000000FF
  | .dlAdvance => 0xFFFFFFFF
  | .dlRelease => 0xFFFFFFFF
  | .dlClrerr => 0xFFFFFFFF
  | .phSetrate => 0xFFFFFFFF
  | .phSetfreq => 0xFFFFFFFF
  | .phSetphase => 0xFFFFFFFF
  | .phReset => 0xFFFFFFFF
  | .phNext => 0xFFFFFFFF
  | .phClrerr => 0xFFFFFFFF

/-- The match column of R67 and R68. -/
def Instr.pattern (i : Instr) : Word := BitVec.ofNat 32 i.opcode

/-- `len`, `ch` and `op` laid out as format DLF says (R64); format PHF is the same with the first two 0 (R65). -/
def fields (len ch op : Nat) : Word := BitVec.ofNat 16 len ++ BitVec.ofNat 8 ch ++ BitVec.ofNat 8 op

/-- The word of a command (R64, R65, R67, R68). -/
def encode : Instr → Word
  | .dlPrepare => fields 0 0 0x01
  | .dlWrite ch len => fields len ch 0x02
  | .dlReadmix ch len => fields len ch 0x03
  | .dlAdvance => fields 0 0 0x04
  | .dlRelease => fields 0 0 0x05
  | .dlClrerr => fields 0 0 0x06
  | .phSetrate => fields 0 0 0x11
  | .phSetfreq => fields 0 0 0x12
  | .phSetphase => fields 0 0 0x13
  | .phReset => fields 0 0 0x14
  | .phNext => fields 0 0 0x15
  | .phClrerr => fields 0 0 0x16

/-- The low `nbits` bits of a table word, the bits above 0: a command is one 32-bit word (R63). -/
def tableWord (nbits w : Nat) : Word := BitVec.ofNat 32 (w % 2 ^ nbits)

/-- Which command register a table word is for: the tables of R67 and R68 share no opcode, so at most one register's decoder
takes it (log 9). -/
def tableReg (w : Word) : CmdReg :=
  match decode .phCmd w with
  | .ok _ => .phCmd
  | .error _ => .dlCmd

/-- The command the decoder reads from the opcode table's word `w` of `nbits` bits, at the register `tableReg` names. -/
def decodeTableWord (nbits w : Nat) : Option Instr :=
  match decode (tableReg (tableWord nbits w)) (tableWord nbits w) with
  | .ok i => some i
  | .error _ => none

end Sys2Proof
end

