-- ==== Sys2Proof/Config.lean ====
section
/-! DEFINITION. What an implementation of the CORE fixes (spec/00_scope.md R6: the parameters a model takes) and the free
values the spec leaves open (spec/93_implementation_defined.md I1, I3). A free value is opaque: nothing can be proved of it. -/

namespace Sys2Proof.Config

/-- R6: the parameters a model of the CORE takes (93 I8). R6's `ADDR_W`, `DATA_W` and number formats are fixed by the types. -/
structure Params where
  /-- `NUM_CH`: audio channels, each with its own history and I/O buffer. -/
  numCh : Nat
  /-- `MAX_BLOCK`: the largest block size PREPARE accepts, the depth of each I/O buffer. -/
  maxBlock : Nat
  /-- `HIST_DEPTH`: the largest capacity PREPARE accepts, the depth of each history memory. -/
  histDepth : Nat
  /-- `EPS_Q`: the smoothing threshold in units of 1/65536 ms. -/
  epsQ : Word
deriving DecidableEq, Repr

/-- The value column of R6. -/
def Params.ofSpec : Params := { numCh := 2, maxBlock := 4096, histDepth := 524288, epsQ := 0 }

/-- R6: the byte distance between two channels' I/O buffers. -/
def Params.ioStride (p : Params) : Nat := 4 * p.maxBlock

/-- R53: the byte address of the first I/O word. -/
def ioBase : Nat := 0x10000

/-- R6: the constraints "the parameters must satisfy". -/
abbrev Params.Legal (p : Params) : Prop :=
  1 ≤ p.numCh ∧ p.numCh ≤ 255 ∧ 1 ≤ p.maxBlock ∧ p.maxBlock ≤ 65535 ∧ p.maxBlock ≤ p.histDepth ∧
    p.histDepth ≤ 2 ^ 32 - 1 ∧ ioBase + p.numCh * p.ioStride ≤ 2 ^ 20

/-- FREE (R9, 93 I3; log 4): sign bit and 23 fraction bits of the n-th NaN result of a binary32 operation. -/
opaque freeNaN32 : Nat → BitVec 24

/-- FREE (R9, 93 I3; log 4): sign bit and 52 fraction bits of the n-th NaN result of a binary64 operation. -/
opaque freeNaN64 : Nat → BitVec 53

/-- FREE (log 10): what `wrap` gives for a value that is not finite; R104 defines it "for a finite binary64" only. -/
opaque freeWrap : Nat → BitVec 64

/-- FREE (R30, R136, 93 I1; log 6): the byte at a history address after the reset event numbered by the first argument. -/
opaque historyAtReset : Nat → Nat → BitVec 8

end Sys2Proof.Config
end

