-- ==== Sys2Proof/Machine/State.lean ====
section
/-! DEFINITION. The state of the CORE as plain data (spec/10_state.md), its value after the reset event (R135), and the reasons
a step can stop (spec/60_exceptions.md R127). -/

namespace Sys2Proof.Machine

/-- A byte memory in one canonical form: (address, byte) cells, addresses strictly rising, no cell equal to what its address
reads as when unlisted. -/
abbrev Memory := List Host.Cell

/-- R120: the values of a unit's `ERR` field. The reserved codes 7..15 "are never recorded", so they have no constructor. -/
inductive ErrCode where
  | noError
  | notPrepared
  | invalidBlockSize
  | allocFailed
  | badArgument
  | illegalCommand
  | badChannel
deriving DecidableEq, Repr

/-- The registers and flags of the DL unit (R17 to R28). `DL_CMD` and `DL_CUR_D` have no storage (R16, R29). -/
structure DlUnit where
  /-- `DL_STATUS.PREPARED`, R17. -/
  prepared : Bool
  /-- `DL_STATUS.BLOCK_OPEN`, R17. -/
  blockOpen : Bool
  /-- `DL_STATUS.ERR`, R17. -/
  err : ErrCode
  /-- `DL_PREP_SR`, R18. -/
  prepSr : Word
  /-- `DL_PREP_BS`, R19. -/
  prepBs : Word
  /-- `DL_PREP_MAXD`, R20. -/
  prepMaxd : Word
  /-- `DL_DELAY`, R21: the mailbox, Q16.16 ms. -/
  delay : Word
  /-- `DL_GAIN`, R22, binary32. -/
  gain : Word
  /-- `DL_SR`, R23. -/
  sr : Word
  /-- `DL_BS`, R24. -/
  bs : Word
  /-- `DL_CAP`, R25. -/
  cap : Word
  /-- `DL_WPOS`, R26. -/
  wpos : Word
  /-- `DL_CUR_DELAY`, R27. -/
  curDelay : Word
  /-- `DL_PREV_DELAY`, R28. -/
  prevDelay : Word
deriving DecidableEq, Repr

/-- The registers of the PH unit (R34 to R40), every 64-bit one a binary64 pattern. `PH_CMD` has no storage (R33). -/
structure PhUnit where
  /-- `PH_STATUS.ERR`, R34. -/
  err : ErrCode
  /-- `PH_ARG`, R35. -/
  arg : DWord
  /-- `PH_OUT`, R36. -/
  out : DWord
  /-- `PH_PHASE`, R37. -/
  phase : DWord
  /-- `PH_INC`, R38. -/
  inc : DWord
  /-- `PH_FREQ`, R39. -/
  freq : DWord
  /-- `PH_RATE`, R40. -/
  rate : DWord
deriving DecidableEq, Repr

/-- The history memory `H` (R30, R54): cells keyed by 4 × (c × `HIST_DEPTH` + i) + k for byte k of `H[c][i]` (log 13). An
unlisted byte of an element below `init` is 0, because some PREPARE has cleared that element since reset; an unlisted byte of
another element is the free content `Config.historyAtReset seed` (R136, log 6). -/
structure History where
  cells : Memory
  init : Nat
  seed : Nat
deriving DecidableEq, Repr

/-- What the bus answered to the access serviced last (the model's own, log 2). -/
inductive BusResponse where
  /-- Nothing has been serviced since reset. -/
  | idle
  /-- A write was accepted. -/
  | written
  /-- A read returned this word (R46). -/
  | data (w : Word)
  /-- The access met an asserted reset and was not serviced (R135, log 8). -/
  | notServiced
deriving DecidableEq, Repr

/-- The whole machine. `params`, `pending`, `bus` and `freeCount` are the model's own fields (INVENTORY.md, '## State'). -/
structure State where
  /-- The implementation parameters (R6, R15); no step changes them (log 3). -/
  params : Config.Params
  /-- The DL unit's registers and flags. -/
  dl : DlUnit
  /-- The PH unit's registers. -/
  ph : PhUnit
  /-- The history memory, R30. -/
  hist : History
  /-- The I/O buffers `IO[c][j]`, R31, keyed by bus byte address; an unlisted byte holds no value (R136, log 7). -/
  io : Memory
  /-- R135: the reset input is asserted. -/
  inReset : Bool
  /-- The bus order (R56) still to be serviced, earliest first (log 1). -/
  pending : List BusEvent
  /-- The answer to the access serviced last (log 2). -/
  bus : BusResponse
  /-- How many free values have been taken (log 4). -/
  freeCount : Nat
deriving DecidableEq, Repr

/-- Why the machine stops (R127: "faults that are never cleared"). -/
inductive Fault where
  /-- Raised by the step on a bus access that is not an aligned 32-bit access (R47, R127). Safe: the model stops where the
  interface gives the access no meaning. -/
  | busMisaligned
  /-- Raised by a bus read, by DL_WRITE and by DL_READMIX that reads an `IO[c][j]` no bus write has written since reset
  (R127). Safe: "the fault errs toward unprovable". -/
  | uninitRead
deriving DecidableEq, Repr

/-- Why an instruction has no meaning. -/
inductive Refusal where
  /-- Raised by `exec` on a command whose meaning is not written yet; safe. No command of this model is left so. -/
  | notModelled (mnemonic : String)
deriving DecidableEq, Repr

/-- R135: the DL unit after the reset event: every register 0 but `DL_PREP_MAXD` and `DL_GAIN` (R17 to R28, D39). -/
def DlUnit.reset : DlUnit :=
  { prepared := false, blockOpen := false, err := .noError, prepSr := 0, prepBs := 0, prepMaxd := 2000, delay := 0,
    gain := 0x3F4CCCCD, sr := 0, bs := 0, cap := 0, wpos := 0, curDelay := 0, prevDelay := 0 }

/-- R135: the PH unit after the reset event, "constructed with defaults (frequency 1 Hz, rate 44100 Hz, phase 0)". -/
def PhUnit.reset : PhUnit :=
  { err := .noError, arg := 0, out := 0, phase := 0, inc := 0x3F22ACB24B91E1EE, freq := 0x3FF0000000000000,
    rate := 0x40E5888000000000 }

/-- R136: unspecified history content, the one numbered `seed`. -/
def History.reset (seed : Nat) : History := { cells := [], init := 0, seed := seed }

/-- R135, R136: the machine right after reset, with the parameters `p`. -/
def State.resetWith (p : Config.Params) : State :=
  { params := p, dl := DlUnit.reset, ph := PhUnit.reset, hist := History.reset 0, io := [], inReset := false, pending := [],
    bus := .idle, freeCount := 0 }

/-- The machine right after reset, with the parameter values of R6. -/
def State.reset : State := State.resetWith Config.Params.ofSpec

end Sys2Proof.Machine
end

