-- ==== Sys2Proof/Machine/Flags.lean ====
section
/-! DEFINITION. The flags of the CORE and the status words they are read through (spec/10_state.md R17, R34, R44), and the
recording of an error code (spec/60_exceptions.md R120, R121). -/

namespace Sys2Proof.Machine

/-- The code column of R120. -/
def ErrCode.code : ErrCode → BitVec 4
  | .noError => 0
  | .notPrepared => 1
  | .invalidBlockSize => 2
  | .allocFailed => 3
  | .badArgument => 4
  | .illegalCommand => 5
  | .badChannel => 6

/-- R17 and R34: bits 7:4 `ERR`, bit 1 and bit 0 the flags, reserved bits read 0. -/
def statusWord (err : ErrCode) (blockOpen prepared : Bool) : Word :=
  (0 : BitVec 24) ++ err.code ++ (0 : BitVec 2) ++ BitVec.ofBool blockOpen ++ BitVec.ofBool prepared

/-- R17: `DL_STATUS`. -/
def DlUnit.status (d : DlUnit) : Word := statusWord d.err d.blockOpen d.prepared

/-- R34: `PH_STATUS`; bits 3:0 read 0. -/
def PhUnit.status (u : PhUnit) : Word := statusWord u.err false false

/-- R121: "the first error since the last clear is kept". -/
def ErrCode.record (old new : ErrCode) : ErrCode := if old = .noError then new else old

end Sys2Proof.Machine
end

