-- ==== Sys2Proof/Machine/Float.lean ====
section
/-! DEFINITION. IEEE 754 arithmetic of spec/00_scope.md R9, from exact integers: round to nearest, ties to even, subnormals
kept, overflow to infinity, no flags. A finite magnitude is a whole number of quanta, the quantum being the format's smallest
subnormal: 2^-149 for binary32, 2^-1074 for binary64. -/

namespace Sys2Proof.Machine

/-- A binary interchange format: how many exponent and fraction bits. -/
structure FloatFormat where
  expBits : Nat
  fracBits : Nat
deriving DecidableEq, Repr

/-- D6: samples, history and gain. -/
def binary32 : FloatFormat := { expBits := 8, fracBits := 23 }

/-- D7: every PH value. -/
def binary64 : FloatFormat := { expBits := 11, fracBits := 52 }

/-- The weight of the sign bit. -/
def FloatFormat.signWeight (f : FloatFormat) : Nat := 2 ^ (f.expBits + f.fracBits)

/-- The pattern of infinity without its sign: exponent all ones, fraction 0. -/
def FloatFormat.infPattern (f : FloatFormat) : Nat := (2 ^ f.expBits - 1) * 2 ^ f.fracBits

/-- The number of quanta in 1.0 (2^149, 2^1074). -/
def FloatFormat.one (f : FloatFormat) : Nat := 2 ^ (2 ^ (f.expBits - 1) - 2 + f.fracBits)

/-- What a pattern denotes (R9 `val`): a NaN, an infinity, or a finite number of quanta with a sign. -/
inductive FloatVal where
  | nan (signalling : Bool)
  | inf (neg : Bool)
  | fin (neg : Bool) (mag : Nat)
deriving DecidableEq, Repr

/-- The quanta of a finite pattern without its sign: exponent field 0 is subnormal, otherwise the hidden bit is added. -/
def FloatFormat.quanta (f : FloatFormat) (pattern : Nat) : Nat :=
  if pattern / 2 ^ f.fracBits = 0 then pattern
  else (2 ^ f.fracBits + pattern % 2 ^ f.fracBits) * 2 ^ (pattern / 2 ^ f.fracBits - 1)

/-- R9 `val(b)`. A NaN is signalling when its top fraction bit is 0. -/
def FloatFormat.val (f : FloatFormat) (bits : Nat) : FloatVal :=
  let neg := decide (f.signWeight ≤ bits)
  let pattern := bits % f.signWeight
  if f.infPattern < pattern then .nan (decide (pattern < f.infPattern + 2 ^ (f.fracBits - 1)))
  else if pattern = f.infPattern then .inf neg
  else .fin neg (f.quanta pattern)

/-- The integer nearest `num / den`, ties to even. -/
def nearestEven (num den : Nat) : Nat :=
  let q := num / den
  let r := num % den
  if den < 2 * r ∨ (2 * r = den ∧ q % 2 = 1) then q + 1 else q

/-- The pattern (without sign) of the magnitude `num / den` quanta rounded to nearest even, infinity on overflow (R9). With
`s` the binary places by which the magnitude exceeds the significand, the exponent field and the fraction together are
`s × 2^fracBits` plus the rounded significand, a carry included. -/
def FloatFormat.round (f : FloatFormat) (num den : Nat) : Nat :=
  let s := (num / den).log2 - f.fracBits
  min (s * 2 ^ f.fracBits + nearestEven num (den * 2 ^ s)) f.infPattern

/-- A pattern from its sign and the rest. -/
def FloatFormat.pack (f : FloatFormat) (neg : Bool) (pattern : Nat) : Nat :=
  (if neg then f.signWeight else 0) + pattern

/-- R9 `fl(x)` for `x` an exact number of quanta; an exact zero takes the sign `zeroNeg`. -/
def FloatFormat.roundInt (f : FloatFormat) (x : Int) (zeroNeg : Bool) : Nat :=
  if x = 0 then f.pack zeroNeg 0 else f.pack (decide (x < 0)) (f.round x.natAbs 1)

/-- The signed number of quanta of a finite value. -/
def signedQuanta (neg : Bool) (mag : Nat) : Int := if neg then -(mag : Int) else mag

/-- R9 `×`: the pattern of the product, `none` for a NaN. -/
def FloatFormat.mul (f : FloatFormat) (a b : Nat) : Option Nat :=
  match f.val a, f.val b with
  | .nan _, _ => none
  | _, .nan _ => none
  | .inf n, .inf m => some (f.pack (n ^^ m) f.infPattern)
  | .inf n, .fin m k => if k = 0 then none else some (f.pack (n ^^ m) f.infPattern)
  | .fin n j, .inf m => if j = 0 then none else some (f.pack (n ^^ m) f.infPattern)
  | .fin n j, .fin m k => some (f.pack (n ^^ m) (f.round (j * k) f.one))

/-- R9 `+`: the pattern of the sum, `none` for a NaN. An exact zero sum is +0.0 unless both operands are negative zeros. -/
def FloatFormat.add (f : FloatFormat) (a b : Nat) : Option Nat :=
  match f.val a, f.val b with
  | .nan _, _ => none
  | _, .nan _ => none
  | .inf n, .inf m => if n = m then some (f.pack n f.infPattern) else none
  | .inf n, .fin _ _ => some (f.pack n f.infPattern)
  | .fin _ _, .inf m => some (f.pack m f.infPattern)
  | .fin n j, .fin m k => some (f.roundInt (signedQuanta n j + signedQuanta m k) (n && m))

/-- R9 `/`: the pattern of the quotient, `none` for a NaN. A non-zero value over zero is an infinity. -/
def FloatFormat.div (f : FloatFormat) (a b : Nat) : Option Nat :=
  match f.val a, f.val b with
  | .nan _, _ => none
  | _, .nan _ => none
  | .inf _, .inf _ => none
  | .inf n, .fin m _ => some (f.pack (n ^^ m) f.infPattern)
  | .fin n _, .inf m => some (f.pack (n ^^ m) 0)
  | .fin n j, .fin m k =>
    if k = 0 then if j = 0 then none else some (f.pack (n ^^ m) f.infPattern)
    else some (f.pack (n ^^ m) (f.round (j * f.one) k))

/-- The value is a signalling NaN. -/
def FloatVal.isSignalling : FloatVal → Bool
  | .nan s => s
  | .inf _ => false
  | .fin _ _ => false

/-- The value is a NaN. -/
def FloatVal.isNan : FloatVal → Bool
  | .nan _ => true
  | .inf _ => false
  | .fin _ _ => false

/-- The value is an infinity. -/
def FloatVal.isInf : FloatVal → Bool
  | .nan _ => false
  | .inf _ => true
  | .fin _ _ => false

/-- The value is a number: neither NaN nor infinite. -/
def FloatVal.isFinite : FloatVal → Bool
  | .nan _ => false
  | .inf _ => false
  | .fin _ _ => true

/-- R9 `val` of a binary32 word. -/
def val32 (w : Word) : FloatVal := binary32.val w.toNat

/-- R9 `val` of a binary64 pattern. -/
def val64 (w : DWord) : FloatVal := binary64.val w.toNat

/-- A NaN pattern from free sign and fraction bits (93 I3, log 4): any NaN of the format, a quiet one if `quiet`. A fraction
of 0 would denote infinity, so its top bit is then set too. -/
def nan32 (free : BitVec 24) (quiet : Bool) : Word :=
  let sign : BitVec 1 := free.extractLsb' 23 1
  let frac : BitVec 23 := free.extractLsb' 0 23
  sign ++ (0xFF : BitVec 8) ++ (if quiet || frac = 0 then frac ||| 0x400000 else frac)

/-- As `nan32`, in binary64. -/
def nan64 (free : BitVec 53) (quiet : Bool) : DWord :=
  let sign : BitVec 1 := free.extractLsb' 52 1
  let frac : BitVec 52 := free.extractLsb' 0 52
  sign ++ (0x7FF : BitVec 11) ++ (if quiet || frac = 0 then frac ||| 0x8000000000000 else frac)

/-- The binary32 result of an operation on `a` and `b`, a NaN being the `n`-th free one; "a signalling NaN input never
survives an operation" (93 I3). -/
def finish32 (n : Nat) (a b : Word) : Option Nat → Word
  | some r => BitVec.ofNat 32 r
  | none => nan32 (Config.freeNaN32 n) ((val32 a).isSignalling || (val32 b).isSignalling)

/-- The binary64 result of an operation on `a` and `b`, as `finish32`. -/
def finish64 (n : Nat) (a b : DWord) : Option Nat → DWord
  | some r => BitVec.ofNat 64 r
  | none => nan64 (Config.freeNaN64 n) ((val64 a).isSignalling || (val64 b).isSignalling)

/-- R9 `a ×32 b`; `n` numbers the free value a NaN result takes. -/
def mul32 (n : Nat) (a b : Word) : Word := finish32 n a b (binary32.mul a.toNat b.toNat)

/-- R9 `a +32 b`. -/
def add32 (n : Nat) (a b : Word) : Word := finish32 n a b (binary32.add a.toNat b.toNat)

/-- R9 `a ×64 b`. -/
def mul64 (n : Nat) (a b : DWord) : DWord := finish64 n a b (binary64.mul a.toNat b.toNat)

/-- R9 `a +64 b`. -/
def add64 (n : Nat) (a b : DWord) : DWord := finish64 n a b (binary64.add a.toNat b.toNat)

/-- R9 `a /64 b`. -/
def div64 (n : Nat) (a b : DWord) : DWord := finish64 n a b (binary64.div a.toNat b.toNat)

end Sys2Proof.Machine
end

