-- ==== Sys2Proof/Machine/Memory.lean ====
section
/-! DEFINITION. Byte memories in canonical form, the two memories of the CORE over them (the I/O buffers of spec/10_state.md
R31 and the history of R30), and the byte order of words (spec/20_memory.md R48), decided here once. -/

namespace Sys2Proof.Machine

/-- The byte listed at an address. -/
def Memory.get? : Memory → Nat → Option Byte
  | [], _ => none
  | c :: m, a => if c.1 = a then some c.2 else Memory.get? m a

/-- The memory with a byte listed at an address. -/
def Memory.set : Memory → Nat → Byte → Memory
  | [], a, b => [(a, b)]
  | c :: m, a, b =>
    if a < c.1 then (a, b) :: c :: m else if a = c.1 then (a, b) :: m else c :: Memory.set m a b

/-- The cells whose address is kept. -/
def Memory.keep (m : Memory) (f : Nat → Bool) : Memory := m.filter fun c => f c.1

/-- The memory without a byte listed at an address. -/
def Memory.erase (m : Memory) (a : Nat) : Memory := m.keep fun x => decide (x ≠ a)

/-- Every listed address lies above `a`, and the addresses rise strictly. -/
def Memory.risingFrom : Nat → Memory → Bool
  | _, [] => true
  | a, c :: m => decide (a < c.1) && Memory.risingFrom c.1 m

/-- The order half of the canonical form: addresses strictly rising. (The other half, no cell equal to what its address reads
as unlisted, is empty for the I/O buffers, where an unlisted byte has no value; `History.wf` adds it for the history.) -/
def Memory.wf : Memory → Bool
  | [] => true
  | c :: m => Memory.risingFrom c.1 m

/-- R48: byte `k` of a word is bits `[8k+7:8k]`. -/
def wordByte (w : Word) (k : Nat) : Byte := w.extractLsb' (8 * k) 8

/-- R48: the word of four bytes, the first the least significant. -/
def wordOfBytes (b0 b1 b2 b3 : Byte) : Word := b3 ++ b2 ++ b1 ++ b0

/-- The word at `a`, if all its four bytes are listed. -/
def Memory.word? (m : Memory) (a : Nat) : Option Word :=
  match m.get? a, m.get? (a + 1), m.get? (a + 2), m.get? (a + 3) with
  | some b0, some b1, some b2, some b3 => some (wordOfBytes b0 b1 b2 b3)
  | _, _, _, _ => none

/-- The memory with a word listed at `a`. -/
def Memory.setWord (m : Memory) (a : Nat) (w : Word) : Memory :=
  (((m.set a (wordByte w 0)).set (a + 1) (wordByte w 1)).set (a + 2) (wordByte w 2)).set (a + 3) (wordByte w 3)

/-- R53: the bus byte address of `IO[c][j]`. -/
def ioAddr (p : Config.Params) (c j : Nat) : Nat := Config.ioBase + c * p.ioStride + 4 * j

/-- R50: the I/O window. Channel buffers lie end to end, because `IO_STRIDE` is 4 × `MAX_BLOCK`. -/
def inIoWindow (p : Config.Params) (a : Nat) : Bool :=
  decide (Config.ioBase ≤ a) && decide (a < Config.ioBase + p.numCh * p.ioStride)

/-- The key of the first byte of `H[c][i]` (log 13). -/
def histAddr (p : Config.Params) (c i : Nat) : Nat := 4 * (c * p.histDepth + i)

/-- The index within its channel of the history element a key belongs to. -/
def histIndex (p : Config.Params) (a : Nat) : Nat := (a / 4) % p.histDepth

/-- What an unlisted history byte reads as: 0 where some PREPARE has cleared the element since reset (R81), and otherwise the
free content of R136. -/
def History.unlisted (p : Config.Params) (h : History) (a : Nat) : Byte :=
  if histIndex p a < h.init then 0 else Config.historyAtReset h.seed a

/-- The history byte at a key. -/
def History.byte (p : Config.Params) (h : History) (a : Nat) : Byte :=
  match h.cells.get? a with
  | some b => b
  | none => h.unlisted p a

/-- The history with a byte written. Writing the 0 that an unlisted byte of a cleared element reads as removes the cell. -/
def History.setByte (p : Config.Params) (h : History) (a : Nat) (b : Byte) : History :=
  if histIndex p a < h.init ∧ b = 0 then { h with cells := h.cells.erase a } else { h with cells := h.cells.set a b }

/-- The history word at a key. -/
def History.word (p : Config.Params) (h : History) (a : Nat) : Word :=
  wordOfBytes (h.byte p a) (h.byte p (a + 1)) (h.byte p (a + 2)) (h.byte p (a + 3))

/-- The history with a word written at a key. -/
def History.setWord (p : Config.Params) (h : History) (a : Nat) (w : Word) : History :=
  (((h.setByte p a (wordByte w 0)).setByte p (a + 1) (wordByte w 1)).setByte p (a + 2) (wordByte w 2)).setByte p (a + 3)
    (wordByte w 3)

/-- R10: `H[c][i]`. -/
def History.elem (p : Config.Params) (h : History) (c i : Nat) : Word := h.word p (histAddr p c i)

/-- R10: `H[c][i] <- w`. -/
def History.setElem (p : Config.Params) (h : History) (c i : Nat) (w : Word) : History := h.setWord p (histAddr p c i) w

/-- R81, R85: `H[c][i] <- 0x00000000` for every channel `c` and every `i` below `cap`, as one removal of cells. -/
def History.clear (p : Config.Params) (h : History) (cap : Nat) : History :=
  { h with cells := h.cells.keep fun a => decide (cap ≤ histIndex p a), init := max h.init cap }

/-- The canonical form of the history: addresses strictly rising, every cell inside the memory, in an element some PREPARE has
cleared, and not 0 (what it reads as unlisted). -/
def History.wf (p : Config.Params) (h : History) : Bool :=
  h.cells.wf &&
    h.cells.all fun c =>
      decide (c.1 < 4 * (p.numCh * p.histDepth)) && decide (histIndex p c.1 < h.init) && decide (c.2 ≠ 0)

/-- The I/O buffers' form: addresses strictly rising, every cell inside the window, and the four bytes of a word listed
together, because every write is a whole word (R47). -/
def ioWf (p : Config.Params) (m : Memory) : Bool :=
  m.wf && m.all fun c => inIoWindow p c.1 && (m.word? (4 * (c.1 / 4))).isSome

/-- Runs `f 0`, `f 1`, …, `f (n - 1)` in order over `a`, as the loops of R82 and R83 run; `none` is a read that had no value. -/
def forUpTo {α : Type} : Nat → (Nat → α → Option α) → α → Option α
  | 0, _, a => some a
  | n + 1, f, a =>
    match forUpTo n f a with
    | some b => f n b
    | none => none

end Sys2Proof.Machine
end

