-- ==== Sys2Proof/Machine/Operands.lean ====
section
/-! DEFINITION. Operand forms: what a command computes from registers before it acts. The delay functions of
spec/40_delayline.md R74 to R79, the stored sample of R82, the gain check of R88; the constants, increment and wrap of
spec/41_phasor.md R102 to R104. -/

namespace Sys2Proof.Machine

/-- R74: `ceil(sr × md / 1000) + bs`, exactly. -/
def capacity (sr bs md : Nat) : Nat := (sr * md + 999) / 1000 + bs

/-- R8: `floor(num / den + 1/2)`. -/
def roundHalfUp (num : Int) (den : Nat) : Int := (2 * num + den) / (2 * den)

/-- R75: a Q16.16 delay word in samples at the active rate. -/
def DlUnit.samples (d : DlUnit) (q : Word) : Nat := (roundHalfUp (d.sr.toNat * q.toNat : Nat) 65536000).toNat

/-- R76: the delay a read uses, "clamped to `[0, capacity - blockSize]`". -/
def DlUnit.clamped (d : DlUnit) (q : Word) : Nat := min (d.samples q) (d.cap.toNat - d.bs.toNat)

/-- R77: the block smooths. -/
def DlUnit.changed (eps : Word) (d : DlUnit) : Bool :=
  decide ((eps.toNat : Int) < |(d.curDelay.toNat : Int) - d.prevDelay.toNat|)

/-- R78: the delay of sample `j` of the block. -/
def DlUnit.delayOf (eps : Word) (d : DlUnit) (j : Nat) : Nat :=
  let dn := d.clamped d.curDelay
  let dp := d.clamped d.prevDelay
  if d.changed eps then (roundHalfUp ((dp : Int) * d.bs.toNat + ((dn : Int) - dp) * j) d.bs.toNat).toNat else dn

/-- R79: the history index sample `j` of the block is read at. -/
def DlUnit.readIndex (eps : Word) (d : DlUnit) (j : Nat) : Nat :=
  (d.wpos.toNat + j + d.cap.toNat - d.delayOf eps j) % d.cap.toNat

/-- R82: the history index sample `j` of the block is written at. -/
def DlUnit.writeIndex (d : DlUnit) (j : Nat) : Nat := (d.wpos.toNat + j) % d.cap.toNat

/-- The binary32 pattern of 1.0. -/
def one32 : Word := 0x3F800000

/-- R82: the history element stored for the sample `x`: `g ×32 x`; "`g = 1.0` stores the input bit pattern unchanged except
that a signalling NaN becomes quiet", which fixes the pattern of a quiet NaN (log 5). -/
def gained (n : Nat) (g x : Word) : Word :=
  if g = one32 ∧ val32 x = .nan false then x else mul32 n g x

/-- R22, R88: the legal gains, `0 ≤ val(v) ≤ 1`, -0.0 among them. -/
def gainLegal (v : Word) : Bool :=
  match val32 v with
  | .nan _ => false
  | .inf _ => false
  | .fin neg m => decide (m = 0) || (!neg && decide (m ≤ binary32.one))

/-- R102: `TWO_PI`. -/
def twoPi : DWord := 0x401921FB54442D18

/-- R102: `PI_D`. -/
def piD : DWord := 0x400921FB54442D18

/-- The quanta of `TWO_PI`. -/
def twoPiQuanta : Nat := binary64.quanta twoPi.toNat

/-- R103: `(TWO_PI ×64 f) /64 r`, the product first. -/
def incr (n : Nat) (f r : DWord) : DWord := div64 (n + 1) (mul64 n twoPi f) r

/-- R104 for a finite value of `x` quanta: the value itself inside `[0, TWO_PI)`; otherwise the exact real remainder, rounded,
`TWO_PI` becoming +0.0. The pattern has no sign: -0.0 becomes +0.0. -/
def wrapQuanta (pattern : DWord) (x : Int) : DWord :=
  let r :=
    if 0 ≤ x ∧ x < twoPiQuanta then pattern else BitVec.ofNat 64 (binary64.roundInt (x % (twoPiQuanta : Int)) false)
  if r = twoPi then 0 else if val64 r = .fin true 0 then 0 else r

/-- R104: `wrap(s)`; for a value that is not finite, where the rule gives none, a free value (log 10). -/
def wrap (n : Nat) (s : DWord) : DWord :=
  match val64 s with
  | .fin neg mag => wrapQuanta s (signedQuanta neg mag)
  | .inf _ => Config.freeWrap n
  | .nan _ => Config.freeWrap n

end Sys2Proof.Machine
end

