-- ==== Sys2Proof/Machine/Ops.lean ====
section
/-! DEFINITION. The shared operations over the whole state: recording an error (spec/60_exceptions.md R121: what the CORE has
in place of taking an exception, R119), clearing it (R126), the block latch (spec/40_delayline.md R80), the operand checks and
loops of DL_WRITE and DL_READMIX (R82, R83), and the register file as the bus sees it (spec/20_memory.md R50, R51). -/

namespace Sys2Proof.Machine

/-- The state with another DL unit. -/
def State.setDl (s : State) (d : DlUnit) : State := { s with dl := d }

/-- The state with another PH unit. -/
def State.setPh (s : State) (u : PhUnit) : State := { s with ph := u }

/-- The state with another history. -/
def State.setHist (s : State) (h : History) : State := { s with hist := h }

/-- The state with other I/O buffers. -/
def State.setIo (s : State) (m : Memory) : State := { s with io := m }

/-- The state after `k` free values more have been taken (log 4). -/
def State.take (s : State) (k : Nat) : State := { s with freeCount := s.freeCount + k }

/-- R10 `raise Err(e)` in the DL unit: nothing changes but `DL_STATUS.ERR`, and that only from 0 (R121, R122). -/
def State.raiseDl (s : State) (e : ErrCode) : State := s.setDl { s.dl with err := s.dl.err.record e }

/-- R10 `raise Err(e)` in the PH unit. -/
def State.raisePh (s : State) (e : ErrCode) : State := s.setPh { s.ph with err := s.ph.err.record e }

/-- R126: `DL_STATUS.ERR <- 0`, the only "return" from an error. -/
def State.clearDlErr (s : State) : State := s.setDl { s.dl with err := .noError }

/-- R126: `PH_STATUS.ERR <- 0`. -/
def State.clearPhErr (s : State) : State := s.setPh { s.ph with err := .noError }

/-- R69: an illegal word "executes nothing and records IllegalCommand in its unit's `ERR`". -/
def State.raiseIllegal (s : State) : CmdReg → State
  | .dlCmd => s.raiseDl .illegalCommand
  | .phCmd => s.raisePh .illegalCommand

/-- R80: the first successful DL_WRITE or DL_READMIX of a block samples the mailbox. -/
def DlUnit.latch (d : DlUnit) : DlUnit :=
  if d.blockOpen then d else { d with curDelay := d.delay, blockOpen := true }

/-- R82, R83, R123: the checks of DL_WRITE and DL_READMIX, the first that fails. -/
def blockCheck (s : State) (ch len : Nat) : Option ErrCode :=
  if s.dl.prepared = false then some .notPrepared
  else if s.params.numCh ≤ ch then some .badChannel
  else if len ≠ s.dl.bs.toNat then some .invalidBlockSize
  else none

/-- R82's loop: `H[ch][(WPOS + j) mod CAP] <- g ×32 IO[ch][j]` for `j` below `BS`; `none` if an I/O element was unwritten. -/
def writeBlock (s : State) (ch : Nat) : Option History :=
  forUpTo s.dl.bs.toNat
    (fun j h =>
      match s.io.word? (ioAddr s.params ch j) with
      | some x => some (h.setElem s.params ch (s.dl.writeIndex j) (gained (s.freeCount + j) s.dl.gain x))
      | none => none)
    s.hist

/-- R83's loop: `IO[ch][j] <- IO[ch][j] +32 H[ch][idx(j)]` for `j` below `BS`; `none` if an I/O element was unwritten. -/
def mixBlock (s : State) (ch : Nat) : Option Memory :=
  forUpTo s.dl.bs.toNat
    (fun j m =>
      match m.word? (ioAddr s.params ch j) with
      | some x =>
        some (m.setWord (ioAddr s.params ch j)
          (add32 (s.freeCount + j) x (s.hist.elem s.params ch (s.dl.readIndex s.params.epsQ j))))
      | none => none)
    s.io

/-- The registers of the address map (R50), each half of a 64-bit one by its own name. -/
inductive Reg where
  | dlCmd | dlStatus | dlPrepSr | dlPrepBs | dlPrepMaxd | dlDelay | dlGain | dlSr | dlBs | dlCap | dlWpos | dlCurDelay
  | dlPrevDelay | dlCurD
  | phCmd | phStatus | phArgLo | phArgHi | phOutLo | phOutHi | phPhaseLo | phPhaseHi | phIncLo | phIncHi | phFreqLo
  | phFreqHi | phRateLo | phRateHi
  | capNumCh | capMaxBlock | capHistDepth
deriving DecidableEq, Repr

/-- The register rows of R50. -/
def addressMap : List (Nat × Reg) :=
  [(0x000, .dlCmd), (0x004, .dlStatus), (0x008, .dlPrepSr), (0x00C, .dlPrepBs), (0x010, .dlPrepMaxd), (0x014, .dlDelay),
   (0x018, .dlGain), (0x01C, .dlSr), (0x020, .dlBs), (0x024, .dlCap), (0x028, .dlWpos), (0x02C, .dlCurDelay),
   (0x030, .dlPrevDelay), (0x034, .dlCurD)] ++
  [(0x100, .phCmd), (0x104, .phStatus), (0x108, .phArgLo), (0x10C, .phArgHi), (0x110, .phOutLo), (0x114, .phOutHi),
   (0x118, .phPhaseLo), (0x11C, .phPhaseHi), (0x120, .phIncLo), (0x124, .phIncHi), (0x128, .phFreqLo), (0x12C, .phFreqHi),
   (0x130, .phRateLo), (0x134, .phRateHi)] ++
  [(0x200, .capNumCh), (0x204, .capMaxBlock), (0x208, .capHistDepth)]

/-- The register at a bus address, if a row of R50 gives one. -/
def regAt (a : Nat) : Option Reg := addressMap.lookup a

/-- R29: `DL_CUR_D`, a view without storage. -/
def DlUnit.curD (d : DlUnit) : Word := if d.prepared then BitVec.ofNat 32 (d.clamped d.curDelay) else 0

/-- R49: bits 31:0. -/
def lo (w : DWord) : Word := w.extractLsb' 0 32

/-- R49: bits 63:32. -/
def hi (w : DWord) : Word := w.extractLsb' 32 32

/-- R50, R51: what a bus read of a register returns; a write-only register reads 0. -/
def readReg (s : State) : Reg → Word
  | .dlCmd => 0
  | .dlStatus => s.dl.status
  | .dlPrepSr => s.dl.prepSr
  | .dlPrepBs => s.dl.prepBs
  | .dlPrepMaxd => s.dl.prepMaxd
  | .dlDelay => s.dl.delay
  | .dlGain => s.dl.gain
  | .dlSr => s.dl.sr
  | .dlBs => s.dl.bs
  | .dlCap => s.dl.cap
  | .dlWpos => s.dl.wpos
  | .dlCurDelay => s.dl.curDelay
  | .dlPrevDelay => s.dl.prevDelay
  | .dlCurD => s.dl.curD
  | .phCmd => 0
  | .phStatus => s.ph.status
  | .phArgLo => lo s.ph.arg
  | .phArgHi => hi s.ph.arg
  | .phOutLo => lo s.ph.out
  | .phOutHi => hi s.ph.out
  | .phPhaseLo => lo s.ph.phase
  | .phPhaseHi => hi s.ph.phase
  | .phIncLo => lo s.ph.inc
  | .phIncHi => hi s.ph.inc
  | .phFreqLo => lo s.ph.freq
  | .phFreqHi => hi s.ph.freq
  | .phRateLo => lo s.ph.rate
  | .phRateHi => hi s.ph.rate
  | .capNumCh => BitVec.ofNat 32 s.params.numCh
  | .capMaxBlock => BitVec.ofNat 32 s.params.maxBlock
  | .capHistDepth => BitVec.ofNat 32 s.params.histDepth

/-- R88: a bus write to `DL_GAIN`: stored if legal, otherwise BadArgument is recorded and nothing is stored. -/
def State.writeGain (s : State) (v : Word) : State :=
  if gainLegal v then s.setDl { s.dl with gain := v } else s.raiseDl .badArgument

/-- R50, R51, R87, R88, R89, R111: a bus write to a register that executes no command. A read-only register ignores it; the two
command registers are the step's (R63), and have no storage to write. -/
def writeReg (s : State) (v : Word) : Reg → State
  | .dlCmd => s
  | .dlStatus => s
  | .dlPrepSr => s.setDl { s.dl with prepSr := v }
  | .dlPrepBs => s.setDl { s.dl with prepBs := v }
  | .dlPrepMaxd => s.setDl { s.dl with prepMaxd := v }
  | .dlDelay => s.setDl { s.dl with delay := v }
  | .dlGain => s.writeGain v
  | .dlSr => s
  | .dlBs => s
  | .dlCap => s
  | .dlWpos => s
  | .dlCurDelay => s
  | .dlPrevDelay => s
  | .dlCurD => s
  | .phCmd => s
  | .phStatus => s
  | .phArgLo => s.setPh { s.ph with arg := hi s.ph.arg ++ v }
  | .phArgHi => s.setPh { s.ph with arg := v ++ lo s.ph.arg }
  | .phOutLo => s
  | .phOutHi => s
  | .phPhaseLo => s
  | .phPhaseHi => s
  | .phIncLo => s
  | .phIncHi => s
  | .phFreqLo => s
  | .phFreqHi => s
  | .phRateLo => s
  | .phRateHi => s
  | .capNumCh => s
  | .capMaxBlock => s
  | .capHistDepth => s

/-- R135: the reset event. Every register takes its reset value, the history is unspecified anew (a fresh free value) and the
I/O buffers are unwritten (R136). The parameters and the bus order still to come are not the CORE's to reset. -/
def State.resetEvent (s : State) : State :=
  { State.resetWith s.params with
    hist := History.reset (s.freeCount + 1), pending := s.pending, freeCount := s.freeCount + 1 }

end Sys2Proof.Machine
end

