-- ==== Sys2Proof/Machine/DelayLine.lean ====
section
/-! DEFINITION. The DL commands, one meaning each (spec/40_delayline.md R81 to R86). -/

namespace Sys2Proof.Machine

/-- R81: DL_PREPARE. -/
def execDlPrepare (s : State) : Host.Outcome State Fault Refusal :=
  let cap := capacity s.dl.prepSr.toNat s.dl.prepBs.toNat s.dl.prepMaxd.toNat
  if s.dl.prepBs = 0 ∨ s.params.maxBlock < s.dl.prepBs.toNat then .next (s.raiseDl .invalidBlockSize)
  else if s.dl.prepSr = 0 then .next (s.raiseDl .badArgument)
  else if s.params.histDepth < cap then .next (s.raiseDl .allocFailed)
  else
    .next ((s.setHist (s.hist.clear s.params cap)).setDl
      { s.dl with
        sr := s.dl.prepSr, bs := s.dl.prepBs, cap := BitVec.ofNat 32 cap, wpos := 0, curDelay := s.dl.delay,
        prevDelay := s.dl.delay, blockOpen := false, prepared := true })

/-- R82: DL_WRITE ch, len. -/
def execDlWrite (ch len : Nat) (s : State) : Host.Outcome State Fault Refusal :=
  match blockCheck s ch len with
  | some e => .next (s.raiseDl e)
  | none =>
    match writeBlock (s.setDl s.dl.latch) ch with
    | some h => .next (((s.setDl s.dl.latch).setHist h).take s.dl.bs.toNat)
    | none => .fault .uninitRead

/-- R83: DL_READMIX ch, len. -/
def execDlReadmix (ch len : Nat) (s : State) : Host.Outcome State Fault Refusal :=
  match blockCheck s ch len with
  | some e => .next (s.raiseDl e)
  | none =>
    match mixBlock (s.setDl s.dl.latch) ch with
    | some m => .next (((s.setDl s.dl.latch).setIo m).take s.dl.bs.toNat)
    | none => .fault .uninitRead

/-- R84: DL_ADVANCE. -/
def execDlAdvance (s : State) : Host.Outcome State Fault Refusal :=
  if s.dl.prepared then
    .next (s.setDl
      { s.dl with
        wpos := BitVec.ofNat 32 ((s.dl.wpos.toNat + s.dl.bs.toNat) % s.dl.cap.toNat), prevDelay := s.dl.curDelay,
        blockOpen := false })
  else .next (s.raiseDl .notPrepared)

/-- R85: DL_RELEASE. -/
def execDlRelease (s : State) : Host.Outcome State Fault Refusal :=
  .next ((s.setHist (s.hist.clear s.params s.dl.cap.toNat)).setDl
    { s.dl with
      sr := 0, bs := 0, cap := 0, wpos := 0, curDelay := 0, prevDelay := 0, blockOpen := false, prepared := false })

/-- R86: DL_CLRERR. -/
def execDlClrerr (s : State) : Host.Outcome State Fault Refusal := .next s.clearDlErr

end Sys2Proof.Machine
end

