-- ==== Sys2Proof/Machine/Phasor.lean ====
section
/-! DEFINITION. The PH commands, one meaning each (spec/41_phasor.md R105 to R110). Every binary64 operation is given the number
of the free value its result takes should it be a NaN, which no run reaches (R117). -/

namespace Sys2Proof.Machine

/-- R105's first check: NaN, infinite, or `val(v) <= 0`. -/
def rateRefused (v : DWord) : Bool :=
  match val64 v with
  | .nan _ => true
  | .inf _ => true
  | .fin neg m => neg || decide (m = 0)

/-- R105: PH_SETRATE. -/
def execPhSetrate (s : State) : Host.Outcome State Fault Refusal :=
  let i := incr s.freeCount s.ph.freq s.ph.arg
  if rateRefused s.ph.arg then .next (s.raisePh .badArgument)
  else if (val64 i).isInf then .next (s.raisePh .badArgument)
  else .next ((s.setPh { s.ph with rate := s.ph.arg, inc := i }).take 2)

/-- R106: PH_SETFREQ. -/
def execPhSetfreq (s : State) : Host.Outcome State Fault Refusal :=
  let i := incr s.freeCount s.ph.arg s.ph.rate
  if (val64 s.ph.arg).isFinite = false then .next (s.raisePh .badArgument)
  else if (val64 i).isInf then .next (s.raisePh .badArgument)
  else .next ((s.setPh { s.ph with freq := s.ph.arg, inc := i }).take 2)

/-- R107: PH_SETPHASE. -/
def execPhSetphase (s : State) : Host.Outcome State Fault Refusal :=
  if (val64 s.ph.arg).isFinite = false then .next (s.raisePh .badArgument)
  else
    .next ((s.setPh
      { s.ph with phase := wrap s.freeCount s.ph.arg, inc := incr (s.freeCount + 1) s.ph.freq s.ph.rate }).take 3)

/-- R108: PH_RESET. -/
def execPhReset (s : State) : Host.Outcome State Fault Refusal := .next (s.setPh { s.ph with phase := 0 })

/-- R109: PH_NEXT; the output is computed from the phase before the advance. -/
def execPhNext (s : State) : Host.Outcome State Fault Refusal :=
  .next ((s.setPh
    { s.ph with
      out := div64 s.freeCount s.ph.phase piD,
      phase := wrap (s.freeCount + 2) (add64 (s.freeCount + 1) s.ph.phase s.ph.inc) }).take 3)

/-- R110: PH_CLRERR. -/
def execPhClrerr (s : State) : Host.Outcome State Fault Refusal := .next s.clearPhErr

end Sys2Proof.Machine
end

