-- ==== Sys2Proof/Machine/Dispatch.lean ====
section
/-! DEFINITION. One arm per command: the meaning it has. -/

namespace Sys2Proof.Machine

def exec (i : Instr) (s : State) : Host.Outcome State Fault Refusal :=
  match i with
  | .dlPrepare => Sys2Proof.Machine.execDlPrepare s
  | .dlWrite ch len => Sys2Proof.Machine.execDlWrite ch len s
  | .dlReadmix ch len => Sys2Proof.Machine.execDlReadmix ch len s
  | .dlAdvance => Sys2Proof.Machine.execDlAdvance s
  | .dlRelease => Sys2Proof.Machine.execDlRelease s
  | .dlClrerr => Sys2Proof.Machine.execDlClrerr s
  | .phSetrate => Sys2Proof.Machine.execPhSetrate s
  | .phSetfreq => Sys2Proof.Machine.execPhSetfreq s
  | .phSetphase => Sys2Proof.Machine.execPhSetphase s
  | .phReset => Sys2Proof.Machine.execPhReset s
  | .phNext => Sys2Proof.Machine.execPhNext s
  | .phClrerr => Sys2Proof.Machine.execPhClrerr s

end Sys2Proof.Machine
end

