-- ==== Sys2Proof/Machine/Bus.lean ====
section
/-! DEFINITION. The bus interface (spec/20_memory.md): what servicing one bus event does. A command register's write decodes
and executes (R63, R71); every other access goes to the register map, the I/O window, or nothing (R50, R51). -/

namespace Sys2Proof.Machine

/-- The bus address of a command register (R16, R33). -/
def cmdAddr : CmdReg → BusAddr
  | .dlCmd => 0x000
  | .phCmd => 0x100

/-- R63, R69: a word written to a command register executes the command it encodes; an illegal word records IllegalCommand. -/
def command (r : CmdReg) (w : Word) (s : State) : Host.Outcome State Fault Refusal :=
  match decode r w with
  | .ok i => exec i s
  | .error _ => .next (s.raiseIllegal r)

/-- An aligned 32-bit read (R50 to R53): no side effect but the response. -/
def busLoad (a : Nat) (s : State) : Host.Outcome State Fault Refusal :=
  match regAt a with
  | some r => .next { s with bus := .data (readReg s r) }
  | none =>
    if inIoWindow s.params a then
      match s.io.word? a with
      | some w => .next { s with bus := .data w }
      | none => .fault .uninitRead
    else .next { s with bus := .data 0 }

/-- An aligned 32-bit write (R50 to R53). -/
def busStore (a : Nat) (w : Word) (s : State) : Host.Outcome State Fault Refusal :=
  match regAt a with
  | some .dlCmd => command .dlCmd w s
  | some .phCmd => command .phCmd w s
  | some r => .next (writeReg s w r)
  | none => if inIoWindow s.params a then .next (s.setIo (s.io.setWord a w)) else .next s

/-- Services one bus event. While reset is asserted "the CORE services no bus access" (R135): an access presented then is
answered by nothing (log 8). An access that is not an aligned 32-bit access is the fault BusMisaligned (R47, R127). -/
def service (e : BusEvent) (s : State) : Host.Outcome State Fault Refusal :=
  match e with
  | .assertReset => .next { s with inReset := true }
  | .releaseReset => if s.inReset then .next s.resetEvent else .next s
  | .load a width =>
    if s.inReset then .next { s with bus := .notServiced }
    else if accessDefined a width then busLoad a.toNat s
    else .fault .busMisaligned
  | .store a width data =>
    if s.inReset then .next { s with bus := .notServiced }
    else if accessDefined a width then busStore a.toNat (data.setWidth 32) { s with bus := .written }
    else .fault .busMisaligned

end Sys2Proof.Machine
end

