-- ==== Sys2Proof/Machine/Step.lean ====
section
/-! DEFINITION. One step of the CORE: it services the bus event next in the bus order (spec/20_memory.md R55, R56), and with none
pending "it is idle and keeps all its state" (spec/60_exceptions.md R134; log 1). -/

namespace Sys2Proof.Machine

/-- R13, R55: one bus event, atomically. -/
def step (s : State) : Host.Outcome State Fault Refusal :=
  match s.pending with
  | [] => .next s
  | e :: rest => service e { s with pending := rest }

/-- The state in which the next bus event is the write of the table word `w` to the command register its row is for (log 9).
The reset input is released, since a write is not serviced while it is asserted (R135). -/
def State.withFetchWord (s : State) (nbits w : Nat) : State :=
  { s with
    inReset := false,
    pending := .st32 (cmdAddr (tableReg (tableWord nbits w))) (tableWord nbits w) :: s.pending }

end Sys2Proof.Machine
end

