-- ==== Sys2Proof/Machine/Assembler.lean ====
section
/-! DEFINITION. The assembly language of spec/30_encoding.md R72 and R73: every statement and pseudo-instruction is a fixed
sequence of bus accesses. `f32(x)` and the binary64 pattern of a number are given as patterns. -/

namespace Sys2Proof.Machine

/-- R72, R73: the statements. -/
inductive Stmt where
  /-- `ld32 A`. -/
  | ld32 (a : BusAddr)
  /-- `st32 A, V`. -/
  | st32 (a : BusAddr) (v : Word)
  /-- A command mnemonic. -/
  | cmd (i : Instr)
  /-- `ph.arg X`. -/
  | phArg (x : DWord)
  /-- `ph.rate X`. -/
  | phRate (x : DWord)
  /-- `ph.freq X`. -/
  | phFreq (x : DWord)
  /-- `ph.phase X`. -/
  | phPhase (x : DWord)
  /-- `dl.config SR, BS, MAXD`. -/
  | dlConfig (sr bs maxd : Word)
  /-- `dl.delay Q`. -/
  | dlDelay (q : Word)
  /-- `dl.gain G`. -/
  | dlGain (g : Word)
  /-- `ld64 R`, `R` given by the address of its `_LO` half. -/
  | ld64 (a : BusAddr)
deriving DecidableEq, Repr

/-- R72: a command mnemonic is one `st32` of its word to its command register. -/
def cmdStore (i : Instr) : BusEvent := .st32 (cmdAddr i.cmdReg) (encode i)

/-- R73 `ph.arg X`. -/
def phArgStores (x : DWord) : List BusEvent := [.st32 0x108 (lo x), .st32 0x10C (hi x)]

/-- R72, R73: the expansion column. -/
def Stmt.expand : Stmt → List BusEvent
  | .ld32 a => [.ld32 a]
  | .st32 a v => [.st32 a v]
  | .cmd i => [cmdStore i]
  | .phArg x => phArgStores x
  | .phRate x => phArgStores x ++ [cmdStore .phSetrate]
  | .phFreq x => phArgStores x ++ [cmdStore .phSetfreq]
  | .phPhase x => phArgStores x ++ [cmdStore .phSetphase]
  | .dlConfig sr bs maxd => [.st32 0x008 sr, .st32 0x00C bs, .st32 0x010 maxd]
  | .dlDelay q => [.st32 0x014 q]
  | .dlGain g => [.st32 0x018 g]
  | .ld64 a => [.ld32 a, .ld32 (a + 4)]

/-- The bus events of a program, in order. -/
def assemble (p : List Stmt) : List BusEvent := p.flatMap Stmt.expand

end Sys2Proof.Machine
end

