-- ==== Sys2Proof/Safety.lean ====
section
/-! DEFINITION. What claims are stated in: the invariants the spec gives the state (spec/10_state.md R22, R32, R37 to R40), the
canonical form of the memories, and the per-block protocol of spec/40_delayline.md R91. -/

namespace Sys2Proof.Machine

/-- R32: "While `PREPARED = 0`". -/
abbrev DlUnit.InvUnprepared (d : DlUnit) : Prop :=
  d.sr = 0 ∧ d.bs = 0 ∧ d.cap = 0 ∧ d.wpos = 0 ∧ d.blockOpen = false

/-- R32: "While `PREPARED = 1`", the last clause as: `CAP - BS` is `ceil(DL_SR × m / 1000)` for some 32-bit `m`. -/
abbrev DlUnit.InvPrepared (p : Config.Params) (d : DlUnit) : Prop :=
  1 ≤ d.sr.toNat ∧ 1 ≤ d.bs.toNat ∧ d.bs.toNat ≤ p.maxBlock ∧ d.bs.toNat ≤ d.cap.toNat ∧ d.cap.toNat ≤ p.histDepth ∧
    d.wpos.toNat < d.cap.toNat ∧ ∃ m : Word, d.cap.toNat = capacity d.sr.toNat d.bs.toNat m.toNat

/-- R32, with R22's legal gain and, from R80 and R84, `PREV_DELAY = CUR_DELAY` while no block is open. -/
structure DlUnit.Inv (p : Config.Params) (d : DlUnit) : Prop where
  unprepared : d.prepared = false → d.InvUnprepared
  prepared : d.prepared = true → d.InvPrepared p
  gain : gainLegal d.gain = true
  closed : d.blockOpen = false → d.prevDelay = d.curDelay

/-- R37: "finite, `0 ≤ val(PH_PHASE) < val(TWO_PI)` and is never -0.0". -/
abbrev phaseInRange (w : DWord) : Prop := ∃ m, val64 w = .fin false m ∧ m < twoPiQuanta

/-- R112: "a finite binary64 with `0 ≤ val(PH_OUT) < 2`". -/
abbrev outInRange (w : DWord) : Prop := ∃ m, val64 w = .fin false m ∧ m < 2 * binary64.one

/-- R36 to R40, R112, R117: the legal values of the PH registers. -/
structure PhUnit.Inv (u : PhUnit) : Prop where
  phase : phaseInRange u.phase
  out : outInRange u.out
  freq : (val64 u.freq).isFinite = true
  rate : rateRefused u.rate = false
  inc : ∀ n, incr n u.freq u.rate = u.inc
  incFinite : (val64 u.inc).isFinite = true

/-- The memories are in canonical form (INVENTORY.md, '## Memory and ordering'), and a prepared DL unit's in-use history has
been cleared since reset (R30: "no rule reads an element before a PREPARE has written it"). -/
structure State.MemInv (s : State) : Prop where
  io : ioWf s.params s.io = true
  hist : s.hist.wf s.params = true
  cleared : s.dl.cap.toNat ≤ s.hist.init
  depth : s.hist.init ≤ s.params.histDepth

/-- The invariant every step keeps. -/
structure State.Inv (s : State) : Prop where
  params : s.params.Legal
  dl : s.dl.Inv s.params
  ph : s.ph.Inv
  mem : s.MemInv

/-- A DL_WRITE or DL_READMIX of channel `ch` with length `len` passes its checks (R82, R83) and every I/O element it reads has
been written (R127): exactly when R122 says it executes. -/
abbrev State.BlockReady (s : State) (ch len : Nat) : Prop :=
  s.dl.prepared = true ∧ ch < s.params.numCh ∧ len = s.dl.bs.toNat ∧
    ∀ j, j < s.dl.bs.toNat → (s.io.word? (ioAddr s.params ch j)).isSome = true

/-- R17 as a number: `PREPARED` + 2 × `BLOCK_OPEN` + 16 × `ERR`. -/
def DlUnit.statusNumber (d : DlUnit) : Word :=
  BitVec.ofNat 32 (d.prepared.toNat + 2 * d.blockOpen.toNat + 16 * d.err.code.toNat)

/-- R50 with the state rules it names: the address of every register and the word an aligned read of it returns (R16 to R29,
R33 to R43). -/
def registerValues (s : State) : List (BusAddr × Word) :=
  [(0x000, 0), (0x004, s.dl.statusNumber), (0x008, s.dl.prepSr), (0x00C, s.dl.prepBs), (0x010, s.dl.prepMaxd),
   (0x014, s.dl.delay), (0x018, s.dl.gain), (0x01C, s.dl.sr), (0x020, s.dl.bs), (0x024, s.dl.cap), (0x028, s.dl.wpos),
   (0x02C, s.dl.curDelay), (0x030, s.dl.prevDelay),
   (0x034, if s.dl.prepared then BitVec.ofNat 32 (s.dl.clamped s.dl.curDelay) else 0),
   (0x100, 0), (0x104, BitVec.ofNat 32 (16 * s.ph.err.code.toNat)), (0x108, s.ph.arg.setWidth 32),
   (0x10C, (s.ph.arg >>> 32).setWidth 32), (0x110, s.ph.out.setWidth 32), (0x114, (s.ph.out >>> 32).setWidth 32),
   (0x118, s.ph.phase.setWidth 32), (0x11C, (s.ph.phase >>> 32).setWidth 32), (0x120, s.ph.inc.setWidth 32),
   (0x124, (s.ph.inc >>> 32).setWidth 32), (0x128, s.ph.freq.setWidth 32), (0x12C, (s.ph.freq >>> 32).setWidth 32),
   (0x130, s.ph.rate.setWidth 32), (0x134, (s.ph.rate >>> 32).setWidth 32),
   (0x200, BitVec.ofNat 32 s.params.numCh), (0x204, BitVec.ofNat 32 s.params.maxBlock),
   (0x208, BitVec.ofNat 32 s.params.histDepth)]

/-- The read-only registers of R50. -/
def readOnlyAddrs : List BusAddr :=
  [0x004, 0x01C, 0x020, 0x024, 0x028, 0x02C, 0x030, 0x034, 0x104, 0x110, 0x114, 0x118, 0x11C, 0x120, 0x124, 0x128, 0x12C,
   0x130, 0x134, 0x200, 0x204, 0x208]

/-- A binary32 word: the sign bit over a pattern without sign (R9). -/
def signed32 (neg : Bool) (pattern : Nat) : Word := BitVec.ofNat 32 ((if neg then 2 ^ 31 else 0) + pattern)

/-- A binary64 word: the sign bit over a pattern without sign (R9). -/
def signed64 (neg : Bool) (pattern : Nat) : DWord := BitVec.ofNat 64 ((if neg then 2 ^ 63 else 0) + pattern)

/-- R67, R68, R69: the words that select no row at a command register, by their fields. -/
def illegalWord : CmdReg → Word → Prop
  | .dlCmd, w =>
    (w.toNat % 256 = 0 ∨ 7 ≤ w.toNat % 256) ∨ (w.toNat % 256 ∈ [1, 4, 5, 6] ∧ w.toNat / 256 ≠ 0)
  | .phCmd, w => ¬(0x11 ≤ w.toNat % 256 ∧ w.toNat % 256 ≤ 0x16) ∨ w.toNat / 256 ≠ 0

/-- R91: fill `IO[ch][j ..]` with a block's input. -/
def fillFrom (p : Config.Params) (ch : Nat) : Nat → List Word → List BusEvent
  | _, [] => []
  | j, x :: xs => .st32 (BitVec.ofNat 20 (ioAddr p ch j)) x :: fillFrom p ch (j + 1) xs

/-- R91: read `IO[ch][j ..]` back, `n` words. -/
def readFrom (p : Config.Params) (ch : Nat) : Nat → Nat → List BusEvent
  | _, 0 => []
  | j, n + 1 => .ld32 (BitVec.ofNat 20 (ioAddr p ch j)) :: readFrom p ch (j + 1) n

/-- R91: the accesses of one channel in one block: fill the buffer, DL_WRITE, DL_READMIX, read the output. -/
def channelAccesses (p : Config.Params) (ch : Nat) (input : List Word) : List BusEvent :=
  fillFrom p ch 0 input ++
    [cmdStore (.dlWrite ch input.length), cmdStore (.dlReadmix ch input.length)] ++ readFrom p ch 0 input.length

/-- R91: the accesses of the channels from `ch` on, "for each channel `c` in turn". -/
def channelsFrom (p : Config.Params) : Nat → List (List Word) → List BusEvent
  | _, [] => []
  | ch, x :: xs => channelAccesses p ch x ++ channelsFrom p (ch + 1) xs

/-- R91: one block by the protocol: every channel, then DL_ADVANCE "exactly once". -/
def blockAccesses (p : Config.Params) (inputs : List (List Word)) : List BusEvent :=
  channelsFrom p 0 inputs ++ [cmdStore .dlAdvance]

/-- R91: consecutive blocks by the protocol. `blocks[k][c][j]` is sample `j` of channel `c` in block `k`. -/
def streamAccesses (p : Config.Params) (blocks : List (List (List Word))) : List BusEvent :=
  blocks.flatMap (blockAccesses p)

/-- R95's numbering: sample `t = k × BS + j` of a channel's input, `none` past the end. -/
def sampleAt (blocks : List (List (List Word))) (bs ch t : Nat) : Option Word :=
  (blocks[t / bs]?).bind fun block => (block[ch]?).bind fun input => input[t % bs]?

end Sys2Proof.Machine
end

