-- ==== Sys2Proof/Certificates/Slice0/Obligations.lean ====
section
/-! DEFINITION. The statements for the provers, from the numbered rules of spec/. A conclusion `exec i s = .next { s with … }`
is the instruction's result, its completion and its frame in one: every field not named is as before. -/

open Sys2Proof Sys2Proof.Machine

/-! ### Encoding (spec/30_encoding.md) -/

/-- R71 over R64, R65, R67, R68: decoding the word of a well-formed command gives the command back, with every operand. -/
def Obligations.DecodeOfEncodeIsIdentity : Prop :=
  ∀ i : Instr, i.wf = true → decode i.cmdReg (encode i) = .ok i

/-- D43, "strict decoding, so no word has two meanings": a word that decodes at a register is the word of a well-formed
command of that register. -/
def Obligations.DecodedWordIsItsEncoding : Prop :=
  ∀ (r : CmdReg) (w : Word) (i : Instr), decode r w = .ok i → i.cmdReg = r ∧ i.wf = true ∧ encode i = w

/-- R69, R119, R121: exactly the words that select no row are rejected, and writing one to its command register changes nothing
but that unit's `ERR`, which becomes IllegalCommand if it was 0. That the write is answered as accepted (`bus`) is the model's
choice (log 2). -/
def Obligations.IllegalWordRecordsIllegalCommand : Prop :=
  (∀ (r : CmdReg) (w : Word), (∃ e, decode r w = .error e) ↔ illegalWord r w) ∧
  ∀ (s : State) (rest : List BusEvent) (w : Word), s.inReset = false →
    (s.pending = .st32 0x000 w :: rest → illegalWord .dlCmd w →
      step s = .next { s with
        pending := rest, bus := .written,
        dl := { s.dl with err := if s.dl.err = .noError then .illegalCommand else s.dl.err } }) ∧
    (s.pending = .st32 0x100 w :: rest → illegalWord .phCmd w →
      step s = .next { s with
        pending := rest, bus := .written,
        ph := { s.ph with err := if s.ph.err = .noError then .illegalCommand else s.ph.err } })

/-- Words written out from R64, R65, R67 and R68, with the ones 95_test_vectors.md 2.1 lists, decode to their commands. -/
def Obligations.SpecWordsDecode : Prop :=
  decode .dlCmd 0x00000001 = .ok .dlPrepare ∧ decode .dlCmd 0x02000102 = .ok (.dlWrite 1 512) ∧
  decode .dlCmd 0x00040003 = .ok (.dlReadmix 0 4) ∧ decode .dlCmd 0x00FFFF03 = .ok (.dlReadmix 255 255) ∧
  decode .dlCmd 0x00000004 = .ok .dlAdvance ∧ decode .dlCmd 0x00000005 = .ok .dlRelease ∧
  decode .dlCmd 0x00000006 = .ok .dlClrerr ∧ decode .phCmd 0x00000011 = .ok .phSetrate ∧
  decode .phCmd 0x00000012 = .ok .phSetfreq ∧ decode .phCmd 0x00000013 = .ok .phSetphase ∧
  decode .phCmd 0x00000014 = .ok .phReset ∧ decode .phCmd 0x00000015 = .ok .phNext ∧
  decode .phCmd 0x00000016 = .ok .phClrerr ∧ decode .dlCmd 0x00000015 = .error .otherUnitsOpcode ∧
  decode .phCmd 0x00000115 = .error .nonzeroField ∧ decode .dlCmd 0x00000007 = .error .reservedOpcode

/-- R72's expansion column for the commands with operands: `(n << 16) + (c << 8) + op`. -/
def Obligations.CommandWordsAreTheAssemblersWords : Prop :=
  ∀ c n : Nat, c < 256 → n < 65536 →
    (encode (.dlWrite c n)).toNat = n * 65536 + c * 256 + 0x02 ∧
    (encode (.dlReadmix c n)).toNat = n * 65536 + c * 256 + 0x03

/-- R55, R63: with a command word next in the bus order, the step removes the event, accepts the write (`bus`: the model's own,
log 2), and is the command's meaning. -/
def Obligations.StepExecutesTheCommandWritten : Prop :=
  ∀ (s : State) (r : CmdReg) (w : Word) (i : Instr) (rest : List BusEvent),
    s.inReset = false → s.pending = .st32 (cmdAddr r) w :: rest → decode r w = .ok i →
      step s = exec i { s with pending := rest, bus := .written }

/-! ### The bus (spec/20_memory.md, spec/60_exceptions.md) -/

/-- R52: a read that completes changes nothing but the response it returns; a write to no command register has, done twice,
the effect of doing it once. -/
def Obligations.ReadsHaveNoEffectAndPlainWritesAreIdempotent : Prop :=
  (∀ (s t : State) (a : BusAddr), s.inReset = false → service (.ld32 a) s = .next t →
    ∃ w, t = { s with bus := .data w }) ∧
  ∀ (s t : State) (a : BusAddr) (w : Word), s.inReset = false → ioWf s.params s.io = true → a ≠ 0x000 → a ≠ 0x100 →
    service (.st32 a w) s = .next t → service (.st32 a w) t = .next t

/-- R50: an aligned read of each register of the map returns the word its state rule gives, and changes nothing else. -/
def Obligations.RegisterReadsFollowTheMap : Prop :=
  ∀ (s : State) (rest : List BusEvent) (a : BusAddr) (v : Word),
    s.inReset = false → s.pending = .ld32 a :: rest → (a, v) ∈ registerValues s →
      step s = .next { s with pending := rest, bus := .data v }

/-- R51: an aligned read of an address no row of the map covers returns 0, a write there or to a read-only register is
ignored, and a read of a write-only register returns 0; none changes any state. That an ignored write is answered as accepted
(`bus`) is the model's choice, from R125 (log 2). -/
def Obligations.UncoveredAccessesReadZeroAndWriteNothing : Prop :=
  ∀ (s : State) (rest : List BusEvent) (a : BusAddr) (w : Word), s.inReset = false → a.toNat % 4 = 0 →
    let uncovered := (∀ v, (a, v) ∉ registerValues s) ∧ inIoWindow s.params a.toNat = false
    (s.pending = .ld32 a :: rest → uncovered ∨ a = 0x000 ∨ a = 0x100 →
      step s = .next { s with pending := rest, bus := .data 0 }) ∧
    (s.pending = .st32 a w :: rest → uncovered ∨ a ∈ readOnlyAddrs →
      step s = .next { s with pending := rest, bus := .written })

/-- R87, R89, R111: a bus write to `DL_DELAY`, to a `DL_PREP_*` register or to a half of `PH_ARG` stores the word and nothing
else (`bus` is the model's own, log 2). -/
def Obligations.PlainRegisterWritesStore : Prop :=
  ∀ (s : State) (rest : List BusEvent) (a : BusAddr) (v : Word), s.inReset = false → s.pending = .st32 a v :: rest →
    let done : State := { s with pending := rest, bus := .written }
    (a = 0x008 → step s = .next { done with dl := { s.dl with prepSr := v } }) ∧
    (a = 0x00C → step s = .next { done with dl := { s.dl with prepBs := v } }) ∧
    (a = 0x010 → step s = .next { done with dl := { s.dl with prepMaxd := v } }) ∧
    (a = 0x014 → step s = .next { done with dl := { s.dl with delay := v } }) ∧
    (a = 0x108 → step s = .next { done with ph := { s.ph with arg := (s.ph.arg >>> 32).setWidth 32 ++ v } }) ∧
    (a = 0x10C → step s = .next { done with ph := { s.ph with arg := v ++ s.ph.arg.setWidth 32 } })

/-- R88: a bus write of a NaN, of a value below 0 or of a value above 1 (2^149 quanta) to `DL_GAIN` records BadArgument and
stores nothing; every other value, -0.0 among them, is stored. That both are answered as accepted (`bus`) is the model's choice,
from R125 (log 2). -/
def Obligations.GainWriteIsChecked : Prop :=
  ∀ (s : State) (rest : List BusEvent) (v : Word), s.inReset = false → s.pending = .st32 0x018 v :: rest →
    let done : State := { s with pending := rest, bus := .written }
    ((∃ neg m, val32 v = .fin neg m ∧ (m = 0 ∨ neg = false) ∧ m ≤ 2 ^ 149) →
      step s = .next { done with dl := { s.dl with gain := v } }) ∧
    (¬(∃ neg m, val32 v = .fin neg m ∧ (m = 0 ∨ neg = false) ∧ m ≤ 2 ^ 149) →
      step s = .next { done with
        dl := { s.dl with err := if s.dl.err = .noError then .badArgument else s.dl.err } })

/-- R53, R90: for every channel and sample, a bus write of `IO[c][j]` completes and stores the pattern, a bus read after it
returns the pattern, and no other byte of the buffers changes. The form of the responses (`bus`) is the model's own (log 2). -/
def Obligations.IoWordsReadBackWhatWasWritten : Prop :=
  ∀ (s : State) (rest : List BusEvent) (c j : Nat) (a : BusAddr) (v : Word),
    s.params.Legal → s.inReset = false → c < s.params.numCh → j < s.params.maxBlock →
    a.toNat = 0x10000 + c * (4 * s.params.maxBlock) + 4 * j → s.pending = .st32 a v :: .ld32 a :: rest →
      ∃ m : Memory,
        step s = .next { s with pending := .ld32 a :: rest, bus := .written, io := m } ∧
        step { s with pending := .ld32 a :: rest, bus := .written, io := m } =
          .next { s with pending := rest, bus := .data v, io := m } ∧
        ∀ x, ¬(a.toNat ≤ x ∧ x < a.toNat + 4) → m.get? x = s.io.get? x

/-- R127 with R47: an access that is not an aligned 32-bit access is the fault BusMisaligned; a bus read, a DL_WRITE or a
DL_READMIX (past its checks) that reads an I/O element no bus write has written is the fault UninitRead. -/
def Obligations.AccessesWithoutMeaningFault : Prop :=
  (∀ (s : State) (rest : List BusEvent) (a : BusAddr) (width : Width) (data : DWord),
    s.inReset = false → width ≠ .w32 ∨ a.toNat % 4 ≠ 0 →
      (s.pending = .load a width :: rest → step s = .fault .busMisaligned) ∧
      (s.pending = .store a width data :: rest → step s = .fault .busMisaligned)) ∧
  (∀ (s : State) (rest : List BusEvent) (c j : Nat) (a : BusAddr),
    s.params.Legal → s.inReset = false → c < s.params.numCh → j < s.params.maxBlock → a.toNat = ioAddr s.params c j →
    s.pending = .ld32 a :: rest → s.io.word? (ioAddr s.params c j) = none → step s = .fault .uninitRead) ∧
  ∀ (s : State) (ch j : Nat),
    s.dl.prepared = true → ch < s.params.numCh → j < s.dl.bs.toNat → s.io.word? (ioAddr s.params ch j) = none →
      exec (.dlWrite ch s.dl.bs.toNat) s = .fault .uninitRead ∧
      exec (.dlReadmix ch s.dl.bs.toNat) s = .fault .uninitRead

/-- R134, R148: with no access in progress the CORE keeps all its state. -/
def Obligations.IdleCoreKeepsItsState : Prop :=
  ∀ s : State, s.pending = [] → step s = .next s

/-- R135, R136: the reset event, asserted and then released, gives every register its reset value, both memories their
unwritten form, and keeps the parameters and the bus order still to come. The response and the counter of free values are the
model's own (log 2, log 4). -/
def Obligations.ResetEventGivesResetValues : Prop :=
  ∀ (s : State) (rest : List BusEvent), s.pending = .assertReset :: .releaseReset :: rest →
    ∃ n : Nat,
      Sys2Proof.core.run 2 s = .next
        { params := s.params,
          dl := { prepared := false, blockOpen := false, err := .noError, prepSr := 0, prepBs := 0, prepMaxd := 0x7D0,
                  delay := 0, gain := 0x3F4CCCCD, sr := 0, bs := 0, cap := 0, wpos := 0, curDelay := 0, prevDelay := 0 },
          ph := { err := .noError, arg := 0, out := 0, phase := 0, inc := 0x3F22ACB24B91E1EE, freq := 0x3FF0000000000000,
                  rate := 0x40E5888000000000 },
          hist := { cells := [], init := 0, seed := n }, io := [], inReset := false, pending := rest, bus := .idle,
          freeCount := n }

/-- R135, "While reset is asserted the CORE services no bus access"; that an access presented then is answered by nothing and
lost is the model's choice (log 8). -/
def Obligations.NoAccessIsServicedInReset : Prop :=
  ∀ (s : State) (rest : List BusEvent) (e : BusEvent), s.inReset = true → s.pending = e :: rest →
    e ≠ .assertReset → e ≠ .releaseReset → step s = .next { s with pending := rest, bus := .notServiced }

/-! ### The delay functions (spec/40_delayline.md R74 to R79) -/

/-- R75, R76: `samples` is the exact product divided by 65536000, rounded half up, and the delay used is it clamped to
`CAP - BS`; with R32's `BS ≤ CAP` it lies in `[0, CAP - BS]`. -/
def Obligations.DelayInSamplesIsRoundedAndClamped : Prop :=
  ∀ (p : Config.Params) (d : DlUnit) (q : Word), d.Inv p →
    (d.samples q : ℤ) = ⌊((d.sr.toNat : ℚ) * q.toNat) / 65536000 + 1 / 2⌋ ∧
    (d.clamped q : ℤ) = min (d.samples q : ℤ) ((d.cap.toNat : ℤ) - d.bs.toNat)

/-- R77, R78: the delay of sample `j` is `Dn` where the delay words differ by at most `EPS_Q`, and otherwise the line from
`Dp` towards `Dn` over the block, rounded half up; it lies between `Dp` and `Dn`, so in `[0, CAP - BS]`. -/
def Obligations.SmoothedDelayIsTheRoundedLine : Prop :=
  ∀ (p : Config.Params) (d : DlUnit) (j : Nat), d.Inv p → d.prepared = true → j < d.bs.toNat →
    let dn : ℤ := d.clamped d.curDelay
    let dp : ℤ := d.clamped d.prevDelay
    (d.delayOf p.epsQ j : ℤ) =
      (if (p.epsQ.toNat : ℤ) < |(d.curDelay.toNat : ℤ) - d.prevDelay.toNat|
        then ⌊(dp : ℚ) + ((dn : ℚ) - dp) * j / d.bs.toNat + 1 / 2⌋ else dn) ∧
    min dp dn ≤ d.delayOf p.epsQ j ∧ (d.delayOf p.epsQ j : ℤ) ≤ max dp dn ∧
    (d.delayOf p.epsQ j : ℤ) ≤ (d.cap.toNat : ℤ) - d.bs.toNat

/-- R92: every history index DL_WRITE and DL_READMIX use lies in `[0, CAP)`, for every write position, delay word and block
size. -/
def Obligations.HistoryIndexesStayInside : Prop :=
  ∀ (p : Config.Params) (d : DlUnit) (j : Nat), d.Inv p → d.prepared = true → j < d.bs.toNat →
    d.latch.writeIndex j < d.cap.toNat ∧ d.latch.readIndex p.epsQ j < d.cap.toNat

/-- R79, R93: on the fast path sample `j` is read at `(readPosition + j) mod CAP`, with `readPosition = (CAP + WPOS - Dn) mod
CAP`; and a run of `BS` indices from any start below `CAP` wraps at most once, the rest at offset 0. -/
def Obligations.FastPathReadsOneRun : Prop :=
  (∀ (p : Config.Params) (d : DlUnit) (j : Nat), d.Inv p → d.prepared = true → j < d.bs.toNat →
    d.changed p.epsQ = false →
      d.readIndex p.epsQ j =
        ((d.cap.toNat + d.wpos.toNat - d.clamped d.curDelay) % d.cap.toNat + j) % d.cap.toNat) ∧
  ∀ (p : Config.Params) (d : DlUnit) (start j : Nat), d.Inv p → d.prepared = true → j < d.bs.toNat →
    start < d.cap.toNat →
      (start + j) % d.cap.toNat = if j < d.cap.toNat - start then start + j else j - (d.cap.toNat - start)

/-- R96: between consecutive samples of a block, and from its last sample to the `Dn` the next block starts with, the delay
moves by at most `ceil(|Dn - Dp| / BS)`; a smoothing block starts at `Dp`; a block that does not smooth holds one delay. -/
def Obligations.DelayStepIsBounded : Prop :=
  ∀ (p : Config.Params) (d : DlUnit), d.Inv p → d.prepared = true →
    let dn : ℤ := d.clamped d.curDelay
    let dp : ℤ := d.clamped d.prevDelay
    (d.changed p.epsQ = true →
      (d.delayOf p.epsQ 0 : ℤ) = dp ∧
      (∀ j, j + 1 < d.bs.toNat →
        |(d.delayOf p.epsQ (j + 1) : ℤ) - d.delayOf p.epsQ j| ≤ ⌈(|dn - dp| : ℚ) / d.bs.toNat⌉) ∧
      |dn - d.delayOf p.epsQ (d.bs.toNat - 1)| ≤ ⌈(|dn - dp| : ℚ) / d.bs.toNat⌉) ∧
    (d.changed p.epsQ = false → ∀ j, (d.delayOf p.epsQ j : ℤ) = dn)

/-! ### The DL commands (spec/40_delayline.md R80 to R86) -/

/-- R81 with R74: DL_PREPARE refuses a block size of 0 or above `MAX_BLOCK`, then a rate of 0, then a capacity above
`HIST_DEPTH`, and each refusal changes nothing but `ERR`; otherwise it sets the active registers, latches the delay into both
delay registers, sets `PREPARED`, clears every in-use history element and changes no other byte of the history. -/
def Obligations.PrepareSizesAndClears : Prop :=
  ∀ s : State, s.params.Legal →
    let fails (e : ErrCode) : Prop :=
      exec .dlPrepare s = .next { s with dl := { s.dl with err := if s.dl.err = .noError then e else s.dl.err } }
    let badBlock := s.dl.prepBs.toNat = 0 ∨ s.params.maxBlock < s.dl.prepBs.toNat
    let cap : ℤ := ⌈((s.dl.prepSr.toNat : ℚ) * s.dl.prepMaxd.toNat) / 1000⌉ + s.dl.prepBs.toNat
    (badBlock → fails .invalidBlockSize) ∧
    (¬badBlock → s.dl.prepSr.toNat = 0 → fails .badArgument) ∧
    (¬badBlock → s.dl.prepSr.toNat ≠ 0 → (s.params.histDepth : ℤ) < cap → fails .allocFailed) ∧
    (¬badBlock → s.dl.prepSr.toNat ≠ 0 → cap ≤ s.params.histDepth →
      ∃ (c : Word) (h : History),
        (c.toNat : ℤ) = cap ∧
        exec .dlPrepare s = .next { s with
          hist := h,
          dl := { s.dl with
            sr := s.dl.prepSr, bs := s.dl.prepBs, cap := c, wpos := 0, curDelay := s.dl.delay,
            prevDelay := s.dl.delay, blockOpen := false, prepared := true } } ∧
        (∀ ch i, ch < s.params.numCh → i < c.toNat → h.elem s.params ch i = 0) ∧
        ∀ a, c.toNat ≤ histIndex s.params a → h.byte s.params a = s.hist.byte s.params a)

/-- R82 with R80: a DL_WRITE that passes its checks and whose I/O block has been written opens the block, latching `DL_DELAY`
if it was closed, and stores the gained sample `j` at `(WPOS + j) mod CAP` of its channel; no other byte of the history, and
no other state, changes (the counter of free values is the model's own, log 4). -/
def Obligations.WriteStoresTheGainedBlock : Prop :=
  ∀ (s : State) (ch len : Nat), s.params.Legal → s.dl.Inv s.params → s.BlockReady ch len →
    ∃ h : History,
      exec (.dlWrite ch len) s = .next { s with
        dl := { s.dl with curDelay := if s.dl.blockOpen then s.dl.curDelay else s.dl.delay, blockOpen := true },
        hist := h, freeCount := s.freeCount + s.dl.bs.toNat } ∧
      (∀ j x, j < s.dl.bs.toNat → s.io.word? (ioAddr s.params ch j) = some x →
        h.elem s.params ch ((s.dl.wpos.toNat + j) % s.dl.cap.toNat) =
          if s.dl.gain = 0x3F800000 ∧ val32 x = .nan false then x else mul32 (s.freeCount + j) s.dl.gain x) ∧
      ∀ a, (∀ j, j < s.dl.bs.toNat →
          ¬(histAddr s.params ch ((s.dl.wpos.toNat + j) % s.dl.cap.toNat) ≤ a ∧
            a < histAddr s.params ch ((s.dl.wpos.toNat + j) % s.dl.cap.toNat) + 4)) →
        h.byte s.params a = s.hist.byte s.params a

/-- R83 with R80: a DL_READMIX that passes its checks and whose I/O block has been written opens the block, latching
`DL_DELAY` if it was closed, and adds to `IO[ch][j]` the history element at `idx(j)`; no other byte of the I/O buffers, and no
other state, changes (the counter of free values is the model's own, log 4). -/
def Obligations.ReadmixAddsTheDelayedBlock : Prop :=
  ∀ (s : State) (ch len : Nat), s.BlockReady ch len →
    let d : DlUnit :=
      { s.dl with curDelay := if s.dl.blockOpen then s.dl.curDelay else s.dl.delay, blockOpen := true }
    ∃ m : Memory,
      exec (.dlReadmix ch len) s = .next { s with dl := d, io := m, freeCount := s.freeCount + s.dl.bs.toNat } ∧
      (∀ j x, j < s.dl.bs.toNat → s.io.word? (ioAddr s.params ch j) = some x →
        m.word? (ioAddr s.params ch j) = some (add32 (s.freeCount + j) x
          (s.hist.elem s.params ch
            ((d.wpos.toNat + j + d.cap.toNat - d.delayOf s.params.epsQ j) % d.cap.toNat)))) ∧
      ∀ a, (∀ j, j < s.dl.bs.toNat → ¬(ioAddr s.params ch j ≤ a ∧ a < ioAddr s.params ch j + 4)) →
        m.get? a = s.io.get? a

/-- R121, R122, R123 for the block commands: DL_WRITE and DL_READMIX report the first of NotPrepared, BadChannel,
InvalidBlockSize that applies, DL_ADVANCE reports NotPrepared; each then changes nothing but `ERR`, and that only if it was 0,
so the block is not latched. -/
def Obligations.BlockCommandsFailInOrder : Prop :=
  ∀ (s : State) (ch len : Nat) (i : Instr), i = .dlWrite ch len ∨ i = .dlReadmix ch len →
    let fails (i : Instr) (e : ErrCode) : Prop :=
      exec i s = .next { s with dl := { s.dl with err := if s.dl.err = .noError then e else s.dl.err } }
    (s.dl.prepared = false → fails i .notPrepared ∧ fails .dlAdvance .notPrepared) ∧
    (s.dl.prepared = true → s.params.numCh ≤ ch → fails i .badChannel) ∧
    (s.dl.prepared = true → ch < s.params.numCh → len ≠ s.dl.bs.toNat → fails i .invalidBlockSize)

/-- R84: DL_ADVANCE while prepared. -/
def Obligations.AdvanceMovesTheWritePosition : Prop :=
  ∀ s : State, s.dl.Inv s.params → s.dl.prepared = true →
    ∃ w : Word,
      exec .dlAdvance s =
        .next { s with dl := { s.dl with wpos := w, prevDelay := s.dl.curDelay, blockOpen := false } } ∧
      w.toNat = (s.dl.wpos.toNat + s.dl.bs.toNat) % s.dl.cap.toNat

/-- R85: DL_RELEASE clears the in-use history of every channel to +0.0, the active registers, the delay registers and the
flags, and changes nothing else: no other byte of the history either. -/
def Obligations.ReleaseClearsTheUnit : Prop :=
  ∀ s : State, s.params.Legal → s.dl.Inv s.params →
    ∃ h : History,
      exec .dlRelease s = .next { s with
        hist := h,
        dl := { s.dl with
          sr := 0, bs := 0, cap := 0, wpos := 0, curDelay := 0, prevDelay := 0, blockOpen := false,
          prepared := false } } ∧
      (∀ ch i, ch < s.params.numCh → i < s.dl.cap.toNat → h.elem s.params ch i = 0) ∧
      ∀ a, s.dl.cap.toNat ≤ histIndex s.params a → h.byte s.params a = s.hist.byte s.params a

/-- R86, R110: DL_CLRERR and PH_CLRERR set their unit's `ERR` to 0 and change nothing else. -/
def Obligations.ClrerrClearsItsUnitsError : Prop :=
  ∀ s : State,
    exec .dlClrerr s = .next { s with dl := { s.dl with err := .noError } } ∧
    exec .phClrerr s = .next { s with ph := { s.ph with err := .noError } }

/-- R94: `k` ADVANCEs after a PREPARE leave `WPOS = (k × BS) mod CAP`: from a prepared state with `WPOS = 0`, a bus order of
`k` DL_ADVANCE words runs to its end. -/
def Obligations.WritePositionAfterAdvances : Prop :=
  ∀ (s : State) (k : Nat), s.dl.Inv s.params → s.dl.prepared = true → s.dl.wpos = 0 → s.inReset = false →
    s.pending = List.replicate k (cmdStore .dlAdvance) →
      ∃ t, Sys2Proof.core.run k s = .next t ∧ t.pending = [] ∧ t.dl.cap = s.dl.cap ∧
        t.dl.wpos.toNat = (k * s.dl.bs.toNat) % s.dl.cap.toNat

/-- R82's corner cases: a gain of 1.0 stores every input but a signalling NaN unchanged, and makes a signalling NaN quiet; a
gain of +0.0 stores +0.0 for a finite non-negative input (pattern sign 0), -0.0 for a finite one with sign 1, and a NaN for an
infinite or NaN input. -/
def Obligations.GainOneAndGainZero : Prop :=
  ∀ (n : Nat) (x : Word),
    (val32 x ≠ .nan true → gained n 0x3F800000 x = x) ∧
    (val32 x = .nan true → val32 (gained n 0x3F800000 x) = .nan false) ∧
    (∀ neg m, val32 x = .fin neg m → gained n 0 x = if neg then 0x80000000 else 0) ∧
    ((val32 x).isFinite = false → (val32 (gained n 0 x)).isNan = true)

/-- R97: with a gain that is +0.0 or positive and a block of +0.0, DL_WRITE leaves an all-+0.0 in-use history of its channel
all +0.0, and DL_READMIX of a block of +0.0 over such a history leaves the block all +0.0. -/
def Obligations.SilenceStaysSilent : Prop :=
  ∀ (s t : State) (ch : Nat), s.params.Legal → s.dl.Inv s.params → s.dl.prepared = true → ch < s.params.numCh →
    s.dl.gain.toNat < 2 ^ 31 →
    (∀ j, j < s.dl.bs.toNat → s.io.word? (ioAddr s.params ch j) = some 0) →
    (∀ i, i < s.dl.cap.toNat → s.hist.elem s.params ch i = 0) →
      (exec (.dlWrite ch s.dl.bs.toNat) s = .next t → ∀ i, i < s.dl.cap.toNat → t.hist.elem s.params ch i = 0) ∧
      (exec (.dlReadmix ch s.dl.bs.toNat) s = .next t →
        ∀ j, j < s.dl.bs.toNat → t.io.word? (ioAddr s.params ch j) = some 0)

/-- R99: a DL_WRITE or DL_READMIX of a channel leaves every other channel's history and buffer, and what it leaves in its own
depends only on the shared registers and on its own history and buffer. -/
def Obligations.ChannelsAreIndependent : Prop :=
  ∀ (s s' t t' : State) (ch other len : Nat) (i : Instr), i = .dlWrite ch len ∨ i = .dlReadmix ch len →
    s.params.Legal → s.dl.Inv s.params → other ≠ ch →
    s'.params = s.params → s'.dl = s.dl → s'.freeCount = s.freeCount →
    (∀ j, j < s.params.maxBlock → s'.io.word? (ioAddr s.params ch j) = s.io.word? (ioAddr s.params ch j)) →
    (∀ k, k < s.params.histDepth → s'.hist.elem s.params ch k = s.hist.elem s.params ch k) →
    exec i s = .next t → exec i s' = .next t' →
      (∀ j, j < s.params.maxBlock → t.io.word? (ioAddr s.params other j) = s.io.word? (ioAddr s.params other j)) ∧
      (∀ k, k < s.params.histDepth → t.hist.elem s.params other k = s.hist.elem s.params other k) ∧
      t'.dl = t.dl ∧
      (∀ j, j < s.params.maxBlock → t'.io.word? (ioAddr s.params ch j) = t.io.word? (ioAddr s.params ch j)) ∧
      ∀ k, k < s.params.histDepth → t'.hist.elem s.params ch k = t.hist.elem s.params ch k

/-- R95: under the protocol of R91 with an unchanging delay (so every block takes the fast path with the same `D`), the run
completes, and sample `t` of the last block of channel `ch` ends as its input plus the gained input of sample `t - D` where
there is one, and plus what the history held before the run where there is none. Which NaN a NaN result is stays free (the
numbers `a` and `b`). -/
def Obligations.DelayedSampleIsTheGainedInput : Prop :=
  ∀ (s : State) (blocks : List (List (List Word))),
    s.Inv → s.inReset = false → s.dl.prepared = true → s.dl.blockOpen = false → s.dl.delay = s.dl.curDelay →
    (∀ block ∈ blocks, block.length = s.params.numCh ∧ ∀ input ∈ block, input.length = s.dl.bs.toNat) →
    s.pending = streamAccesses s.params blocks →
      ∃ u, Sys2Proof.core.run s.pending.length s = .next u ∧ u.pending = [] ∧
        ∀ ch j t x, ch < s.params.numCh → j < s.dl.bs.toNat → t + s.dl.bs.toNat = blocks.length * s.dl.bs.toNat + j →
          sampleAt blocks s.dl.bs.toNat ch t = some x →
            let D := s.dl.clamped s.dl.curDelay
            (∀ y, D ≤ t → sampleAt blocks s.dl.bs.toNat ch (t - D) = some y →
              ∃ a b, u.io.word? (ioAddr s.params ch j) = some (add32 a x (gained b s.dl.gain y))) ∧
            (t < D →
              ∃ a, u.io.word? (ioAddr s.params ch j) = some (add32 a x
                (s.hist.elem s.params ch ((s.dl.wpos.toNat + t + s.dl.cap.toNat - D) % s.dl.cap.toNat))))

/-! ### The PH commands (spec/41_phasor.md) -/

/-- R105: PH_SETRATE refuses a NaN, infinite, zero or negative rate, then one whose increment is infinite, changing nothing
but `ERR`; otherwise it stores the rate and the increment. -/
def Obligations.SetrateStoresOrRefuses : Prop :=
  ∀ s : State,
    let fails : Prop := exec .phSetrate s =
      .next { s with ph := { s.ph with err := if s.ph.err = .noError then .badArgument else s.ph.err } }
    let i := div64 (s.freeCount + 1) (mul64 s.freeCount 0x401921FB54442D18 s.ph.freq) s.ph.arg
    let positive := ∃ m, val64 s.ph.arg = .fin false m ∧ 0 < m
    (¬positive → fails) ∧ (positive → (val64 i).isInf = true → fails) ∧
    (positive → (val64 i).isInf = false →
      exec .phSetrate s =
        .next { s with ph := { s.ph with rate := s.ph.arg, inc := i }, freeCount := s.freeCount + 2 })

/-- R106: PH_SETFREQ refuses a NaN or infinite frequency, then one whose increment is infinite, changing nothing but `ERR`;
otherwise it stores the frequency and the increment. -/
def Obligations.SetfreqStoresOrRefuses : Prop :=
  ∀ s : State,
    let fails : Prop := exec .phSetfreq s =
      .next { s with ph := { s.ph with err := if s.ph.err = .noError then .badArgument else s.ph.err } }
    let i := div64 (s.freeCount + 1) (mul64 s.freeCount 0x401921FB54442D18 s.ph.arg) s.ph.rate
    let finite := ∃ neg m, val64 s.ph.arg = .fin neg m
    (¬finite → fails) ∧ (finite → (val64 i).isInf = true → fails) ∧
    (finite → (val64 i).isInf = false →
      exec .phSetfreq s =
        .next { s with ph := { s.ph with freq := s.ph.arg, inc := i }, freeCount := s.freeCount + 2 })

/-- R107: PH_SETPHASE refuses a NaN or infinite phase, changing nothing but `ERR`; otherwise it stores the wrapped phase and
the increment "it already holds" (R38's invariant). -/
def Obligations.SetphaseStoresTheWrappedPhase : Prop :=
  ∀ s : State,
    let finite := ∃ neg m, val64 s.ph.arg = .fin neg m
    (¬finite → exec .phSetphase s =
      .next { s with ph := { s.ph with err := if s.ph.err = .noError then .badArgument else s.ph.err } }) ∧
    (finite → s.ph.Inv → exec .phSetphase s =
      .next { s with ph := { s.ph with phase := wrap s.freeCount s.ph.arg }, freeCount := s.freeCount + 3 })

/-- R108: PH_RESET sets the phase to +0.0 and keeps everything else. -/
def Obligations.PhResetZeroesThePhase : Prop :=
  ∀ s : State, exec .phReset s = .next { s with ph := { s.ph with phase := 0 } }

/-- R109: PH_NEXT outputs the phase over `PI_D` and then advances the phase by the increment, wrapped. -/
def Obligations.NextOutputsThenAdvances : Prop :=
  ∀ s : State, exec .phNext s =
    .next { s with
      ph := { s.ph with
        out := div64 s.freeCount s.ph.phase 0x400921FB54442D18,
        phase := wrap (s.freeCount + 2) (add64 (s.freeCount + 1) s.ph.phase s.ph.inc) },
      freeCount := s.freeCount + 3 }

/-- R104: for every finite `s`, `wrap(s)` is finite, in `[0, TWO_PI)` and not -0.0, and a value of that range is kept. -/
def Obligations.WrapStaysInTheCycle : Prop :=
  ∀ (n : Nat) (w : DWord) (neg : Bool) (m : Nat), val64 w = .fin neg m →
    phaseInRange (wrap n w) ∧ (neg = false → m < twoPiQuanta → wrap n w = w)

/-- R104: outside `[0, TWO_PI)`, `wrap(s)` is the exact remainder in `[0, TWO_PI)` when a binary64 denotes it, and that is so
for every `val(s) ≥ 0` ("`fl64` does not round"). Values are quanta of 2^-1074. -/
def Obligations.WrapIsTheExactRemainder : Prop :=
  ∀ (n : Nat) (w : DWord) (m : Nat), val64 w = .fin false m →
    val64 (wrap n w) = .fin false (m % twoPiQuanta)

/-- R104's second case for `val(s) < 0`, and -0.0: the exact real remainder `x` of `-m` quanta by `TWO_PI`, in `[0, TWO_PI)`,
rounded to binary64; a result that rounds up to `TWO_PI` is +0.0, and -0.0 gives +0.0. -/
def Obligations.WrapOfANegativeIsTheRoundedRemainder : Prop :=
  ∀ (n : Nat) (w : DWord) (m : Nat), val64 w = .fin true m →
    ∃ x : Nat, x < twoPiQuanta ∧ (x : ℚ) = -m - twoPiQuanta * ⌊-(m : ℚ) / twoPiQuanta⌋ ∧
      wrap n w =
        (if signed64 false (binary64.round x 1) = 0x401921FB54442D18 then 0 else signed64 false (binary64.round x 1)) ∧
      (m = 0 → wrap n w = 0)

/-- R112: from a phase in its range, PH_NEXT writes a finite output with `0 ≤ val(PH_OUT) < 2`. -/
def Obligations.OutputIsBelowTwo : Prop :=
  ∀ s : State, phaseInRange s.ph.phase →
    ∃ t, exec .phNext s = .next t ∧ outInRange t.ph.out

/-- R115: PH_RESET then PH_NEXT outputs +0.0, at any frequency and rate. -/
def Obligations.FirstSampleAfterResetIsZero : Prop :=
  ∀ s : State, ∃ t u, exec .phReset s = .next t ∧ exec .phNext t = .next u ∧ u.ph.out = 0

/-- R114's exact case: at a quarter of the cycle per sample (`RATE = 4.0`, `FREQ = 1.0`, so `PH_INC = PI_D / 2`) and from phase
+0.0, four PH_NEXTs written on the bus output 0, 0.5, 1.0, 1.5 and come back to phase +0.0. -/
def Obligations.QuarterCycleRepeatsExactly : Prop :=
  ∀ (s : State) (rest : List BusEvent), s.inReset = false → s.ph.phase = 0 → s.ph.inc = 0x3FF921FB54442D18 →
    s.pending = List.replicate 4 (cmdStore .phNext) ++ rest →
      ∃ t1 t2 t3 t4, step s = .next t1 ∧ step t1 = .next t2 ∧ step t2 = .next t3 ∧ step t3 = .next t4 ∧
        t1.ph.out = 0 ∧ t2.ph.out = 0x3FE0000000000000 ∧ t3.ph.out = 0x3FF0000000000000 ∧
        t4.ph.out = 0x3FF8000000000000 ∧ t4.ph.phase = 0 ∧ t4.ph.inc = s.ph.inc ∧ t4.pending = rest

/-! ### Floating point (spec/00_scope.md R9) -/

/-- R9: rounding a magnitude of `num / den` quanta overflows to infinity exactly from half a place above the largest finite
magnitude on; below that it gives a finite pattern nearest to it, the even one of two equally near; a magnitude that a finite
pattern denotes is not rounded at all. -/
def Obligations.RoundingIsToNearestEven : Prop :=
  ∀ f : FloatFormat, f = binary32 ∨ f = binary64 →
    (∀ num den : Nat, 0 < den → f.round num den < f.infPattern →
      ∀ p : Nat, p < f.infPattern →
        |(num : ℚ) / den - f.quanta (f.round num den)| ≤ |(num : ℚ) / den - f.quanta p| ∧
        (p ≠ f.round num den →
          |(num : ℚ) / den - f.quanta (f.round num den)| = |(num : ℚ) / den - f.quanta p| →
            f.round num den % 2 = 0)) ∧
    (∀ num den : Nat, 0 < den →
      (f.round num den = f.infPattern ↔
        ((f.quanta (f.infPattern - 1) : ℚ) + f.quanta f.infPattern) / 2 ≤ (num : ℚ) / den)) ∧
    ∀ p : Nat, p < f.infPattern → f.round (f.quanta p) 1 = p

/-- R9: on finite operands `×32`, `+32`, `×64`, `+64` and `/64` give the exact product, sum or quotient, rounded once, with its
own sign; an exact zero sum is +0.0 unless both operands are -0.0; a non-zero value over zero is an infinity. Operands of `ma`
and `mb` quanta have the product `ma × mb / 2^149` quanta in binary32. -/
def Obligations.FiniteArithmeticRoundsTheExactResult : Prop :=
  let exact (na : Bool) (ma : Nat) (nb : Bool) (mb : Nat) : ℤ :=
    (if na then -(ma : ℤ) else ma) + (if nb then -(mb : ℤ) else mb)
  let zeroSign (na : Bool) (ma : Nat) (nb : Bool) (mb : Nat) : Bool := na && ma = 0 && nb && mb = 0
  (∀ (n : Nat) (a b : Word) (na nb : Bool) (ma mb : Nat), val32 a = .fin na ma → val32 b = .fin nb mb →
    let z := exact na ma nb mb
    mul32 n a b = signed32 (na != nb) (binary32.round (ma * mb) (2 ^ 149)) ∧
    (z ≠ 0 → add32 n a b = signed32 (z < 0) (binary32.round z.natAbs 1)) ∧
    (z = 0 → add32 n a b = signed32 (zeroSign na ma nb mb) 0)) ∧
  ∀ (n : Nat) (a b : DWord) (na nb : Bool) (ma mb : Nat), val64 a = .fin na ma → val64 b = .fin nb mb →
    let z := exact na ma nb mb
    mul64 n a b = signed64 (na != nb) (binary64.round (ma * mb) (2 ^ 1074)) ∧
    (z ≠ 0 → add64 n a b = signed64 (z < 0) (binary64.round z.natAbs 1)) ∧
    (z = 0 → add64 n a b = signed64 (zeroSign na ma nb mb) 0) ∧
    (mb ≠ 0 → div64 n a b = signed64 (na != nb) (binary64.round (ma * 2 ^ 1074) mb)) ∧
    (mb = 0 → ma ≠ 0 → div64 n a b = signed64 (na != nb) binary64.infPattern)

/-- R9's IEEE 754 special cases for infinities that are no NaN: infinity times a non-zero value or another infinity, infinity
plus a finite value or an equal infinity, and in binary64 infinity over a finite value and a finite value over infinity. -/
def Obligations.InfiniteOperandsGiveInfinities : Prop :=
  (∀ (n : Nat) (a b : Word) (na : Bool), val32 a = .inf na →
    (∀ nb, val32 b = .inf nb → mul32 n a b = signed32 (na != nb) binary32.infPattern ∧ (na = nb → add32 n a b = a)) ∧
    ∀ nb mb, val32 b = .fin nb mb → add32 n a b = a ∧ add32 n b a = a ∧
      (mb ≠ 0 → mul32 n a b = signed32 (na != nb) binary32.infPattern ∧
        mul32 n b a = signed32 (na != nb) binary32.infPattern)) ∧
  ∀ (n : Nat) (a b : DWord) (na : Bool), val64 a = .inf na →
    (∀ nb, val64 b = .inf nb → mul64 n a b = signed64 (na != nb) binary64.infPattern ∧ (na = nb → add64 n a b = a)) ∧
    ∀ nb mb, val64 b = .fin nb mb → add64 n a b = a ∧ add64 n b a = a ∧
      (mb ≠ 0 → mul64 n a b = signed64 (na != nb) binary64.infPattern ∧
        mul64 n b a = signed64 (na != nb) binary64.infPattern) ∧
      div64 n a b = signed64 (na != nb) binary64.infPattern ∧ div64 n b a = signed64 (na != nb) 0

/-- R9, 93 I3: a binary32 result that is a NaN by IEEE 754 is a NaN pattern, a quiet one where an operand is signalling; a NaN
operand always gives one, as do infinity times zero and infinity plus its opposite. -/
def Obligations.NanOperandsGiveNanResults : Prop :=
  ∀ (n : Nat) (a b : Word),
    ((val32 a).isNan = true ∨ (val32 b).isNan = true →
      (val32 (mul32 n a b)).isNan = true ∧ (val32 (add32 n a b)).isNan = true) ∧
    ((val32 a).isSignalling = true ∨ (val32 b).isSignalling = true →
      val32 (mul32 n a b) = .nan false ∧ val32 (add32 n a b) = .nan false) ∧
    (∀ p q, val32 a = .inf p → val32 b = .fin q 0 →
      (val32 (mul32 n a b)).isNan = true ∧ (val32 (mul32 n b a)).isNan = true) ∧
    (∀ p, val32 a = .inf p → val32 b = .inf (!p) → (val32 (add32 n a b)).isNan = true)

/-! ### Whole-machine rules -/

/-- R32, R22: every step keeps the DL unit's invariant. -/
def Obligations.DlInvariantIsKept : Prop :=
  ∀ s t : State, s.params.Legal → s.dl.Inv s.params → step s = .next t → t.dl.Inv t.params

/-- R37, R38, R112, R117: every step keeps the PH unit's invariant. -/
def Obligations.PhInvariantIsKept : Prop :=
  ∀ s t : State, s.ph.Inv → step s = .next t → t.ph.Inv

/-- R30, R47, R54: every step keeps the memories in canonical form, inside their address spaces, with the in-use history
cleared since reset. -/
def Obligations.MemoryInvariantIsKept : Prop :=
  ∀ s t : State, s.params.Legal → s.dl.Inv s.params → s.MemInv → step s = .next t → t.MemInv

/-- R135: for every legal choice of the parameters the state after reset meets the invariant. -/
def Obligations.ResetMeetsTheInvariant : Prop :=
  ∀ p : Config.Params, p.Legal → (State.resetWith p).Inv

/-- R100, R117, R125: no command is refused, and a command stops only as R127 says: a DL_WRITE or DL_READMIX, past its
checks, that reads an unwritten I/O element; every other command answers a next state. -/
def Obligations.CommandsCompleteUnlessUninitRead : Prop :=
  ∀ (i : Instr) (s : State),
    (∃ t, exec i s = .next t) ∨
      exec i s = .fault .uninitRead ∧
        ∃ ch j, (i = .dlWrite ch s.dl.bs.toNat ∨ i = .dlReadmix ch s.dl.bs.toNat) ∧ j < s.dl.bs.toNat ∧
          s.io.word? (ioAddr s.params ch j) = none

/-- "Written only by", R23 to R28, R36 to R40, and R54: outside the reset event a step changes each read-only value register,
`PREPARED` (R17) and the history only by executing one of the commands its rule names. The status fields `BLOCK_OPEN` and `ERR`
are StatusFieldsChangeOnlyByTheirCauses. -/
def Obligations.RegistersChangeOnlyByTheirCommands : Prop :=
  ∀ (s t : State) (e : BusEvent) (rest : List BusEvent), s.pending = e :: rest → e ≠ .releaseReset → step s = .next t →
    let executes (ok : Instr → Prop) : Prop :=
      ∃ r w i, e = .store (cmdAddr r) .w32 w ∧ decode r (w.setWidth 32) = .ok i ∧ ok i
    let prepareRelease (i : Instr) : Prop := i = .dlPrepare ∨ i = .dlRelease
    let latching (i : Instr) : Prop := ∃ ch len, i = .dlWrite ch len ∨ i = .dlReadmix ch len
    (t.dl.sr ≠ s.dl.sr ∨ t.dl.bs ≠ s.dl.bs ∨ t.dl.cap ≠ s.dl.cap ∨ t.dl.prepared ≠ s.dl.prepared →
      executes prepareRelease) ∧
    (t.dl.wpos ≠ s.dl.wpos ∨ t.dl.prevDelay ≠ s.dl.prevDelay →
      executes fun i => prepareRelease i ∨ i = .dlAdvance) ∧
    (t.dl.curDelay ≠ s.dl.curDelay → executes fun i => prepareRelease i ∨ latching i) ∧
    (t.hist ≠ s.hist → executes fun i => prepareRelease i ∨ ∃ ch len, i = .dlWrite ch len) ∧
    (t.ph.out ≠ s.ph.out → executes fun i => i = .phNext) ∧
    (t.ph.phase ≠ s.ph.phase → executes fun i => i = .phSetphase ∨ i = .phReset ∨ i = .phNext) ∧
    (t.ph.freq ≠ s.ph.freq → executes fun i => i = .phSetfreq) ∧
    (t.ph.rate ≠ s.ph.rate → executes fun i => i = .phSetrate) ∧
    (t.ph.inc ≠ s.ph.inc → executes fun i => i = .phSetrate ∨ i = .phSetfreq ∨ i = .phSetphase) ∧
    t.params = s.params

/-- "Written by", R17 and R34, with R120's "raised by, and when": outside the reset event `BLOCK_OPEN` rises only by a block
command and falls only by ADVANCE, PREPARE or RELEASE; an `ERR` field changes only to 0, by its unit's CLRERR, or from 0, to a
code by a command that raises that code, by an illegal word, or (BadArgument) by a refused write to `DL_GAIN`. -/
def Obligations.StatusFieldsChangeOnlyByTheirCauses : Prop :=
  ∀ (s t : State) (e : BusEvent) (rest : List BusEvent), s.pending = e :: rest → e ≠ .releaseReset → step s = .next t →
    let executes (ok : Instr → Prop) : Prop :=
      ∃ r w i, e = .store (cmdAddr r) .w32 w ∧ decode r (w.setWidth 32) = .ok i ∧ ok i
    let writes (a : BusAddr) (ok : Word → Prop) : Prop := ∃ w, e = .store a .w32 w ∧ ok (w.setWidth 32)
    let block (i : Instr) : Prop := ∃ ch len, i = .dlWrite ch len ∨ i = .dlReadmix ch len
    (s.dl.blockOpen = false → t.dl.blockOpen = true → executes block) ∧
    (s.dl.blockOpen = true → t.dl.blockOpen = false →
      executes fun i => i = .dlAdvance ∨ i = .dlPrepare ∨ i = .dlRelease) ∧
    (t.dl.err ≠ s.dl.err →
      (t.dl.err = .noError ∧ executes (· = .dlClrerr)) ∨
      (s.dl.err = .noError ∧
        ((t.dl.err = .illegalCommand ∧ writes 0x000 (illegalWord .dlCmd)) ∨
         (t.dl.err = .badArgument ∧
           writes 0x018 fun v => ¬∃ neg m, val32 v = .fin neg m ∧ (m = 0 ∨ neg = false) ∧ m ≤ 2 ^ 149) ∨
         (t.dl.err ∈ [.invalidBlockSize, .badArgument, .allocFailed] ∧ executes (· = .dlPrepare)) ∨
         (t.dl.err ∈ [.notPrepared, .badChannel, .invalidBlockSize] ∧ executes block) ∨
         (t.dl.err = .notPrepared ∧ executes (· = .dlAdvance))))) ∧
    (t.ph.err ≠ s.ph.err →
      (t.ph.err = .noError ∧ executes (· = .phClrerr)) ∨
      (s.ph.err = .noError ∧
        ((t.ph.err = .illegalCommand ∧ writes 0x100 (illegalWord .phCmd)) ∨
         (t.ph.err = .badArgument ∧ executes fun i => i = .phSetrate ∨ i = .phSetfreq ∨ i = .phSetphase))))

/-- R121, R126: once recorded, a unit's error code stays until that unit's CLRERR or the reset event. -/
def Obligations.FirstErrorIsKept : Prop :=
  ∀ (s t : State) (e : BusEvent) (rest : List BusEvent), s.pending = e :: rest → e ≠ .releaseReset → step s = .next t →
    (s.dl.err ≠ .noError → t.dl.err = s.dl.err ∨
      ∃ w, e = .store 0x000 .w32 w ∧ decode .dlCmd (w.setWidth 32) = .ok .dlClrerr) ∧
    (s.ph.err ≠ .noError → t.ph.err = s.ph.err ∨
      ∃ w, e = .store 0x100 .w32 w ∧ decode .phCmd (w.setWidth 32) = .ok .phClrerr)

/-- R80: while a block is open its latched delay does not change and the block stays open, whatever the bus does, a write to
`DL_DELAY` included, until an ADVANCE, a PREPARE, a RELEASE or the reset event. -/
def Obligations.OpenBlockKeepsItsDelay : Prop :=
  ∀ (s t : State) (e : BusEvent) (rest : List BusEvent), s.pending = e :: rest → e ≠ .releaseReset → step s = .next t →
    s.dl.blockOpen = true →
      (t.dl.blockOpen = true ∧ t.dl.curDelay = s.dl.curDelay) ∨
        ∃ w i, e = .store 0x000 .w32 w ∧ decode .dlCmd (w.setWidth 32) = .ok i ∧
          (i = .dlAdvance ∨ i = .dlPrepare ∨ i = .dlRelease)

/-- R98: whether and how a command fails does not depend on the delay word: with any other word in `DL_DELAY` it completes as
well and leaves the same error code. -/
def Obligations.NoDelayWordMakesACommandFail : Prop :=
  ∀ (i : Instr) (s t : State) (q : Word), exec i s = .next t →
    ∃ t', exec i { s with dl := { s.dl with delay := q } } = .next t' ∧ t'.dl.err = t.dl.err ∧ t'.ph = t.ph

/-- R30, R136 with R81: the unspecified content of the history after reset is never read. Two machines that meet the invariant
and differ in that content alone take the same step, and differ in it alone after it. -/
def Obligations.UnspecifiedHistoryIsNeverRead : Prop :=
  ∀ (s t : State) (n : Nat) (e : BusEvent) (rest : List BusEvent), s.Inv → s.pending = e :: rest → e ≠ .releaseReset →
    step s = .next t →
      step { s with hist := { s.hist with seed := n } } = .next { t with hist := { t.hist with seed := n } }

/-- R116: a PH command leaves every DL register and memory, and its effect on the PH unit depends on the PH unit alone; a DL
command leaves every PH register, and its effect depends on nothing of the PH unit (the free values' counter is shared). -/
def Obligations.UnitsAreIndependent : Prop :=
  ∀ (i : Instr) (s t : State), exec i s = .next t →
    (i.cmdReg = .phCmd → t.dl = s.dl ∧ t.hist = s.hist ∧ t.io = s.io ∧
      ∀ s' : State, s'.ph = s.ph → s'.freeCount = s.freeCount → ∃ t', exec i s' = .next t' ∧ t'.ph = t.ph) ∧
    (i.cmdReg = .dlCmd → t.ph = s.ph ∧
      ∀ u : PhUnit, exec i { s with ph := u } = .next { t with ph := u })
end

