-- ==== Sys2Proof/Laws/Decode.lean ====
section
/-! SUPPORT. The laws of the command word's fields (spec/30_encoding.md R64, R65): each field as a number, of a word and of a
word laid out from fields, and what a command without operands decodes to. -/

namespace Sys2Proof

theorem opField_eq (w : Word) : opField w = w.toNat % 256 := by simp [opField]

theorem chField_eq (w : Word) : chField w = w.toNat / 256 % 256 := by
  simp [chField, BitVec.extractLsb'_toNat, Nat.shiftRight_eq_div_pow]

theorem lenField_eq (w : Word) : lenField w = w.toNat / 65536 := by
  simp [lenField, BitVec.extractLsb'_toNat, Nat.shiftRight_eq_div_pow]
  have := w.isLt
  omega

/-- The number of a word laid out from its fields. -/
theorem toNat_fields (len ch op : Nat) :
    (fields len ch op).toNat = len % 65536 * 65536 + ch % 256 * 256 + op % 256 := by
  unfold fields
  simp only [BitVec.toNat_append, BitVec.toNat_ofNat]
  rw [← Nat.shiftLeft_add_eq_or_of_lt (by omega), ← Nat.shiftLeft_add_eq_or_of_lt (by omega)]
  simp only [Nat.shiftLeft_eq]
  omega

theorem opField_fields (len ch : Nat) {op : Nat} (h : op < 256) : opField (fields len ch op) = op := by
  rw [opField_eq, toNat_fields]; omega

theorem chField_fields (len op : Nat) {ch : Nat} (h : ch < 256) : chField (fields len ch op) = ch := by
  rw [chField_eq, toNat_fields]; omega

theorem lenField_fields (ch op : Nat) {len : Nat} (h : len < 65536) : lenField (fields len ch op) = len := by
  rw [lenField_eq, toNat_fields]; omega

/-- A command without operands decodes exactly when bits 31:8 are 0. -/
theorem bare_cases (w : Word) (i : Instr) :
    (w.toNat / 256 = 0 ∧ bare w i = .ok i) ∨ (w.toNat / 256 ≠ 0 ∧ bare w i = .error .nonzeroField) := by
  have h : w.extractLsb' 8 24 = 0 ↔ w.toNat / 256 = 0 := by
    rw [← BitVec.toNat_inj]
    simp [BitVec.extractLsb'_toNat, Nat.shiftRight_eq_div_pow]
    have := w.isLt
    omega
  unfold bare
  by_cases h0 : w.extractLsb' 8 24 = 0
  · exact .inl ⟨h.1 h0, if_pos h0⟩
  · exact .inr ⟨fun h' => h0 (h.2 h'), if_neg h0⟩

end Sys2Proof
end

