-- ==== Sys2Proof/Laws/Float.lean ====
section
/-! SUPPORT. The laws of the floating-point operations: what a packed pattern denotes, that quanta rise with the pattern, what
rounding computes, and when a result is not a NaN. -/

namespace Sys2Proof.Machine

namespace FloatFormat
variable (f : FloatFormat)

theorem two_pow_frac_pos : 0 < 2 ^ f.fracBits := Nat.two_pow_pos _

theorem infPattern_lt : f.infPattern < f.signWeight := by
  unfold infPattern signWeight
  rw [Nat.pow_add]
  have := Nat.two_pow_pos f.expBits
  exact Nat.mul_lt_mul_of_pos_right (by omega) (two_pow_frac_pos f)

theorem pack_lt {neg : Bool} {p : Nat} (hp : p ≤ f.infPattern) : f.pack neg p < 2 * f.signWeight := by
  have := f.infPattern_lt
  unfold pack; split <;> omega

/-- What a packed pattern denotes: the number of its quanta, or infinity. -/
theorem val_pack (neg : Bool) {p : Nat} (hp : p ≤ f.infPattern) :
    f.val (f.pack neg p) = if p = f.infPattern then .inf neg else .fin neg (f.quanta p) := by
  have hlt : p < f.signWeight := lt_of_le_of_lt hp f.infPattern_lt
  have hmod : f.pack neg p % f.signWeight = p := by
    unfold pack; cases neg <;> simp [Nat.mod_eq_of_lt hlt]
  have hneg : decide (f.signWeight ≤ f.pack neg p) = neg := by
    unfold pack; cases neg <;> simp [hlt]
  unfold val
  simp only [hmod, hneg, if_neg (Nat.not_lt.2 hp)]

theorem quanta_zero : f.quanta 0 = 0 := by simp [quanta]

/-- Quanta of an exponent field and a fraction. -/
theorem quanta_field {e g : Nat} (hg : g < 2 ^ f.fracBits) :
    f.quanta ((e + 1) * 2 ^ f.fracBits + g) = (2 ^ f.fracBits + g) * 2 ^ e := by
  have hpos := two_pow_frac_pos f
  have hdiv : ((e + 1) * 2 ^ f.fracBits + g) / 2 ^ f.fracBits = e + 1 := by
    rw [Nat.mul_comm, Nat.mul_add_div hpos, Nat.div_eq_of_lt hg]
  have hmod : ((e + 1) * 2 ^ f.fracBits + g) % 2 ^ f.fracBits = g := by
    rw [Nat.mul_comm, Nat.mul_add_mod, Nat.mod_eq_of_lt hg]
  unfold quanta
  rw [hdiv, hmod, if_neg (Nat.succ_ne_zero e), Nat.add_sub_cancel]

theorem quanta_small {p : Nat} (hp : p < 2 ^ f.fracBits) : f.quanta p = p := by
  unfold quanta; rw [Nat.div_eq_of_lt hp, if_pos rfl]

/-- A significand `r` up to twice the hidden bit, at `s` binary places: the pattern `s × 2^fracBits + r` denotes `r × 2^s`. -/
theorem quanta_scaled {s r : Nat} (hr : r ≤ 2 * 2 ^ f.fracBits) (hs : s = 0 ∨ 2 ^ f.fracBits ≤ r) :
    f.quanta (s * 2 ^ f.fracBits + r) = r * 2 ^ s := by
  have hpos := two_pow_frac_pos f
  by_cases hlo : r < 2 ^ f.fracBits
  · have h0 : s = 0 := by omega
    subst h0; simp [quanta_small f hlo]
  · by_cases htop : r = 2 * 2 ^ f.fracBits
    · subst htop
      have := quanta_field f (e := s + 1) hpos
      rw [show (s + 1 + 1) * 2 ^ f.fracBits + 0 = s * 2 ^ f.fracBits + 2 * 2 ^ f.fracBits by ring] at this
      rw [this, Nat.pow_succ]; ring
    · have := quanta_field f (e := s) (g := r - 2 ^ f.fracBits) (by omega)
      rw [show (s + 1) * 2 ^ f.fracBits + (r - 2 ^ f.fracBits) = s * 2 ^ f.fracBits + r by
        rw [Nat.succ_mul]; omega] at this
      rw [this]; congr 1; omega

theorem quanta_lt_succ (p : Nat) : f.quanta p < f.quanta (p + 1) := by
  have hpos := two_pow_frac_pos f
  by_cases h0 : p + 1 < 2 ^ f.fracBits
  · rw [quanta_small f h0, quanta_small f (by omega)]; omega
  by_cases h1 : p < 2 ^ f.fracBits
  · have : p + 1 = (0 + 1) * 2 ^ f.fracBits + 0 := by omega
    rw [quanta_small f h1, this, quanta_field f hpos]; omega
  · obtain ⟨e, he⟩ : ∃ e, p / 2 ^ f.fracBits = e + 1 :=
      ⟨p / 2 ^ f.fracBits - 1, by have := Nat.div_pos (Nat.le_of_not_lt h1) hpos; omega⟩
    have hg := Nat.mod_lt p hpos
    have hp : p = (e + 1) * 2 ^ f.fracBits + p % 2 ^ f.fracBits := by
      rw [← he, Nat.mul_comm]; exact (Nat.div_add_mod _ _).symm
    generalize p % 2 ^ f.fracBits = g at hg hp
    subst hp
    rw [quanta_field f hg]
    by_cases hlast : g + 1 = 2 ^ f.fracBits
    · rw [show (e + 1) * 2 ^ f.fracBits + g + 1 = (e + 1 + 1) * 2 ^ f.fracBits + 0 by rw [Nat.succ_mul (e + 1)]; omega,
        quanta_field f hpos, Nat.pow_succ, Nat.add_zero, ← Nat.mul_assoc, Nat.mul_right_comm]
      exact Nat.mul_lt_mul_of_pos_right (by omega) (Nat.two_pow_pos _)
    · rw [Nat.add_assoc, quanta_field f (by omega)]
      exact Nat.mul_lt_mul_of_pos_right (by omega) (Nat.two_pow_pos _)

/-- A greater pattern denotes a greater magnitude. -/
theorem quanta_strictMono : StrictMono f.quanta := strictMono_nat_of_lt_succ f.quanta_lt_succ

theorem round_le (num den : Nat) : f.round num den ≤ f.infPattern := Nat.min_le_right _ _

end FloatFormat

/-- The rounded integer is one of the two about the quotient. -/
theorem nearestEven_bounds (num den : Nat) :
    num / den ≤ nearestEven num den ∧ nearestEven num den ≤ num / den + 1 := by
  unfold nearestEven; dsimp only; split <;> omega

/-- A greater numerator rounds no lower. -/
theorem nearestEven_mono {n m den : Nat} (h : n ≤ m) : nearestEven n den ≤ nearestEven m den := by
  have hq : n / den ≤ m / den := Nat.div_le_div_right h
  rcases Nat.lt_or_eq_of_le hq with hlt | heq
  · have h1 := (nearestEven_bounds n den).2
    have h2 := (nearestEven_bounds m den).1
    omega
  · have hr : n % den ≤ m % den := by
      have h1 := Nat.div_add_mod n den
      have h2 := Nat.div_add_mod m den
      rw [heq] at h1; omega
    unfold nearestEven
    simp only [heq]
    split
    · rename_i hc
      have hm : den < 2 * (m % den) ∨ 2 * (m % den) = den ∧ m / den % 2 = 1 := by omega
      rw [if_pos hm]
    · split <;> omega

namespace FloatFormat
variable (f : FloatFormat)

/-- The places and the significand that rounding finds. -/
theorem round_parts (num den : Nat) :
    let s := (num / den).log2 - f.fracBits
    nearestEven num (den * 2 ^ s) ≤ 2 * 2 ^ f.fracBits ∧
      (s = 0 ∨ 2 ^ f.fracBits ≤ nearestEven num (den * 2 ^ s) ∧ 2 ^ f.fracBits * 2 ^ s ≤ num / den) := by
  intro s
  have hq : num / (den * 2 ^ s) = num / den / 2 ^ s := by rw [Nat.div_div_eq_div_mul]
  have hb := nearestEven_bounds num (den * 2 ^ s)
  have hup : num / den < 2 ^ ((num / den).log2 + 1) := Nat.lt_log2_self
  constructor
  · have hlt : num / den / 2 ^ s < 2 * 2 ^ f.fracBits := by
      rw [Nat.div_lt_iff_lt_mul (Nat.two_pow_pos _), Nat.mul_assoc, ← Nat.pow_add, ← Nat.pow_succ']
      exact lt_of_lt_of_le hup (Nat.pow_le_pow_right (by omega) (by omega))
    omega
  · by_cases h0 : s = 0
    · exact .inl h0
    · right
      have hne : num / den ≠ 0 := by
        intro hz; apply h0; show (num / den).log2 - f.fracBits = 0; rw [hz]; simp
      have hlo : 2 ^ f.fracBits * 2 ^ s ≤ num / den := by
        rw [← Nat.pow_add]
        exact le_trans (Nat.pow_le_pow_right (by omega) (by omega)) (Nat.log2_self_le hne)
      refine ⟨?_, hlo⟩
      have : 2 ^ f.fracBits ≤ num / den / 2 ^ s := (Nat.le_div_iff_mul_le (Nat.two_pow_pos _)).2 hlo
      omega

/-- A greater numerator over the same denominator rounds to no smaller a pattern. -/
theorem round_mono {n m : Nat} (den : Nat) (h : n ≤ m) : f.round n den ≤ f.round m den := by
  unfold round
  refine min_le_min ?_ le_rfl
  have hlog : (n / den).log2 ≤ (m / den).log2 := by
    have hq : n / den ≤ m / den := Nat.div_le_div_right h
    by_cases h0 : n / den = 0
    · rw [h0]; simp
    · have hm : m / den ≠ 0 := fun hz => h0 (Nat.le_zero.1 (hz ▸ hq))
      exact (Nat.le_log2 hm).2 (le_trans (Nat.log2_self_le h0) hq)
  obtain ⟨h1, _⟩ := round_parts f n den
  obtain ⟨_, h2⟩ := round_parts f m den
  rcases Nat.lt_or_eq_of_le (Nat.sub_le_sub_right hlog f.fracBits) with hlt | heq
  · have h2' := h2.resolve_left (by omega)
    have : ((n / den).log2 - f.fracBits + 1) * 2 ^ f.fracBits ≤ ((m / den).log2 - f.fracBits) * 2 ^ f.fracBits :=
      Nat.mul_le_mul_right _ hlt
    rw [Nat.succ_mul] at this
    omega
  · rw [heq]
    exact Nat.add_le_add_left (nearestEven_mono h) _

end FloatFormat

/-! ### The two formats -/

theorem toNat_ofNat_pack32 {neg : Bool} {p : Nat} (hp : p ≤ binary32.infPattern) :
    (BitVec.ofNat 32 (binary32.pack neg p)).toNat = binary32.pack neg p := by
  rw [BitVec.toNat_ofNat]
  exact Nat.mod_eq_of_lt (binary32.pack_lt hp)

theorem toNat_ofNat_pack64 {neg : Bool} {p : Nat} (hp : p ≤ binary64.infPattern) :
    (BitVec.ofNat 64 (binary64.pack neg p)).toNat = binary64.pack neg p := by
  rw [BitVec.toNat_ofNat]
  exact Nat.mod_eq_of_lt (binary64.pack_lt hp)

/-- What a packed binary32 word denotes. -/
theorem val32_pack (neg : Bool) {p : Nat} (hp : p ≤ binary32.infPattern) :
    val32 (BitVec.ofNat 32 (binary32.pack neg p)) =
      if p = binary32.infPattern then .inf neg else .fin neg (binary32.quanta p) := by
  unfold val32; rw [toNat_ofNat_pack32 hp, binary32.val_pack neg hp]

/-- What a packed binary64 pattern denotes. -/
theorem val64_pack (neg : Bool) {p : Nat} (hp : p ≤ binary64.infPattern) :
    val64 (BitVec.ofNat 64 (binary64.pack neg p)) =
      if p = binary64.infPattern then .inf neg else .fin neg (binary64.quanta p) := by
  unfold val64; rw [toNat_ofNat_pack64 hp, binary64.val_pack neg hp]

/-- A finite pattern is its sign and a pattern below infinity, whose quanta it denotes. -/
theorem FloatFormat.val_eq_fin {f : FloatFormat} {bits : Nat} {neg : Bool} {m : Nat} (hb : bits < 2 * f.signWeight)
    (h : f.val bits = .fin neg m) : ∃ p, p < f.infPattern ∧ bits = f.pack neg p ∧ m = f.quanta p := by
  unfold FloatFormat.val at h
  dsimp only at h
  split at h
  · cases h
  · split at h
    · cases h
    · rename_i h1 h2
      injection h with hn hm
      refine ⟨bits % f.signWeight, by omega, ?_, hm.symm⟩
      unfold FloatFormat.pack
      by_cases hs : f.signWeight ≤ bits
      · have hlt : bits - f.signWeight < f.signWeight := by omega
        have : bits % f.signWeight = bits - f.signWeight := by
          rw [Nat.mod_eq_sub_mod hs, Nat.mod_eq_of_lt hlt]
        simp only [hs, decide_true] at hn
        subst hn; simp only [if_true]; omega
      · have : bits % f.signWeight = bits := Nat.mod_eq_of_lt (by omega)
        simp only [hs, decide_false] at hn
        subst hn; simp [this]

/-- `FloatFormat.val_eq_fin` for a binary64 register. -/
theorem val64_eq_fin {w : DWord} {neg : Bool} {m : Nat} (h : val64 w = .fin neg m) :
    ∃ p, p < binary64.infPattern ∧ w = BitVec.ofNat 64 (binary64.pack neg p) ∧ m = binary64.quanta p := by
  obtain ⟨p, hp, hb, hm⟩ := FloatFormat.val_eq_fin (f := binary64) w.isLt h
  exact ⟨p, hp, by rw [← hb]; simp, hm⟩

/-- `FloatFormat.val_eq_fin` for a binary32 word. -/
theorem val32_eq_fin {w : Word} {neg : Bool} {m : Nat} (h : val32 w = .fin neg m) :
    ∃ p, p < binary32.infPattern ∧ w = BitVec.ofNat 32 (binary32.pack neg p) ∧ m = binary32.quanta p := by
  obtain ⟨p, hp, hb, hm⟩ := FloatFormat.val_eq_fin (f := binary32) w.isLt h
  exact ⟨p, hp, by rw [← hb]; simp, hm⟩

namespace FloatFormat
variable (f : FloatFormat)

/-- From the binade of `s` up, every pattern denotes a whole multiple of `2^s` quanta. -/
theorem quanta_grid (s p : Nat) (hp : s = 0 ∨ (s + 1) * 2 ^ f.fracBits ≤ p) :
    ∃ k, f.quanta p = k * 2 ^ s ∧ (s * 2 ^ f.fracBits + k = p ∨ 2 * 2 ^ f.fracBits < k) := by
  rcases hp with rfl | hp
  · refine ⟨f.quanta p, by simp, ?_⟩
    by_cases h : p ≤ 2 * 2 ^ f.fracBits
    · left
      have := f.quanta_scaled (s := 0) h (.inl rfl)
      simp at this; simp [this]
    · right
      have h1 := f.quanta_strictMono (Nat.lt_of_not_le h)
      have := f.quanta_scaled (s := 0) (le_refl _) (.inl rfl)
      simp at this; omega
  · have hpos := f.two_pow_frac_pos
    have hd := Nat.div_add_mod p (2 ^ f.fracBits)
    have hm := Nat.mod_lt p hpos
    have hs : s + 1 ≤ p / 2 ^ f.fracBits := (Nat.le_div_iff_mul_le hpos).2 hp
    obtain ⟨e, he⟩ : ∃ e, p / 2 ^ f.fracBits = s + 1 + e := ⟨_, (Nat.add_sub_cancel' hs).symm⟩
    rw [he] at hd
    generalize p % 2 ^ f.fracBits = g at *
    have hp' : p = (s + e + 1) * 2 ^ f.fracBits + g := by rw [← hd]; ring
    refine ⟨(2 ^ f.fracBits + g) * 2 ^ e, ?_, ?_⟩
    · rw [hp', f.quanta_field hm, Nat.pow_add]; ring
    · rcases Nat.eq_zero_or_pos e with rfl | h
      · left; rw [hp']; ring
      · by_cases hg : g = 0 ∧ e = 1
        · left; obtain ⟨rfl, rfl⟩ := hg; rw [hp']; ring
        · right
          obtain ⟨e', rfl⟩ : ∃ e', e = e' + 1 := ⟨e - 1, by omega⟩
          rw [Nat.pow_succ]
          have : 1 ≤ 2 ^ e' := Nat.one_le_two_pow
          by_cases hg0 : g = 0
          · have : 2 ≤ 2 ^ e' := by
              obtain ⟨e'', rfl⟩ : ∃ e'', e' = e'' + 1 := ⟨e' - 1, by omega⟩
              rw [Nat.pow_succ]; have := Nat.one_le_two_pow (n := e''); omega
            nlinarith
          · nlinarith [Nat.pos_of_ne_zero hg0]

/-- Every small multiple of a power of two quanta has a pattern. -/
theorem exists_quanta_eq (k e : Nat) (hk : k ≤ 2 * 2 ^ f.fracBits) :
    ∃ p, f.quanta p = k * 2 ^ e := by
  induction e generalizing k with
  | zero => exact ⟨k, by have := f.quanta_scaled (s := 0) hk (.inl rfl); simpa using this⟩
  | succ e ih =>
    by_cases h : k ≤ 2 ^ f.fracBits
    · obtain ⟨p, hp⟩ := ih (2 * k) (by omega)
      exact ⟨p, by rw [hp, Nat.pow_succ]; ring⟩
    · exact ⟨_, f.quanta_scaled (s := e+1) hk (.inr (by omega))⟩

end FloatFormat

/-- Scaling numerator and denominator alike does not change the rounded integer. -/
theorem nearestEven_scale (num den : Nat) {k : Nat} (hk : 0 < k) :
    nearestEven (num * k) (den * k) = nearestEven num den := by
  unfold nearestEven
  rw [Nat.mul_div_mul_right _ _ hk, Nat.mul_mod_mul_right]
  dsimp only
  have h1 : den * k < 2 * (num % den * k) ↔ den < 2 * (num % den) := by
    rw [← Nat.mul_assoc]; exact Nat.mul_lt_mul_right hk
  have h2 : 2 * (num % den * k) = den * k ↔ 2 * (num % den) = den := by
    rw [← Nat.mul_assoc]; exact Nat.mul_left_inj (by omega)
  simp only [h1, h2]

/-- Scaling numerator and denominator alike does not change the rounded pattern. -/
theorem FloatFormat.round_scale (f : FloatFormat) (num den : Nat) {k : Nat} (hk : 0 < k) :
    f.round (num * k) (den * k) = f.round num den := by
  unfold FloatFormat.round
  rw [Nat.mul_div_mul_right _ _ hk]
  dsimp only
  rw [Nat.mul_right_comm den k, nearestEven_scale _ _ hk]

end Sys2Proof.Machine
end

