-- ==== Sys2Proof/Laws/Memory.lean ====
section
/-! SUPPORT. The laws of the byte memories: a read after a write to the same place gives what was written, every other place
is left alone, and every operation keeps the canonical form. -/

namespace Sys2Proof.Machine

section Bytes
variable (m : Memory) (a x : Nat) (b : Byte)

@[simp] theorem Memory.get?_nil : Memory.get? [] a = none := rfl

theorem Memory.get?_set : (m.set a b).get? x = if x = a then some b else m.get? x := by
  simp only [eq_comm (a := x)]
  induction m with
  | nil => rfl
  | cons c m ih =>
    unfold Memory.set
    split
    · rfl
    · split
      · rename_i hac; subst hac; by_cases h : c.1 = x <;> simp [Memory.get?, h]
      · rename_i h1 h2
        simp only [Memory.get?, ih]
        by_cases h : c.1 = x
        · have : ¬a = x := by omega
          simp [h, this]
        · simp [h]

theorem Memory.get?_keep (f : Nat → Bool) : (m.keep f).get? x = if f x then m.get? x else none := by
  induction m with
  | nil => simp [Memory.keep]
  | cons c m ih =>
    simp only [Memory.keep, List.filter] at *
    by_cases hc : c.1 = x
    · subst hc; cases h : f c.1 <;> simp_all [Memory.get?]
    · cases h : f c.1 <;> simp_all [Memory.get?]

theorem Memory.get?_erase : (m.erase a).get? x = if x = a then none else m.get? x := by
  by_cases h : x = a <;> simp [Memory.erase, Memory.get?_keep, h]

theorem Memory.get?_isSome_of_mem {c : Host.Cell} (h : c ∈ m) : (m.get? c.1).isSome := by
  induction m with
  | nil => cases h
  | cons d m ih =>
    by_cases hd : d.1 = c.1
    · simp [Memory.get?, hd]
    · have : c ∈ m := by
        rcases List.mem_cons.1 h with h | h
        · exact absurd (congrArg Prod.fst h).symm hd
        · exact h
      simp [Memory.get?, hd, ih this]

theorem Memory.mem_of_get? {b : Byte} (h : m.get? x = some b) : (x, b) ∈ m := by
  induction m with
  | nil => cases h
  | cons d m ih =>
    simp only [Memory.get?] at h
    split at h
    · rename_i hd; cases h; rw [← hd]; exact List.mem_cons_self
    · exact List.mem_cons_of_mem _ (ih h)

theorem Memory.mem_set {c : Host.Cell} (h : c ∈ m.set a b) : c = (a, b) ∨ c ∈ m := by
  induction m with
  | nil => simpa [Memory.set] using h
  | cons d m ih =>
    unfold Memory.set at h
    split at h
    · rcases List.mem_cons.1 h with h | h
      · exact .inl h
      · exact .inr h
    · split at h
      · rcases List.mem_cons.1 h with h | h
        · exact .inl h
        · exact .inr (List.mem_cons_of_mem _ h)
      · rcases List.mem_cons.1 h with h | h
        · exact .inr (h ▸ List.mem_cons_self)
        · exact (ih h).imp id (List.mem_cons_of_mem _)

end Bytes

section Order

theorem Memory.risingFrom_lower {a a' : Nat} {m : Memory} (h : Memory.risingFrom a m = true) (ha : a' ≤ a) :
    Memory.risingFrom a' m = true := by
  cases m with
  | nil => rfl
  | cons c m => simp only [Memory.risingFrom, Bool.and_eq_true, decide_eq_true_eq] at *; exact ⟨by omega, h.2⟩

theorem Memory.wf_of_risingFrom {a : Nat} {m : Memory} (h : Memory.risingFrom a m = true) : m.wf = true := by
  cases m with
  | nil => rfl
  | cons c m => simp only [Memory.risingFrom, Bool.and_eq_true] at h; exact h.2

theorem Memory.risingFrom_set {l a : Nat} {b : Byte} {m : Memory} (h : Memory.risingFrom l m = true) (ha : l < a) :
    Memory.risingFrom l (m.set a b) = true := by
  induction m generalizing l with
  | nil => simpa [Memory.set, Memory.risingFrom] using ha
  | cons c m ih =>
    simp only [Memory.risingFrom, Bool.and_eq_true, decide_eq_true_eq] at h
    unfold Memory.set
    split
    · rename_i hac; simp [Memory.risingFrom, ha, hac, h.2]
    · split
      · rename_i hac; subst hac; simp [Memory.risingFrom, ha, h.2]
      · simp only [Memory.risingFrom, Bool.and_eq_true, decide_eq_true_eq]; exact ⟨h.1, ih h.2 (by omega)⟩

theorem Memory.risingFrom_keep {l : Nat} {m : Memory} (f : Nat → Bool) (h : Memory.risingFrom l m = true) :
    Memory.risingFrom l (m.keep f) = true := by
  induction m generalizing l with
  | nil => rfl
  | cons c m ih =>
    simp only [Memory.risingFrom, Bool.and_eq_true, decide_eq_true_eq] at h
    simp only [Memory.keep, List.filter]
    cases f c.1
    · exact ih (Memory.risingFrom_lower h.2 (by omega))
    · simp only [Memory.risingFrom, Bool.and_eq_true, decide_eq_true_eq]; exact ⟨h.1, ih h.2⟩

/-- A write keeps the order. -/
theorem Memory.wf_set {m : Memory} (a : Nat) (b : Byte) (h : m.wf = true) : (m.set a b).wf = true := by
  cases m with
  | nil => rfl
  | cons c m =>
    unfold Memory.set
    split
    · rename_i hac; simpa [Memory.wf, Memory.risingFrom, hac] using h
    · split
      · rename_i hac; subst hac; simpa [Memory.wf] using h
      · exact Memory.risingFrom_set h (by omega)

/-- A removal keeps the order. -/
theorem Memory.wf_keep {m : Memory} (f : Nat → Bool) (h : m.wf = true) : (m.keep f).wf = true := by
  cases m with
  | nil => rfl
  | cons c m =>
    simp only [Memory.keep, List.filter]
    cases f c.1
    · exact Memory.wf_of_risingFrom (Memory.risingFrom_keep f h)
    · exact Memory.risingFrom_keep f h

theorem Memory.wf_erase {m : Memory} (a : Nat) (h : m.wf = true) : (m.erase a).wf = true := Memory.wf_keep _ h

end Order

section Words
variable (m : Memory) (w v : Word) (a x : Nat)

/-- R48: the four bytes of a word make the word. -/
@[simp] theorem wordOfBytes_wordByte : wordOfBytes (wordByte w 0) (wordByte w 1) (wordByte w 2) (wordByte w 3) = w := by
  apply BitVec.eq_of_getLsbD_eq
  intro i hi
  simp only [wordOfBytes, wordByte, BitVec.getLsbD_append, BitVec.getLsbD_extractLsb']
  by_cases h1 : i < 8
  · simp [h1]
  · by_cases h2 : i - 8 < 8
    · simp [h1, h2]; congr 1; omega
    · by_cases h3 : i - 8 - 8 < 8
      · simp [h1, h2, h3]; congr 1; omega
      · have h4 : i - 8 - 8 - 8 < 8 := by omega
        simp [h1, h2, h3, h4]; congr 1; omega

/-- The byte of a memory after a word write. -/
theorem Memory.get?_setWord :
    (m.setWord a w).get? x = if a ≤ x ∧ x < a + 4 then some (wordByte w (x - a)) else m.get? x := by
  simp only [Memory.setWord, Memory.get?_set]
  by_cases h0 : x = a
  · subst h0; simp
  · by_cases h1 : x = a + 1
    · subst h1; simp
    · by_cases h2 : x = a + 2
      · subst h2; simp
      · by_cases h3 : x = a + 3
        · subst h3; simp
        · have : ¬(a ≤ x ∧ x < a + 4) := by omega
          simp [h0, h1, h2, h3, this]

/-- A read after a write to the same place. -/
@[simp] theorem Memory.word?_setWord_same : (m.setWord a w).word? a = some w := by
  simp [Memory.word?, Memory.get?_setWord]

/-- A write leaves every word it does not overlap. -/
theorem Memory.word?_setWord_other (h : x + 4 ≤ a ∨ a + 4 ≤ x) : (m.setWord a w).word? x = m.word? x := by
  have h0 : ¬(a ≤ x ∧ x < a + 4) := by omega
  have h1 : ¬(a ≤ x + 1 ∧ x + 1 < a + 4) := by omega
  have h2 : ¬(a ≤ x + 2 ∧ x + 2 < a + 4) := by omega
  have h3 : ¬(a ≤ x + 3 ∧ x + 3 < a + 4) := by omega
  simp only [Memory.word?, Memory.get?_setWord, if_neg h0, if_neg h1, if_neg h2, if_neg h3]

theorem Memory.wf_setWord {m : Memory} (h : m.wf = true) : (m.setWord a w).wf = true := by
  unfold Memory.setWord
  exact Memory.wf_set _ _ (Memory.wf_set _ _ (Memory.wf_set _ _ (Memory.wf_set _ _ h)))

theorem Memory.word?_isSome_iff :
    (m.word? a).isSome = true ↔
      (m.get? a).isSome = true ∧ (m.get? (a + 1)).isSome = true ∧ (m.get? (a + 2)).isSome = true ∧
        (m.get? (a + 3)).isSome = true := by
  unfold Memory.word?
  cases m.get? a <;> cases m.get? (a + 1) <;> cases m.get? (a + 2) <;> cases m.get? (a + 3) <;> simp

theorem ioWf_iff {p : Config.Params} {m : Memory} :
    ioWf p m = true ↔
      m.wf = true ∧ ∀ c ∈ m, inIoWindow p c.1 = true ∧ (m.word? (4 * (c.1 / 4))).isSome = true := by
  simp [ioWf, List.all_eq_true]

/-- A write of an aligned word inside the window keeps the I/O buffers' form. -/
theorem ioWf_setWord {p : Config.Params} {m : Memory} (h : ioWf p m = true) (h4 : a % 4 = 0)
    (hw : ∀ k, k < 4 → inIoWindow p (a + k) = true) : ioWf p (m.setWord a w) = true := by
  rw [ioWf_iff] at *
  refine ⟨Memory.wf_setWord w a h.1, fun c hc => ?_⟩
  have hs : ((m.setWord a w).get? c.1).isSome = true := Memory.get?_isSome_of_mem _ hc
  rw [Memory.get?_setWord] at hs
  by_cases hin : a ≤ c.1 ∧ c.1 < a + 4
  · have ha : 4 * (c.1 / 4) = a := by omega
    rw [ha, Memory.word?_setWord_same]
    have := hw (c.1 - a) (by omega)
    rw [show a + (c.1 - a) = c.1 by omega] at this
    exact ⟨this, rfl⟩
  · rw [if_neg hin, Option.isSome_iff_exists] at hs
    obtain ⟨b, hb⟩ := hs
    have hm := h.2 _ (Memory.mem_of_get? _ _ hb)
    rw [Memory.word?_setWord_other _ _ _ _ (by omega)]
    exact hm

end Words

section HistoryLaws
variable (p : Config.Params) (h : History) (a x : Nat) (b : Byte) (w : Word)

@[simp] theorem History.setByte_init : (h.setByte p a b).init = h.init := by unfold History.setByte; split <;> rfl
@[simp] theorem History.setByte_seed : (h.setByte p a b).seed = h.seed := by unfold History.setByte; split <;> rfl
@[simp] theorem History.setWord_init : (h.setWord p a w).init = h.init := by simp [History.setWord]
@[simp] theorem History.setWord_seed : (h.setWord p a w).seed = h.seed := by simp [History.setWord]
@[simp] theorem History.setElem_init (c i : Nat) : (h.setElem p c i w).init = h.init := by simp [History.setElem]
@[simp] theorem History.setElem_seed (c i : Nat) : (h.setElem p c i w).seed = h.seed := by simp [History.setElem]
@[simp] theorem History.clear_init (cap : Nat) : (h.clear p cap).init = max h.init cap := rfl
@[simp] theorem History.clear_seed (cap : Nat) : (h.clear p cap).seed = h.seed := rfl

theorem History.byte_setByte : (h.setByte p a b).byte p x = if x = a then b else h.byte p x := by
  unfold History.setByte
  split
  · rename_i hz
    by_cases hx : x = a
    · subst hx; simp [History.byte, Memory.get?_erase, History.unlisted, hz]
    · simp [History.byte, Memory.get?_erase, hx, History.unlisted]
  · by_cases hx : x = a
    · subst hx; simp [History.byte, Memory.get?_set]
    · simp [History.byte, Memory.get?_set, hx, History.unlisted]

/-- The byte of a history after a word write. -/
theorem History.byte_setWord :
    (h.setWord p a w).byte p x = if a ≤ x ∧ x < a + 4 then wordByte w (x - a) else h.byte p x := by
  simp only [History.setWord, History.byte_setByte]
  by_cases h0 : x = a
  · subst h0; simp
  · by_cases h1 : x = a + 1
    · subst h1; simp
    · by_cases h2 : x = a + 2
      · subst h2; simp
      · by_cases h3 : x = a + 3
        · subst h3; simp
        · have : ¬(a ≤ x ∧ x < a + 4) := by omega
          simp [h0, h1, h2, h3, this]

theorem History.word_setWord_same : (h.setWord p a w).word p a = w := by
  simp [History.word, History.byte_setWord]

theorem History.word_setWord_other (hx : x + 4 ≤ a ∨ a + 4 ≤ x) : (h.setWord p a w).word p x = h.word p x := by
  have h0 : ¬(a ≤ x ∧ x < a + 4) := by omega
  have h1 : ¬(a ≤ x + 1 ∧ x + 1 < a + 4) := by omega
  have h2 : ¬(a ≤ x + 2 ∧ x + 2 < a + 4) := by omega
  have h3 : ¬(a ≤ x + 3 ∧ x + 3 < a + 4) := by omega
  simp only [History.word, History.byte_setWord, if_neg h0, if_neg h1, if_neg h2, if_neg h3]

/-- `H[c][i]` after `H[c][i] <- w`. -/
@[simp] theorem History.elem_setElem_same (c i : Nat) : (h.setElem p c i w).elem p c i = w :=
  History.word_setWord_same p h _ w

/-- Every element other than the one written is left. -/
theorem History.elem_setElem_other {c c' i i' : Nat} (hne : c' * p.histDepth + i' ≠ c * p.histDepth + i) :
    (h.setElem p c i w).elem p c' i' = h.elem p c' i' := by
  refine History.word_setWord_other p h _ _ w ?_
  simp only [histAddr]; omega

/-- The byte of a history after a clearing: 0 in the cleared elements, as before elsewhere. -/
theorem History.byte_clear (cap : Nat) :
    (h.clear p cap).byte p x = if histIndex p x < cap then 0 else h.byte p x := by
  by_cases hc : histIndex p x < cap
  · simp [History.byte, History.clear, Memory.get?_keep, History.unlisted, hc, Nat.not_le.2 hc]
  · have hlt : (histIndex p x < h.init ∨ histIndex p x < cap) ↔ histIndex p x < h.init := by omega
    simp [History.byte, History.clear, Memory.get?_keep, History.unlisted, hc, Nat.le_of_not_lt hc]

theorem histIndex_histAddr {c i k : Nat} (hi : i < p.histDepth) (hk : k < 4) :
    histIndex p (histAddr p c i + k) = i := by
  unfold histIndex histAddr
  rw [show (4 * (c * p.histDepth + i) + k) / 4 = i + p.histDepth * c by
    rw [Nat.mul_comm c]; omega]
  rw [Nat.add_mul_mod_self_left, Nat.mod_eq_of_lt hi]

/-- R81, R85: `H[c][i]` is +0.0 after a clearing that covers `i`. -/
theorem History.elem_clear {c i cap : Nat} (hi : i < cap) (hd : i < p.histDepth) : (h.clear p cap).elem p c i = 0 := by
  have hk : ∀ k, k < 4 → (h.clear p cap).byte p (histAddr p c i + k) = 0 := fun k hk => by
    rw [History.byte_clear, histIndex_histAddr p hd hk, if_pos hi]
  have h0 := hk 0 (by omega)
  rw [Nat.add_zero] at h0
  simp only [History.elem, History.word, h0, hk 1 (by omega), hk 2 (by omega), hk 3 (by omega)]
  rfl

theorem History.wf_iff :
    h.wf p = true ↔
      h.cells.wf = true ∧
        ∀ c ∈ h.cells, c.1 < 4 * (p.numCh * p.histDepth) ∧ histIndex p c.1 < h.init ∧ c.2 ≠ 0 := by
  simp only [History.wf, Bool.and_eq_true, List.all_eq_true, decide_eq_true_eq, and_assoc]

/-- A write into a cleared element inside the memory keeps the canonical form. -/
theorem History.wf_setByte {h : History} (hw : h.wf p = true) (ha : a < 4 * (p.numCh * p.histDepth))
    (hi : histIndex p a < h.init) : (h.setByte p a b).wf p = true := by
  rw [History.wf_iff] at *
  unfold History.setByte
  split
  · refine ⟨Memory.wf_erase a hw.1, fun c hc => hw.2 c ?_⟩
    exact List.mem_of_mem_filter hc
  · rename_i hz
    refine ⟨Memory.wf_set a b hw.1, fun c hc => ?_⟩
    rcases Memory.mem_set _ _ _ hc with rfl | hc
    · exact ⟨ha, hi, fun h0 => hz ⟨hi, h0⟩⟩
    · exact hw.2 c hc

theorem histAddr_lt {c i k : Nat} (hc : c < p.numCh) (hi : i < p.histDepth) (hk : k < 4) :
    histAddr p c i + k < 4 * (p.numCh * p.histDepth) := by
  have : (c + 1) * p.histDepth ≤ p.numCh * p.histDepth := Nat.mul_le_mul_right _ hc
  rw [Nat.succ_mul] at this
  unfold histAddr; omega

/-- `H[c][i] <- w` keeps the canonical form, for a channel of the machine and an element some PREPARE has cleared. -/
theorem History.wf_setElem {h : History} {c i : Nat} (hw : h.wf p = true) (hc : c < p.numCh) (hd : i < p.histDepth)
    (hi : i < h.init) : (h.setElem p c i w).wf p = true := by
  have ha : ∀ k, k < 4 → histAddr p c i + k < 4 * (p.numCh * p.histDepth) := fun k hk => histAddr_lt p hc hd hk
  have hx : ∀ k, k < 4 → histIndex p (histAddr p c i + k) < h.init := fun k hk => by
    rw [histIndex_histAddr p hd hk]; exact hi
  unfold History.setElem History.setWord
  refine History.wf_setByte _ _ _ (History.wf_setByte _ _ _ (History.wf_setByte _ _ _ (History.wf_setByte _ _ _ hw
    (ha 0 (by omega)) (hx 0 (by omega))) (ha 1 (by omega)) ?_) (ha 2 (by omega)) ?_) (ha 3 (by omega)) ?_
  · simpa using hx 1 (by omega)
  · simpa using hx 2 (by omega)
  · simpa using hx 3 (by omega)

/-- A clearing keeps the canonical form. -/
theorem History.wf_clear {h : History} (cap : Nat) (hw : h.wf p = true) : (h.clear p cap).wf p = true := by
  rw [History.wf_iff] at *
  refine ⟨Memory.wf_keep (fun a => decide (cap ≤ histIndex p a)) hw.1, fun c hc => ?_⟩
  have := hw.2 c (List.mem_of_mem_filter hc)
  exact ⟨this.1, lt_of_lt_of_le this.2.1 (Nat.le_max_left _ _), this.2.2⟩

end HistoryLaws

section Loops
variable {α : Type}

/-- A loop whose every turn completes from a state that meets `P` completes, and its end meets `P`. -/
theorem forUpTo_induct {n : Nat} {f : Nat → α → Option α} {a : α} (P : Nat → α → Prop) (h0 : P 0 a)
    (hs : ∀ k b, k < n → P k b → ∃ c, f k b = some c ∧ P (k + 1) c) : ∃ c, forUpTo n f a = some c ∧ P n c := by
  induction n with
  | zero => exact ⟨a, rfl, h0⟩
  | succ n ih =>
    obtain ⟨b, hb, hP⟩ := ih fun k b hk => hs k b (by omega)
    obtain ⟨c, hc, hP'⟩ := hs n b (by omega) hP
    exact ⟨c, by simp [forUpTo, hb, hc], hP'⟩

/-- What a completed loop keeps. -/
theorem forUpTo_keeps {n : Nat} {f : Nat → α → Option α} {a c : α} (P : α → Prop) (h0 : P a)
    (hs : ∀ k b c, k < n → P b → f k b = some c → P c) (h : forUpTo n f a = some c) : P c := by
  induction n generalizing c with
  | zero => cases h; exact h0
  | succ n ih =>
    unfold forUpTo at h
    cases hb : forUpTo n f a with
    | none => rw [hb] at h; cases h
    | some b => rw [hb] at h; exact hs n b c (by omega) (ih (fun k b c hk => hs k b c (by omega)) hb) h

/-- A loop whose turn `k` has no value from any state that meets `P`, which the turns keep, has no value. -/
theorem forUpTo_none {n k : Nat} {f : Nat → α → Option α} {a : α} (P : α → Prop) (h0 : P a)
    (hs : ∀ j b c, j < n → P b → f j b = some c → P c) (hk : k < n) (hf : ∀ b, P b → f k b = none) :
    forUpTo n f a = none := by
  induction n with
  | zero => omega
  | succ n ih =>
    cases hb : forUpTo n f a with
    | none => simp [forUpTo, hb]
    | some b =>
      have hs' : ∀ j b c, j < n → P b → f j b = some c → P c := fun j b c hj => hs j b c (by omega)
      by_cases hkn : k = n
      · subst hkn; simp [forUpTo, hb, hf b (forUpTo_keeps P h0 hs' hb)]
      · rw [ih hs' (by omega)] at hb; cases hb

end Loops

section Addresses
variable (p : Config.Params)

/-- Distinct I/O elements do not overlap. -/
theorem ioAddr_separate {c c' j j' : Nat} (hj : j < p.maxBlock) (hj' : j' < p.maxBlock) (h : c ≠ c' ∨ j ≠ j') :
    ioAddr p c j + 4 ≤ ioAddr p c' j' ∨ ioAddr p c' j' + 4 ≤ ioAddr p c j := by
  unfold ioAddr Config.Params.ioStride
  by_cases hc : c = c'
  · subst hc; omega
  · rcases Nat.lt_or_gt_of_ne hc with h1 | h1
    · left
      have : (c + 1) * (4 * p.maxBlock) ≤ c' * (4 * p.maxBlock) := Nat.mul_le_mul_right _ h1
      rw [Nat.succ_mul] at this; omega
    · right
      have : (c' + 1) * (4 * p.maxBlock) ≤ c * (4 * p.maxBlock) := Nat.mul_le_mul_right _ h1
      rw [Nat.succ_mul] at this; omega

/-- Distinct history elements do not overlap. -/
theorem histAddr_separate {c c' i i' : Nat} (hi : i < p.histDepth) (hi' : i' < p.histDepth) (h : c ≠ c' ∨ i ≠ i') :
    histAddr p c i + 4 ≤ histAddr p c' i' ∨ histAddr p c' i' + 4 ≤ histAddr p c i := by
  unfold histAddr
  by_cases hc : c = c'
  · subst hc; omega
  · rcases Nat.lt_or_gt_of_ne hc with h1 | h1
    · left
      have : (c + 1) * p.histDepth ≤ c' * p.histDepth := Nat.mul_le_mul_right _ h1
      rw [Nat.succ_mul] at this; omega
    · right
      have : (c' + 1) * p.histDepth ≤ c * p.histDepth := Nat.mul_le_mul_right _ h1
      rw [Nat.succ_mul] at this; omega

/-- Every byte of an I/O element lies in the window. -/
theorem inIoWindow_ioAddr {c j k : Nat} (hc : c < p.numCh) (hj : j < p.maxBlock) (hk : k < 4) :
    inIoWindow p (ioAddr p c j + k) = true := by
  have : (c + 1) * p.ioStride ≤ p.numCh * p.ioStride := Nat.mul_le_mul_right _ hc
  rw [Nat.succ_mul] at this
  have h2 : p.ioStride = 4 * p.maxBlock := rfl
  simp only [inIoWindow, Bool.and_eq_true, decide_eq_true_eq]
  unfold ioAddr
  constructor <;> omega

/-- The whole word at an aligned address of the window lies in it. -/
theorem inIoWindow_word {a k : Nat} (h4 : a % 4 = 0) (hw : inIoWindow p a = true) (hk : k < 4) :
    inIoWindow p (a + k) = true := by
  unfold inIoWindow at hw ⊢
  simp only [Bool.and_eq_true, decide_eq_true_eq] at hw ⊢
  have h0 : Config.ioBase = 65536 := rfl
  have e : p.numCh * p.ioStride = 4 * (p.numCh * p.maxBlock) := by unfold Config.Params.ioStride; ring
  rw [e] at hw ⊢
  omega

/-- An I/O element is aligned. -/
theorem ioAddr_aligned (c j : Nat) : ioAddr p c j % 4 = 0 := by
  have h0 : Config.ioBase = 65536 := rfl
  have : c * p.ioStride = 4 * (c * p.maxBlock) := by unfold Config.Params.ioStride; ring
  unfold ioAddr
  omega

/-- Two memories whose four bytes agree hold the same word. -/
theorem Memory.word?_congr {m n : Memory} {a : Nat} (h : ∀ k, k < 4 → m.get? (a + k) = n.get? (a + k)) :
    m.word? a = n.word? a := by
  have h0 := h 0 (by omega)
  rw [Nat.add_zero] at h0
  unfold Memory.word?
  rw [h0, h 1 (by omega), h 2 (by omega), h 3 (by omega)]

/-- Two histories whose four bytes agree hold the same element. -/
theorem History.elem_congr {g h : History} {c i : Nat}
    (hb : ∀ k, k < 4 → g.byte p (histAddr p c i + k) = h.byte p (histAddr p c i + k)) : g.elem p c i = h.elem p c i := by
  have h0 := hb 0 (by omega)
  rw [Nat.add_zero] at h0
  unfold History.elem History.word
  rw [h0, hb 1 (by omega), hb 2 (by omega), hb 3 (by omega)]

end Addresses

/-- Two memories in canonical form that read alike are equal data. -/
theorem Memory.ext_of_wf {m n : Memory} (hm : m.wf = true) (hn : n.wf = true) (h : ∀ a, m.get? a = n.get? a) : m = n := by
  have low : ∀ (l : Nat) (m : Memory) (a : Nat), Memory.risingFrom l m = true → a ≤ l → m.get? a = none := by
    intro l m a hr ha
    induction m generalizing l with
    | nil => rfl
    | cons c m ih =>
      simp only [Memory.risingFrom, Bool.and_eq_true, decide_eq_true_eq] at hr
      rw [Memory.get?, if_neg (by omega)]
      exact ih c.1 hr.2 (by omega)
  have key : ∀ (m n : Memory), m.wf = true → n.wf = true → (∀ a, m.get? a = n.get? a) → m = n := by
    intro m
    induction m with
    | nil =>
      intro n _ _ h
      cases n with
      | nil => rfl
      | cons d n => have := h d.1; simp [Memory.get?] at this
    | cons c m ih =>
      intro n hm hn h
      cases n with
      | nil => have := h c.1; simp [Memory.get?] at this
      | cons d n =>
        have hc1 := h c.1
        have hd1 := h d.1
        have hcd : c.1 = d.1 := by
          rcases Nat.lt_trichotomy c.1 d.1 with hlt | he | hlt
          · rw [Memory.get?, if_pos rfl, Memory.get?, if_neg (by omega), low d.1 n c.1 hn (by omega)] at hc1; cases hc1
          · exact he
          · rw [Memory.get?, if_neg (by omega), low c.1 m d.1 hm (by omega), Memory.get?, if_pos rfl] at hd1; cases hd1
        have hcd2 : c.2 = d.2 := by
          rw [Memory.get?, if_pos rfl, Memory.get?, if_pos hcd.symm] at hc1; exact Option.some.inj hc1
        have hc : c = d := Prod.ext hcd hcd2
        subst hc
        congr 1
        refine ih n (Memory.wf_of_risingFrom hm) (Memory.wf_of_risingFrom hn) fun a => ?_
        by_cases ha : c.1 = a
        · subst ha
          rw [low c.1 m c.1 hm le_rfl, low c.1 n c.1 hn le_rfl]
        · have := h a
          rwa [Memory.get?, if_neg ha, Memory.get?, if_neg ha] at this
  exact key m n hm hn h

end Sys2Proof.Machine
end

