-- ==== Sys2Proof/Laws/Operands.lean ====
section
/-! SUPPORT. The laws of the delay functions' arithmetic and of the addresses the block commands use. -/

namespace Sys2Proof.Machine

/-- R8's `round_half_up` as a floor of a rational. -/
theorem roundHalfUp_eq_floor (num : ℤ) {den : ℕ} (hd : 0 < den) :
    roundHalfUp num den = ⌊(num : ℚ) / den + 1 / 2⌋ := by
  have hq : (0 : ℚ) < den := by exact_mod_cast hd
  have h2 : (0 : ℤ) < 2 * den := by omega
  symm
  rw [Int.floor_eq_iff]
  have hlo := Int.mul_ediv_self_le (x := 2 * num + den) (k := 2 * (den : ℤ)) (by omega)
  have hhi := Int.lt_mul_ediv_self_add (x := 2 * num + den) h2
  unfold roundHalfUp
  generalize (2 * num + (den : ℤ)) / (2 * den) = q at *
  have hlo' : (2 : ℚ) * den * q ≤ 2 * num + den := by exact_mod_cast hlo
  have hhi' : (2 : ℚ) * num + den < 2 * den * q + 2 * den := by exact_mod_cast hhi
  have hx : (num : ℚ) / den + 1 / 2 = (2 * num + den) / (2 * den) := by field_simp
  rw [hx]
  constructor
  · rw [le_div_iff₀ (by positivity)]; linarith
  · rw [div_lt_iff₀ (by positivity)]; linarith

/-- A greater numerator rounds no lower. -/
theorem roundHalfUp_mono {a b : ℤ} {den : ℕ} (h : a ≤ b) : roundHalfUp a den ≤ roundHalfUp b den := by
  unfold roundHalfUp
  rcases Nat.eq_zero_or_pos den with rfl | hd
  · simp
  · exact Int.ediv_le_ediv (by omega) (by omega)

/-- A whole multiple is its own rounding. -/
theorem roundHalfUp_mul (a : ℤ) {den : ℕ} (hd : 0 < den) : roundHalfUp (a * den) den = a := by
  have h : (2 * (a * den) + (den : ℤ)) / (2 * den) = a := by
    have h2 : (0 : ℤ) < 2 * den := by omega
    rw [Int.ediv_eq_iff_of_pos h2]
    constructor <;> nlinarith
  exact h

/-- The indices one DL_WRITE writes are distinct, because `BS ≤ CAP`. -/
theorem DlUnit.writeIndex_ne {d : DlUnit} {j k : Nat} (hjk : j < k) (hk : k < d.bs.toNat)
    (hb : d.bs.toNat ≤ d.cap.toNat) : d.writeIndex j ≠ d.writeIndex k := by
  unfold DlUnit.writeIndex
  intro h
  have hdvd : d.cap.toNat ∣ (d.wpos.toNat + k) - (d.wpos.toNat + j) := (Nat.modEq_iff_dvd' (by omega)).1 h
  have := Nat.le_of_dvd (by omega) hdvd
  omega

theorem DlUnit.writeIndex_lt {d : DlUnit} (j : Nat) (hc : 0 < d.cap.toNat) : d.writeIndex j < d.cap.toNat :=
  Nat.mod_lt _ hc

theorem DlUnit.readIndex_lt {d : DlUnit} (eps : Word) (j : Nat) (hc : 0 < d.cap.toNat) :
    d.readIndex eps j < d.cap.toNat := Nat.mod_lt _ hc

/-- R74's capacity as a ceiling of a rational. -/
theorem capacity_eq_ceil (sr bs md : ℕ) : ((capacity sr bs md : ℕ) : ℤ) = ⌈((sr : ℚ) * md) / 1000⌉ + bs := by
  have h : ⌈((sr : ℚ) * md) / 1000⌉ = ((sr * md + 999) / 1000 : ℕ) := by
    rw [Int.ceil_eq_iff]
    have h := Nat.div_add_mod (sr * md + 999) 1000
    have h2 := Nat.mod_lt (sr * md + 999) (by norm_num : 1000 > 0)
    generalize (sr * md + 999) / 1000 = q at *
    generalize (sr * md + 999) % 1000 = r at *
    have e : ((sr : ℚ) * md) = 1000 * q + r - 999 := by
      have : ((1000 * q + r : ℕ) : ℚ) = ((sr * md + 999 : ℕ) : ℚ) := by rw [h]
      push_cast at this; linarith
    have hr : (r : ℚ) ≤ 999 := by exact_mod_cast (by omega : r ≤ 999)
    have hr0 : (0 : ℚ) ≤ r := by positivity
    rw [e]; push_cast
    constructor
    · rw [lt_div_iff₀ (by norm_num)]; linarith
    · rw [div_le_iff₀ (by norm_num)]; linarith
  unfold capacity; rw [h]; push_cast; rfl

/-- R76: no delay used is beyond `CAP - BS`. -/
theorem DlUnit.clamped_le (d : DlUnit) (q : Word) : d.clamped q ≤ d.cap.toNat - d.bs.toNat := Nat.min_le_right _ _

/-- A position reduced by the capacity fits its register. -/
theorem toNat_ofNat_mod {c : Word} (hc : 0 < c.toNat) (x : Nat) : (BitVec.ofNat 32 (x % c.toNat)).toNat = x % c.toNat := by
  rw [BitVec.toNat_ofNat]
  have := Nat.mod_lt x hc
  exact Nat.mod_eq_of_lt (by have := c.isLt; omega)

end Sys2Proof.Machine
end

