-- ==== Sys2Proof/Laws/State.lean ====
section
/-! SUPPORT. One lemma per field per named update of the state: what each update leaves and what it writes. -/

namespace Sys2Proof.Machine

section
variable (s : State) (d : DlUnit) (u : PhUnit) (h : History) (m : Memory) (k : Nat) (e : ErrCode)

@[simp] theorem State.setDl_params : (s.setDl d).params = s.params := rfl
@[simp] theorem State.setDl_dl : (s.setDl d).dl = d := rfl
@[simp] theorem State.setDl_ph : (s.setDl d).ph = s.ph := rfl
@[simp] theorem State.setDl_hist : (s.setDl d).hist = s.hist := rfl
@[simp] theorem State.setDl_io : (s.setDl d).io = s.io := rfl
@[simp] theorem State.setDl_inReset : (s.setDl d).inReset = s.inReset := rfl
@[simp] theorem State.setDl_pending : (s.setDl d).pending = s.pending := rfl
@[simp] theorem State.setDl_bus : (s.setDl d).bus = s.bus := rfl
@[simp] theorem State.setDl_freeCount : (s.setDl d).freeCount = s.freeCount := rfl

@[simp] theorem State.setPh_params : (s.setPh u).params = s.params := rfl
@[simp] theorem State.setPh_dl : (s.setPh u).dl = s.dl := rfl
@[simp] theorem State.setPh_ph : (s.setPh u).ph = u := rfl
@[simp] theorem State.setPh_hist : (s.setPh u).hist = s.hist := rfl
@[simp] theorem State.setPh_io : (s.setPh u).io = s.io := rfl
@[simp] theorem State.setPh_inReset : (s.setPh u).inReset = s.inReset := rfl
@[simp] theorem State.setPh_pending : (s.setPh u).pending = s.pending := rfl
@[simp] theorem State.setPh_bus : (s.setPh u).bus = s.bus := rfl
@[simp] theorem State.setPh_freeCount : (s.setPh u).freeCount = s.freeCount := rfl

@[simp] theorem State.setHist_params : (s.setHist h).params = s.params := rfl
@[simp] theorem State.setHist_dl : (s.setHist h).dl = s.dl := rfl
@[simp] theorem State.setHist_ph : (s.setHist h).ph = s.ph := rfl
@[simp] theorem State.setHist_hist : (s.setHist h).hist = h := rfl
@[simp] theorem State.setHist_io : (s.setHist h).io = s.io := rfl
@[simp] theorem State.setHist_inReset : (s.setHist h).inReset = s.inReset := rfl
@[simp] theorem State.setHist_pending : (s.setHist h).pending = s.pending := rfl
@[simp] theorem State.setHist_bus : (s.setHist h).bus = s.bus := rfl
@[simp] theorem State.setHist_freeCount : (s.setHist h).freeCount = s.freeCount := rfl

@[simp] theorem State.setIo_params : (s.setIo m).params = s.params := rfl
@[simp] theorem State.setIo_dl : (s.setIo m).dl = s.dl := rfl
@[simp] theorem State.setIo_ph : (s.setIo m).ph = s.ph := rfl
@[simp] theorem State.setIo_hist : (s.setIo m).hist = s.hist := rfl
@[simp] theorem State.setIo_io : (s.setIo m).io = m := rfl
@[simp] theorem State.setIo_inReset : (s.setIo m).inReset = s.inReset := rfl
@[simp] theorem State.setIo_pending : (s.setIo m).pending = s.pending := rfl
@[simp] theorem State.setIo_bus : (s.setIo m).bus = s.bus := rfl
@[simp] theorem State.setIo_freeCount : (s.setIo m).freeCount = s.freeCount := rfl

@[simp] theorem State.take_params : (s.take k).params = s.params := rfl
@[simp] theorem State.take_dl : (s.take k).dl = s.dl := rfl
@[simp] theorem State.take_ph : (s.take k).ph = s.ph := rfl
@[simp] theorem State.take_hist : (s.take k).hist = s.hist := rfl
@[simp] theorem State.take_io : (s.take k).io = s.io := rfl
@[simp] theorem State.take_inReset : (s.take k).inReset = s.inReset := rfl
@[simp] theorem State.take_pending : (s.take k).pending = s.pending := rfl
@[simp] theorem State.take_bus : (s.take k).bus = s.bus := rfl
@[simp] theorem State.take_freeCount : (s.take k).freeCount = s.freeCount + k := rfl

@[simp] theorem State.raiseDl_params : (s.raiseDl e).params = s.params := rfl
@[simp] theorem State.raiseDl_dl : (s.raiseDl e).dl = { s.dl with err := s.dl.err.record e } := rfl
@[simp] theorem State.raiseDl_ph : (s.raiseDl e).ph = s.ph := rfl
@[simp] theorem State.raiseDl_hist : (s.raiseDl e).hist = s.hist := rfl
@[simp] theorem State.raiseDl_io : (s.raiseDl e).io = s.io := rfl
@[simp] theorem State.raiseDl_inReset : (s.raiseDl e).inReset = s.inReset := rfl
@[simp] theorem State.raiseDl_pending : (s.raiseDl e).pending = s.pending := rfl
@[simp] theorem State.raiseDl_bus : (s.raiseDl e).bus = s.bus := rfl
@[simp] theorem State.raiseDl_freeCount : (s.raiseDl e).freeCount = s.freeCount := rfl

@[simp] theorem State.raisePh_params : (s.raisePh e).params = s.params := rfl
@[simp] theorem State.raisePh_dl : (s.raisePh e).dl = s.dl := rfl
@[simp] theorem State.raisePh_ph : (s.raisePh e).ph = { s.ph with err := s.ph.err.record e } := rfl
@[simp] theorem State.raisePh_hist : (s.raisePh e).hist = s.hist := rfl
@[simp] theorem State.raisePh_io : (s.raisePh e).io = s.io := rfl
@[simp] theorem State.raisePh_inReset : (s.raisePh e).inReset = s.inReset := rfl
@[simp] theorem State.raisePh_pending : (s.raisePh e).pending = s.pending := rfl
@[simp] theorem State.raisePh_bus : (s.raisePh e).bus = s.bus := rfl
@[simp] theorem State.raisePh_freeCount : (s.raisePh e).freeCount = s.freeCount := rfl

@[simp] theorem State.clearDlErr_dl : s.clearDlErr.dl = { s.dl with err := .noError } := rfl
@[simp] theorem State.clearDlErr_params : s.clearDlErr.params = s.params := rfl
@[simp] theorem State.clearDlErr_ph : s.clearDlErr.ph = s.ph := rfl
@[simp] theorem State.clearDlErr_hist : s.clearDlErr.hist = s.hist := rfl
@[simp] theorem State.clearDlErr_io : s.clearDlErr.io = s.io := rfl
@[simp] theorem State.clearDlErr_inReset : s.clearDlErr.inReset = s.inReset := rfl
@[simp] theorem State.clearDlErr_pending : s.clearDlErr.pending = s.pending := rfl
@[simp] theorem State.clearDlErr_bus : s.clearDlErr.bus = s.bus := rfl
@[simp] theorem State.clearDlErr_freeCount : s.clearDlErr.freeCount = s.freeCount := rfl

@[simp] theorem State.clearPhErr_ph : s.clearPhErr.ph = { s.ph with err := .noError } := rfl
@[simp] theorem State.clearPhErr_params : s.clearPhErr.params = s.params := rfl
@[simp] theorem State.clearPhErr_dl : s.clearPhErr.dl = s.dl := rfl
@[simp] theorem State.clearPhErr_hist : s.clearPhErr.hist = s.hist := rfl
@[simp] theorem State.clearPhErr_io : s.clearPhErr.io = s.io := rfl
@[simp] theorem State.clearPhErr_inReset : s.clearPhErr.inReset = s.inReset := rfl
@[simp] theorem State.clearPhErr_pending : s.clearPhErr.pending = s.pending := rfl
@[simp] theorem State.clearPhErr_bus : s.clearPhErr.bus = s.bus := rfl
@[simp] theorem State.clearPhErr_freeCount : s.clearPhErr.freeCount = s.freeCount := rfl

end

section
variable (d : DlUnit)

@[simp] theorem DlUnit.latch_prepared : d.latch.prepared = d.prepared := by unfold DlUnit.latch; split <;> rfl
@[simp] theorem DlUnit.latch_blockOpen : d.latch.blockOpen = true := by
  unfold DlUnit.latch; split <;> simp_all
@[simp] theorem DlUnit.latch_err : d.latch.err = d.err := by unfold DlUnit.latch; split <;> rfl
@[simp] theorem DlUnit.latch_prepSr : d.latch.prepSr = d.prepSr := by unfold DlUnit.latch; split <;> rfl
@[simp] theorem DlUnit.latch_prepBs : d.latch.prepBs = d.prepBs := by unfold DlUnit.latch; split <;> rfl
@[simp] theorem DlUnit.latch_prepMaxd : d.latch.prepMaxd = d.prepMaxd := by unfold DlUnit.latch; split <;> rfl
@[simp] theorem DlUnit.latch_delay : d.latch.delay = d.delay := by unfold DlUnit.latch; split <;> rfl
@[simp] theorem DlUnit.latch_gain : d.latch.gain = d.gain := by unfold DlUnit.latch; split <;> rfl
@[simp] theorem DlUnit.latch_sr : d.latch.sr = d.sr := by unfold DlUnit.latch; split <;> rfl
@[simp] theorem DlUnit.latch_bs : d.latch.bs = d.bs := by unfold DlUnit.latch; split <;> rfl
@[simp] theorem DlUnit.latch_cap : d.latch.cap = d.cap := by unfold DlUnit.latch; split <;> rfl
@[simp] theorem DlUnit.latch_wpos : d.latch.wpos = d.wpos := by unfold DlUnit.latch; split <;> rfl
@[simp] theorem DlUnit.latch_prevDelay : d.latch.prevDelay = d.prevDelay := by unfold DlUnit.latch; split <;> rfl
@[simp] theorem DlUnit.latch_curDelay : d.latch.curDelay = if d.blockOpen then d.curDelay else d.delay := by
  unfold DlUnit.latch; split <;> rfl
@[simp] theorem DlUnit.latch_writeIndex (j : Nat) : d.latch.writeIndex j = d.writeIndex j := by
  simp [DlUnit.writeIndex]

end

/-- R80's latch as one update. -/
theorem DlUnit.latch_eq (d : DlUnit) :
    d.latch = { d with curDelay := if d.blockOpen then d.curDelay else d.delay, blockOpen := true } := by
  unfold DlUnit.latch
  cases h : d.blockOpen
  · simp
  · cases d; simp_all

/-- Latching twice is latching once. -/
theorem DlUnit.latch_latch (d : DlUnit) : d.latch.latch = d.latch := by
  rw [DlUnit.latch_eq, DlUnit.latch_eq]; simp

section Halves

theorem hi_toNat (x : DWord) : (hi x).toNat = x.toNat / 2 ^ 32 := by
  simp [hi, BitVec.extractLsb'_toNat, Nat.shiftRight_eq_div_pow]
  have := x.isLt
  omega

theorem lo_toNat (x : DWord) : (lo x).toNat = x.toNat % 2 ^ 32 := by simp [lo]

theorem append_toNat (a b : Word) : (a ++ b : DWord).toNat = a.toNat * 2 ^ 32 + b.toNat := by
  rw [BitVec.toNat_append, ← Nat.shiftLeft_add_eq_or_of_lt b.isLt, Nat.shiftLeft_eq]

/-- R49: the high half of two halves. -/
@[simp] theorem hi_append (a b : Word) : hi (a ++ b) = a := by
  apply BitVec.eq_of_toNat_eq
  rw [hi_toNat, append_toNat]
  have := b.isLt
  omega

/-- R49: the low half of two halves. -/
@[simp] theorem lo_append (a b : Word) : lo (a ++ b) = b := by
  apply BitVec.eq_of_toNat_eq
  rw [lo_toNat, append_toNat]
  have := b.isLt
  omega

end Halves

end Sys2Proof.Machine
end

