-- ==== Sys2Proof/Laws/Ops.lean ====
section
/-! SUPPORT. One law per shared operation: everything the checks and the loops of the block commands can do, and everything the
service of one bus event can do. -/

namespace Sys2Proof.Machine

/-- The checks of R82 and R83 pass exactly on a prepared unit, a channel of the machine and the block's length. -/
theorem blockCheck_eq_none {s : State} {ch len : Nat} :
    blockCheck s ch len = none ↔ s.dl.prepared = true ∧ ch < s.params.numCh ∧ len = s.dl.bs.toNat := by
  unfold blockCheck
  by_cases h1 : s.dl.prepared = true
  · by_cases h2 : s.params.numCh ≤ ch
    · simp [h1, h2]
    · by_cases h3 : len = s.dl.bs.toNat
      · simp [h1, h2, h3]; omega
      · simp [h1, h2, h3]
  · simp [h1]

/-- An element address is in the element's own channel: two I/O elements do not overlap. -/
theorem ioAddr_apart (p : Config.Params) (ch : Nat) {j k : Nat} (h : j ≠ k) :
    ioAddr p ch j + 4 ≤ ioAddr p ch k ∨ ioAddr p ch k + 4 ≤ ioAddr p ch j := by
  unfold ioAddr; omega

/-- R82's loop, when every I/O element has been written: it completes; element `j` holds its gained sample; no byte outside the
elements written changes. -/
theorem writeBlock_spec {s : State} {ch : Nat} (hb : s.dl.bs.toNat ≤ s.dl.cap.toNat)
    (hr : ∀ j, j < s.dl.bs.toNat → (s.io.word? (ioAddr s.params ch j)).isSome = true) :
    ∃ h, writeBlock s ch = some h ∧
      (∀ j x, j < s.dl.bs.toNat → s.io.word? (ioAddr s.params ch j) = some x →
        h.elem s.params ch (s.dl.writeIndex j) = gained (s.freeCount + j) s.dl.gain x) ∧
      ∀ a, (∀ j, j < s.dl.bs.toNat → ¬(histAddr s.params ch (s.dl.writeIndex j) ≤ a ∧
          a < histAddr s.params ch (s.dl.writeIndex j) + 4)) → h.byte s.params a = s.hist.byte s.params a := by
  refine forUpTo_induct (fun k (h : History) =>
      (∀ j x, j < k → s.io.word? (ioAddr s.params ch j) = some x →
        h.elem s.params ch (s.dl.writeIndex j) = gained (s.freeCount + j) s.dl.gain x) ∧
      ∀ a, (∀ j, j < k → ¬(histAddr s.params ch (s.dl.writeIndex j) ≤ a ∧
          a < histAddr s.params ch (s.dl.writeIndex j) + 4)) → h.byte s.params a = s.hist.byte s.params a)
    ⟨fun _ _ h => absurd h (Nat.not_lt_zero _), fun _ _ => rfl⟩ ?_
  rintro k h hk ⟨he, hf⟩
  obtain ⟨x, hx⟩ := Option.isSome_iff_exists.1 (hr k hk)
  refine ⟨_, by rw [hx], fun j y hj hy => ?_, fun a ha => ?_⟩
  · by_cases hjk : j = k
    · subst hjk
      rw [hx] at hy; cases hy
      exact History.elem_setElem_same _ _ _ _ _
    · rw [History.elem_setElem_other]
      · exact he j y (by omega) hy
      · have := DlUnit.writeIndex_ne (d := s.dl) (j := j) (k := k) (by omega) hk hb
        omega
  · unfold History.setElem
    rw [History.byte_setWord, if_neg (ha k (by omega))]
    exact hf a fun j hj => ha j (by omega)

/-- R82's loop changes neither how much of the history is cleared nor which free content the rest has. -/
theorem writeBlock_keeps {s : State} {ch : Nat} {h : History} (hw : writeBlock s ch = some h) :
    h.init = s.hist.init ∧ h.seed = s.hist.seed := by
  refine forUpTo_keeps (fun h : History => h.init = s.hist.init ∧ h.seed = s.hist.seed) ⟨rfl, rfl⟩ ?_ hw
  intro k b c _ hP hc
  split at hc
  · cases hc; simpa using hP
  · cases hc

/-- R83's loop, when every I/O element has been written: it completes; element `j` gets the history element at `idx(j)` added;
no byte outside the block changes. -/
theorem mixBlock_spec {s : State} {ch : Nat}
    (hr : ∀ j, j < s.dl.bs.toNat → (s.io.word? (ioAddr s.params ch j)).isSome = true) :
    ∃ m, mixBlock s ch = some m ∧
      (∀ j x, j < s.dl.bs.toNat → s.io.word? (ioAddr s.params ch j) = some x →
        m.word? (ioAddr s.params ch j) =
          some (add32 (s.freeCount + j) x (s.hist.elem s.params ch (s.dl.readIndex s.params.epsQ j)))) ∧
      ∀ a, (∀ j, j < s.dl.bs.toNat → ¬(ioAddr s.params ch j ≤ a ∧ a < ioAddr s.params ch j + 4)) →
        m.get? a = s.io.get? a := by
  obtain ⟨m, hm, h1, _, h3⟩ := forUpTo_induct (n := s.dl.bs.toNat) (a := s.io)
    (f := fun j (m : Memory) =>
      match m.word? (ioAddr s.params ch j) with
      | some x =>
        some (m.setWord (ioAddr s.params ch j)
          (add32 (s.freeCount + j) x (s.hist.elem s.params ch (s.dl.readIndex s.params.epsQ j))))
      | none => none)
    (fun k (m : Memory) =>
      (∀ j x, j < k → s.io.word? (ioAddr s.params ch j) = some x →
        m.word? (ioAddr s.params ch j) =
          some (add32 (s.freeCount + j) x (s.hist.elem s.params ch (s.dl.readIndex s.params.epsQ j)))) ∧
      (∀ j, k ≤ j → m.word? (ioAddr s.params ch j) = s.io.word? (ioAddr s.params ch j)) ∧
      ∀ a, (∀ j, j < k → ¬(ioAddr s.params ch j ≤ a ∧ a < ioAddr s.params ch j + 4)) → m.get? a = s.io.get? a)
    ⟨fun _ _ h => absurd h (Nat.not_lt_zero _), fun _ _ => rfl, fun _ _ => rfl⟩ (by
      rintro k m hk ⟨he, hu, hf⟩
      obtain ⟨x, hx⟩ := Option.isSome_iff_exists.1 (hr k hk)
      have hmx : m.word? (ioAddr s.params ch k) = some x := by rw [hu k le_rfl, hx]
      refine ⟨_, by rw [hmx], fun j y hj hy => ?_, fun j hj => ?_, fun a ha => ?_⟩
      · by_cases hjk : j = k
        · subst hjk
          rw [hx] at hy; cases hy
          exact Memory.word?_setWord_same _ _ _
        · rw [Memory.word?_setWord_other _ _ _ _ (ioAddr_apart _ _ hjk)]
          exact he j y (by omega) hy
      · rw [Memory.word?_setWord_other _ _ _ _ (ioAddr_apart _ _ (by omega))]
        exact hu j (by omega)
      · rw [Memory.get?_setWord, if_neg (ha k (by omega))]
        exact hf a fun j hj => ha j (by omega))
  exact ⟨m, hm, h1, h3⟩

/-- R82's loop has no value when an I/O element of the block is unwritten (R127). -/
theorem writeBlock_none {s : State} {ch j : Nat} (hj : j < s.dl.bs.toNat)
    (hu : s.io.word? (ioAddr s.params ch j) = none) : writeBlock s ch = none := by
  refine forUpTo_none (fun _ => True) trivial (fun _ _ _ _ _ _ => trivial) hj ?_
  intro b _
  rw [hu]

/-- R83's loop has no value when an I/O element of the block is unwritten (R127). -/
theorem mixBlock_none {s : State} {ch j : Nat} (hj : j < s.dl.bs.toNat)
    (hu : s.io.word? (ioAddr s.params ch j) = none) : mixBlock s ch = none := by
  refine forUpTo_none (fun m => m.word? (ioAddr s.params ch j) = none) hu (fun k b c _ hb hc => ?_) hj ?_
  · split at hc
    · rename_i x hx
      cases hc
      have hkj : j ≠ k := by rintro rfl; rw [hx] at hb; cases hb
      rw [Memory.word?_setWord_other _ _ _ _ (ioAddr_apart _ _ hkj)]
      exact hb
    · cases hc
  · intro b hb
    rw [hb]

/-- R82's loop over elements, from its completion: what it read was written; what each element of the history holds. -/
theorem writeBlock_elems {s : State} {ch : Nat} {h : History} (hb : s.dl.bs.toNat ≤ s.dl.cap.toNat)
    (hc : 0 < s.dl.cap.toNat) (hd : s.dl.cap.toNat ≤ s.params.histDepth) (hw : writeBlock s ch = some h) :
    (∀ j, j < s.dl.bs.toNat → (s.io.word? (ioAddr s.params ch j)).isSome = true) ∧
    (∀ j x, j < s.dl.bs.toNat → s.io.word? (ioAddr s.params ch j) = some x →
      h.elem s.params ch (s.dl.writeIndex j) = gained (s.freeCount + j) s.dl.gain x) ∧
    ∀ c i, i < s.params.histDepth → (c ≠ ch ∨ ∀ j, j < s.dl.bs.toNat → i ≠ s.dl.writeIndex j) →
      h.elem s.params c i = s.hist.elem s.params c i := by
  have hr : ∀ j, j < s.dl.bs.toNat → (s.io.word? (ioAddr s.params ch j)).isSome = true := by
    intro j hj
    rw [Option.isSome_iff_ne_none]
    intro hn
    rw [writeBlock_none hj hn] at hw
    cases hw
  obtain ⟨h', hw', h1, h2⟩ := writeBlock_spec hb hr
  rw [hw] at hw'
  cases hw'
  refine ⟨hr, h1, fun c i hi hne => History.elem_congr _ fun k hk => h2 _ fun j hj => ?_⟩
  have := histAddr_separate s.params (c := c) (c' := ch) (i' := s.dl.writeIndex j) hi
    (lt_of_lt_of_le (DlUnit.writeIndex_lt j hc) hd) (hne.imp id (fun hh => hh j hj))
  omega

/-- R83's loop over elements, from its completion: what it read was written; what each element of the buffers holds. -/
theorem mixBlock_elems {s : State} {ch : Nat} {m : Memory} (hb : s.dl.bs.toNat ≤ s.params.maxBlock)
    (hw : mixBlock s ch = some m) :
    (∀ j, j < s.dl.bs.toNat → (s.io.word? (ioAddr s.params ch j)).isSome = true) ∧
    (∀ j x, j < s.dl.bs.toNat → s.io.word? (ioAddr s.params ch j) = some x →
      m.word? (ioAddr s.params ch j) =
        some (add32 (s.freeCount + j) x (s.hist.elem s.params ch (s.dl.readIndex s.params.epsQ j)))) ∧
    ∀ c j, j < s.params.maxBlock → (c ≠ ch ∨ s.dl.bs.toNat ≤ j) →
      m.word? (ioAddr s.params c j) = s.io.word? (ioAddr s.params c j) := by
  have hr : ∀ j, j < s.dl.bs.toNat → (s.io.word? (ioAddr s.params ch j)).isSome = true := by
    intro j hj
    rw [Option.isSome_iff_ne_none]
    intro hn
    rw [mixBlock_none hj hn] at hw
    cases hw
  obtain ⟨m', hm', h1, h2⟩ := mixBlock_spec hr
  rw [hw] at hm'
  cases hm'
  refine ⟨hr, h1, fun c i hi hne => Memory.word?_congr fun k hk => h2 _ fun j hj => ?_⟩
  have := ioAddr_separate s.params (c := c) (c' := ch) (j' := j) hi (by omega) (hne.imp id (fun hh => by omega))
  omega

/-- No register row of the map lies in the I/O window's address range. -/
theorem regAt_eq_none {a : Nat} (h : Config.ioBase ≤ a) : regAt a = none := by
  have hb : Config.ioBase = 65536 := rfl
  unfold regAt
  rw [List.lookup_eq_none_iff]
  intro p hp
  rw [bne_iff_ne]
  have hall : ∀ p ∈ addressMap, p.1 < 65536 := by decide
  have := hall p hp
  omega

/-- R63: servicing a write to a command register is its `command`. -/
theorem service_cmd {s : State} (r : CmdReg) (w : Word) (hr : s.inReset = false) :
    service (.st32 (cmdAddr r) w) s = command r w { s with bus := .written } := by
  cases r <;> simp [service, hr, cmdAddr, accessDefined, busStore, regAt, addressMap, List.lookup]

/-- Everything the service of one bus event can do when it answers a next state: move the reset input or answer without an
effect; the reset event; a register write; an I/O write; an illegal word; a command. Each case names its event. -/
theorem service_cases {e : BusEvent} {s t : State} (h : service e s = .next t) :
    (∃ b r, t = { s with inReset := b, bus := r }) ∨
    (e = .releaseReset ∧ t = s.resetEvent) ∨
    (∃ a w r, e = .store a .w32 w ∧ (a.toNat, r) ∈ addressMap ∧
      t = writeReg { s with bus := .written } (w.setWidth 32) r) ∨
    (∃ a w, e = .store a .w32 w ∧ a.toNat % 4 = 0 ∧ inIoWindow s.params a.toNat = true ∧
      t = State.setIo { s with bus := .written } (s.io.setWord a.toNat (w.setWidth 32))) ∨
    (∃ r w x, e = .store (cmdAddr r) .w32 w ∧ decode r (w.setWidth 32) = .error x ∧
      t = State.raiseIllegal { s with bus := .written } r) ∨
    ∃ r w i, e = .store (cmdAddr r) .w32 w ∧ decode r (w.setWidth 32) = .ok i ∧
      exec i { s with bus := .written } = .next t := by
  cases e with
  | assertReset => cases h; exact .inl ⟨true, s.bus, rfl⟩
  | releaseReset =>
    simp only [service] at h
    split at h
    · cases h; exact .inr (.inl ⟨rfl, rfl⟩)
    · cases h; exact .inl ⟨s.inReset, s.bus, rfl⟩
  | load a width =>
    simp only [service] at h
    split at h
    · cases h; exact .inl ⟨s.inReset, _, rfl⟩
    · split at h
      · unfold busLoad at h
        split at h
        · cases h; exact .inl ⟨s.inReset, _, rfl⟩
        · split at h
          · split at h
            · cases h; exact .inl ⟨s.inReset, _, rfl⟩
            · cases h
          · cases h; exact .inl ⟨s.inReset, _, rfl⟩
      · cases h
  | store a width data =>
    simp only [service] at h
    split at h
    · cases h; exact .inl ⟨s.inReset, _, rfl⟩
    · split at h
      · rename_i hdef
        simp only [accessDefined, Bool.and_eq_true, decide_eq_true_eq] at hdef
        obtain ⟨rfl, h4⟩ := hdef
        have hcmd : ∀ r, a.toNat = (cmdAddr r).toNat →
            command r (data.setWidth 32) { s with bus := .written } = .next t →
            (∃ r w x, BusEvent.store a .w32 data = .store (cmdAddr r) .w32 w ∧ decode r (w.setWidth 32) = .error x ∧
              t = State.raiseIllegal { s with bus := .written } r) ∨
            ∃ r w i, BusEvent.store a .w32 data = .store (cmdAddr r) .w32 w ∧ decode r (w.setWidth 32) = .ok i ∧
              exec i { s with bus := .written } = .next t := by
          intro r ha hc
          have : a = cmdAddr r := BitVec.eq_of_toNat_eq ha
          subst this
          unfold command at hc
          split at hc
          · rename_i i hi; exact .inr ⟨r, data, i, rfl, hi, hc⟩
          · rename_i x hx; cases hc; exact .inl ⟨r, data, x, rfl, hx, rfl⟩
        have haddr : ∀ {n : Nat} {r : Reg}, regAt n = some r → (n, r) ∈ addressMap := by
          intro n r hr
          obtain ⟨_, hmem, rfl, rfl⟩ : ∃ q : Nat × Reg, q ∈ addressMap ∧ q.1 = n ∧ q.2 = r := by
            unfold regAt at hr
            rw [List.lookup_eq_some_iff] at hr
            obtain ⟨l1, l2, hl, _⟩ := hr
            exact ⟨(n, r), by rw [hl]; simp, rfl, rfl⟩
          exact hmem
        unfold busStore at h
        split at h
        · rename_i hr
          have : a.toNat = 0x000 := by
            have := haddr hr
            simpa [addressMap] using this
          exact .inr (.inr (.inr (.inr (hcmd .dlCmd (by rw [this]; rfl) h))))
        · rename_i hr
          have : a.toNat = 0x100 := by
            have := haddr hr
            simpa [addressMap] using this
          exact .inr (.inr (.inr (.inr (hcmd .phCmd (by rw [this]; rfl) h))))
        · rename_i r _ _ hr; cases h; exact .inr (.inr (.inl ⟨a, data, r, rfl, haddr hr, rfl⟩))
        · split at h
          · rename_i hw; cases h; exact .inr (.inr (.inr (.inl ⟨a, data, rfl, h4, hw, rfl⟩)))
          · cases h; exact .inl ⟨s.inReset, _, rfl⟩
      · cases h

/-- One step: nothing pending and nothing changed, or the service of the head of the bus order. -/
theorem step_cases {s t : State} (h : step s = .next t) :
    (s.pending = [] ∧ t = s) ∨
      ∃ e rest, s.pending = e :: rest ∧ service e { s with pending := rest } = .next t := by
  unfold step at h
  split at h
  · rename_i hp; cases h; exact .inl ⟨hp, rfl⟩
  · rename_i e rest hp; exact .inr ⟨e, rest, hp, h⟩

/-- What no command changes: the parameters, the reset input, the bus order still to come and the response. -/
theorem exec_keeps_interface {i : Instr} {s t : State} (h : exec i s = .next t) :
    t.params = s.params ∧ t.inReset = s.inReset ∧ t.pending = s.pending ∧ t.bus = s.bus := by
  cases i with
  | dlPrepare =>
    simp only [exec, execDlPrepare] at h
    repeat' split at h
    all_goals cases h; exact ⟨rfl, rfl, rfl, rfl⟩
  | dlWrite ch len =>
    simp only [exec, execDlWrite] at h
    repeat' split at h
    all_goals cases h
    all_goals exact ⟨rfl, rfl, rfl, rfl⟩
  | dlReadmix ch len =>
    simp only [exec, execDlReadmix] at h
    repeat' split at h
    all_goals cases h
    all_goals exact ⟨rfl, rfl, rfl, rfl⟩
  | dlAdvance =>
    simp only [exec, execDlAdvance] at h
    split at h
    all_goals cases h; exact ⟨rfl, rfl, rfl, rfl⟩
  | dlRelease => cases h; exact ⟨rfl, rfl, rfl, rfl⟩
  | dlClrerr => cases h; exact ⟨rfl, rfl, rfl, rfl⟩
  | phSetrate =>
    simp only [exec, execPhSetrate] at h
    repeat' split at h
    all_goals cases h; exact ⟨rfl, rfl, rfl, rfl⟩
  | phSetfreq =>
    simp only [exec, execPhSetfreq] at h
    repeat' split at h
    all_goals cases h; exact ⟨rfl, rfl, rfl, rfl⟩
  | phSetphase =>
    simp only [exec, execPhSetphase] at h
    split at h
    all_goals cases h; exact ⟨rfl, rfl, rfl, rfl⟩
  | phReset => cases h; exact ⟨rfl, rfl, rfl, rfl⟩
  | phNext => cases h; exact ⟨rfl, rfl, rfl, rfl⟩
  | phClrerr => cases h; exact ⟨rfl, rfl, rfl, rfl⟩

end Sys2Proof.Machine
end

