-- ==== Sys2Proof/Laws/PerInstr.lean ====
section
/-! SUPPORT. The family `MatchesRow` of LAWS.json: the word of every command, at every operand, matches its own row of
spec/30_encoding.md R67 or R68 (`word & mask = match`). -/

namespace Sys2Proof.Laws.MatchesRow

/-- The command's word matches its row. -/
def Statement (i : Instr) : Prop := encode i &&& i.mask = i.pattern

/-- The low byte of a word laid out from fields is its opcode. -/
theorem fields_opcode (len ch : Nat) {op : Nat} (h : op < 256) :
    fields len ch op &&& 0x000000FF = BitVec.ofNat 32 op := by
  apply BitVec.eq_of_toNat_eq
  rw [BitVec.toNat_and, toNat_fields]
  show _ &&& (2 ^ 8 - 1) = op % 2 ^ 32
  rw [Nat.and_two_pow_sub_one_eq_mod]
  omega

theorem dlPrepare : Statement .dlPrepare := by unfold Statement; decide
theorem dlWrite (ch len : Nat) : Statement (.dlWrite ch len) := fields_opcode len ch (by decide)
theorem dlReadmix (ch len : Nat) : Statement (.dlReadmix ch len) := fields_opcode len ch (by decide)
theorem dlAdvance : Statement .dlAdvance := by unfold Statement; decide
theorem dlRelease : Statement .dlRelease := by unfold Statement; decide
theorem dlClrerr : Statement .dlClrerr := by unfold Statement; decide
theorem phSetrate : Statement .phSetrate := by unfold Statement; decide
theorem phSetfreq : Statement .phSetfreq := by unfold Statement; decide
theorem phSetphase : Statement .phSetphase := by unfold Statement; decide
theorem phReset : Statement .phReset := by unfold Statement; decide
theorem phNext : Statement .phNext := by unfold Statement; decide
theorem phClrerr : Statement .phClrerr := by unfold Statement; decide

end Sys2Proof.Laws.MatchesRow
end

