-- ==== Sys2Proof/Tests/Slice0.lean ====
section
/-! SUPPORT. The model's own tests: the refusals of WellFormed, words written out from the tables of spec/30_encoding.md,
single steps with the results spec/95_test_vectors.md gives, and for every obligation a concrete input that meets its
hypotheses, at the boundary of each clause. -/

namespace Sys2Proof.Tests
open Sys2Proof.Machine

set_option Elab.async false

/-- The next state of an outcome, if there is one. -/
def got : Host.Outcome State Fault Refusal → Option State
  | .next s => some s
  | .fault _ => none
  | .refused _ => none

/-- The fault of an outcome, if it is one. -/
def stopped : Host.Outcome State Fault Refusal → Option Fault
  | .next _ => none
  | .fault f => some f
  | .refused _ => none

theorem next_of_got {o : Host.Outcome State Fault Refusal} (h : (got o).isSome = true) : ∃ t, o = .next t := by
  cases o with
  | next s => exact ⟨s, rfl⟩
  | fault r => cases h
  | refused r => cases h

/-! ### WellFormed refuses -/

theorem test_wf_channel_too_large : (Instr.dlWrite 256 4).wf = false := by decide
theorem test_wf_length_too_large : (Instr.dlWrite 0 65536).wf = false := by decide
theorem test_wf_readmix_channel_too_large : (Instr.dlReadmix 256 4).wf = false := by decide
theorem test_wf_readmix_length_too_large : (Instr.dlReadmix 0 65536).wf = false := by decide
theorem test_wf_misaligned_load : (BusEvent.load 0x002 .w32).wf = false := by decide
theorem test_wf_narrow_load : (BusEvent.load 0x004 .w8).wf = false := by decide
theorem test_wf_misaligned_store : (BusEvent.store 0x001 .w32 0).wf = false := by decide
theorem test_wf_wide_store : (BusEvent.store 0x008 .w64 0).wf = false := by decide

/-! ### Words of the tables R67 and R68, written bit by bit as `len ch op` (R64, R65) -/

theorem test_decode_prepare : decode .dlCmd 0b0000000000000000_00000000_00000001 = .ok .dlPrepare := by decide
theorem test_decode_write : decode .dlCmd 0b0000001000000000_00000001_00000010 = .ok (.dlWrite 1 512) := by decide
theorem test_decode_readmix : decode .dlCmd 0b0000000011111111_11111111_00000011 = .ok (.dlReadmix 255 255) := by decide
theorem test_decode_advance : decode .dlCmd 0b0000000000000000_00000000_00000100 = .ok .dlAdvance := by decide
theorem test_decode_release : decode .dlCmd 0b0000000000000000_00000000_00000101 = .ok .dlRelease := by decide
theorem test_decode_dl_clrerr : decode .dlCmd 0b0000000000000000_00000000_00000110 = .ok .dlClrerr := by decide
theorem test_decode_setrate : decode .phCmd 0b0000000000000000_00000000_00010001 = .ok .phSetrate := by decide
theorem test_decode_setfreq : decode .phCmd 0b0000000000000000_00000000_00010010 = .ok .phSetfreq := by decide
theorem test_decode_setphase : decode .phCmd 0b0000000000000000_00000000_00010011 = .ok .phSetphase := by decide
theorem test_decode_reset : decode .phCmd 0b0000000000000000_00000000_00010100 = .ok .phReset := by decide
theorem test_decode_next : decode .phCmd 0b0000000000000000_00000000_00010101 = .ok .phNext := by decide
theorem test_decode_ph_clrerr : decode .phCmd 0b0000000000000000_00000000_00010110 = .ok .phClrerr := by decide

/-- 95 2.1, the illegal words. -/
theorem test_decode_illegal :
    decode .dlCmd 0x00000104 = .error .nonzeroField ∧ decode .dlCmd 0x00000000 = .error .reservedOpcode ∧
    decode .dlCmd 0x00000007 = .error .reservedOpcode ∧ decode .dlCmd 0x00000015 = .error .otherUnitsOpcode ∧
    decode .phCmd 0x00000115 = .error .nonzeroField ∧ decode .phCmd 0x00000002 = .error .otherUnitsOpcode ∧
    decode .phCmd 0x00000017 = .error .reservedOpcode := by decide

theorem test_table_word_of_each_register :
    decodeTableWord 32 0x02000102 = some (.dlWrite 1 512) ∧ decodeTableWord 32 0x15 = some .phNext ∧
    decodeTableWord 32 0x07 = none := by decide

/-- 95 PH-1, through the fetch interface: the first PH_NEXT after reset. -/
theorem test_fetched_word_runs_next :
    (got (step (State.reset.withFetchWord 32 0x15))).map (fun t => (t.ph.out, t.ph.phase, t.pending)) =
      some (0, 0x3F22ACB24B91E1EE, []) := by decide +kernel

/-- 95 2.8: DL_ADVANCE in the reset state is NotPrepared and nothing else. -/
theorem test_fetched_word_runs_advance :
    (got (step (State.reset.withFetchWord 32 0x04))).map (fun t => (t.dl.status, t.dl.wpos)) = some (0x10, 0) := by
  decide +kernel

/-! ### A small machine: two channels, blocks up to 4, histories of 16 -/

def small : Config.Params := { numCh := 2, maxBlock := 4, histDepth := 16, epsQ := 0 }

/-- Four words listed from an address on. -/
def words (m : Memory) (a : Nat) (w0 w1 w2 w3 : Word) : Memory :=
  (((m.setWord a w0).setWord (a + 4) w1).setWord (a + 8) w2).setWord (a + 12) w3

/-- SR 1000, BS 4, MAXD 8 prepared (95 2.7), with gain 1.0, a delay of 2 samples, `IO[0]` = 1, 2, 3, 4 and `IO[1]` = 0. -/
def bench : State :=
  { State.resetWith small with
    dl := { DlUnit.reset with
      prepared := true, prepSr := 1000, prepBs := 4, prepMaxd := 8, delay := 0x00020000, gain := 0x3F800000, sr := 1000,
      bs := 4, cap := 12, curDelay := 0x00020000, prevDelay := 0x00020000 },
    hist := { cells := [], init := 12, seed := 0 },
    io := words (words [] 0x10000 0x3F800000 0x40000000 0x40400000 0x40800000) 0x10010 0 0 0 0 }

/-- `bench` with another DL unit. -/
def benchWith (f : DlUnit → DlUnit) : State := { bench with dl := f bench.dl }

/-- The words of `IO[ch][0..3]`. -/
def outputs (s : State) (ch : Nat) : List (Option Word) := (List.range 4).map fun j => s.io.word? (ioAddr s.params ch j)

/-! ### Single commands -/

/-- 95 2.2, row 4: ceil(44.1) = 45. -/
theorem test_prepare_rounds_capacity_up :
    (got (exec .dlPrepare { State.reset with dl := { DlUnit.reset with prepSr := 44100, prepBs := 64, prepMaxd := 1 } })).map
      (fun t => (t.dl.cap, t.dl.status)) = some (109, 0x01) := by decide +kernel

/-- 95 2.2, last row: a failed PREPARE keeps the old preparation. -/
theorem test_prepare_failing_keeps_the_old :
    (got (exec .dlPrepare (benchWith fun d => { d with prepSr := 0 }))).map (fun t => (t.dl.cap, t.dl.status)) =
      some (12, 0x41) := by decide +kernel

/-- 95 2.5 with R82's split: written at `WPOS` 10, two samples go to 10 and 11 and two to 0 and 1. -/
theorem test_write_splits_at_the_end :
    (got (exec (.dlWrite 0 4) (benchWith fun d => { d with wpos := 10 }))).map
      (fun t => [10, 11, 0, 1, 2].map (t.hist.elem small 0)) =
      some [0x3F800000, 0x40000000, 0x40400000, 0x40800000, 0] := by decide +kernel

/-- 95 2.10: BadChannel comes before InvalidBlockSize. -/
theorem test_write_bad_channel_first :
    (got (exec (.dlWrite 2 7) bench)).map (fun t => (t.dl.status, t.dl.blockOpen)) = some (0x61, false) := by
  decide +kernel

/-- `bench` once channel 0's DL_WRITE has opened the block: `H[0][0..3]` = 1, 2, 3, 4. -/
def benchWritten (q : Word) : State :=
  { benchWith (fun d => { d with blockOpen := true, curDelay := q, delay := 0x00050000 }) with
    hist := (((bench.hist.setElem small 0 0 0x3F800000).setElem small 0 1 0x40000000).setElem small 0 2 0x40400000).setElem
      small 0 3 0x40800000 }

/-- 95 2.7, row 1: the delay the write latched is used, whatever the mailbox holds since. -/
theorem test_readmix_after_write :
    (got (exec (.dlReadmix 0 4) (benchWritten 0x00020000))).map (fun t => outputs t 0) =
      some [some 0x3F800000, some 0x40000000, some 0x40800000, some 0x40C00000] := by decide +kernel

/-- 95 2.7, row 2: a changed delay smooths from the previous block's, and reads only cleared elements. -/
theorem test_readmix_smooths :
    (got (exec (.dlReadmix 0 4) (benchWritten 0x00050000))).map (fun t => (outputs t 0, t.dl.curDelay)) =
      some ([some 0x3F800000, some 0x40000000, some 0x40400000, some 0x40800000], 0x00050000) := by decide +kernel

/-- 95 2.8, row 1. -/
theorem test_advance_wraps :
    (got (exec .dlAdvance (benchWith fun d =>
      { d with cap := 1000, bs := 300, wpos := 900, curDelay := 0x50000, blockOpen := true }))).map
      (fun t => (t.dl.wpos, t.dl.prevDelay, t.dl.blockOpen)) = some (200, 0x50000, false) := by decide +kernel

/-- 95 2.8, row 4. -/
theorem test_release_clears :
    (got (exec .dlRelease bench)).map (fun t => (t.dl.status, t.dl.cap, t.dl.curDelay, t.dl.gain, t.dl.prepBs)) =
      some (0, 0, 0, 0x3F800000, 4) := by decide +kernel

/-- 95 2.8, row 6. -/
theorem test_dl_clrerr :
    (got (exec .dlClrerr (benchWith fun d => { d with err := .notPrepared }))).map (·.dl.status) = some 0x01 := by
  decide +kernel

/-- 95 PH-2. -/
theorem test_setrate :
    (got (exec .phSetrate { State.reset with ph := { PhUnit.reset with arg := 0x4010000000000000 } })).map
      (fun t => (t.ph.rate, t.ph.inc)) = some (0x4010000000000000, 0x3FF921FB54442D18) := by decide +kernel

/-- R105: a negative rate is refused. -/
theorem test_setrate_refuses_negative :
    (got (exec .phSetrate { State.reset with ph := { PhUnit.reset with arg := 0xC010000000000000 } })).map
      (fun t => (t.ph.rate, t.ph.status)) = some (0x40E5888000000000, 0x40) := by decide +kernel

/-- 95 PH-3. -/
theorem test_setfreq_negative :
    (got (exec .phSetfreq { State.reset with
      ph := { PhUnit.reset with rate := 0x4010000000000000, arg := 0xBFF0000000000000 } })).map (·.ph.inc) =
      some 0xBFF921FB54442D18 := by decide +kernel

/-- 95 PH-8. -/
theorem test_setphase_above :
    (got (exec .phSetphase { State.reset with ph := { PhUnit.reset with arg := 0x4059000000000000 } })).map (·.ph.phase) =
      some 0x4017024610015B98 := by decide +kernel

/-- 95 PH-9. -/
theorem test_setphase_below :
    (got (exec .phSetphase { State.reset with ph := { PhUnit.reset with arg := 0xC059000000000000 } })).map (·.ph.phase) =
      some 0x3FE0FDAA22168C00 := by decide +kernel

/-- R108. -/
theorem test_ph_reset :
    (got (exec .phReset { State.reset with ph := { PhUnit.reset with phase := 0x3FF0000000000000 } })).map (·.ph.phase) =
      some 0 := by decide +kernel

/-- R112: the largest phase gives the largest output. -/
theorem test_next_largest_output :
    (got (exec .phNext { State.reset with ph := { PhUnit.reset with phase := 0x401921FB54442D17 } })).map (·.ph.out) =
      some 0x3FFFFFFFFFFFFFFF := by decide +kernel

/-- R109's example. -/
theorem test_next_quarter :
    (got (exec .phNext { State.reset with
      ph := { PhUnit.reset with phase := 0x3FF921FB54442D18, inc := 0x3FF921FB54442D18 } })).map
      (fun t => (t.ph.out, t.ph.phase)) = some (0x3FE0000000000000, 0x400921FB54442D18) := by decide +kernel

/-- R110's example. -/
theorem test_ph_clrerr :
    (got (exec .phClrerr { State.reset with ph := { PhUnit.reset with err := .badArgument } })).map (·.ph.status) = some 0 := by
  decide +kernel

/-! ### Values: 95 2.3 to 2.6 -/

theorem test_gain_products :
    gained 0 0x3F4CCCCD 0x3F000000 = 0x3ECCCCCD ∧ gained 0 0x3F4CCCCD 0x3F4CCCCD = 0x3F23D70B ∧
    gained 0 0x3F000000 0x00000001 = 0 ∧ gained 0 0x3F000000 0x00000003 = 0x00000002 ∧
    gained 0 0x00000000 0xBF800000 = 0x80000000 := by decide +kernel

theorem test_sums :
    add32 0 0x3F800000 0x3F4CCCCD = 0x3FE66666 ∧ add32 0 0x7F7FFFFF 0x7F7FFFFF = 0x7F800000 ∧
    add32 0 0x80000000 0 = 0 ∧ add32 0 0x80000000 0x80000000 = 0x80000000 := by decide +kernel

theorem test_samples :
    (benchWith fun d => { d with sr := 44100 }).dl.samples 0xFFFFFFFF = 2890138 ∧ bench.dl.samples 0x00028000 = 3 ∧
    bench.dl.samples 0x00027FFF = 2 ∧ bench.dl.clamped 0x00090000 = 8 := by decide +kernel

/-- 95 2.4, rows 2 and 5. -/
theorem test_smoothing_downwards :
    (List.range 4).map ((benchWith fun d => { d with prevDelay := 0x50000 }).dl.delayOf 0) = [5, 4, 4, 3] ∧
    (List.range 4).map ((benchWith fun d => { d with prevDelay := 0x10000, curDelay := 0 }).dl.delayOf 0) = [1, 1, 1, 0] := by
  decide +kernel

/-- R48: the first byte is the least significant. -/
theorem test_little_endian : (Memory.setWord [] 0x10000 0x11223344).get? 0x10000 = some 0x44 := by decide

/-- A zero written over a zero of the cleared history leaves no cell: equal histories are equal data. -/
theorem test_history_is_canonical :
    ((bench.hist.setElem small 1 3 0x3F800000).setElem small 1 3 0) = bench.hist := by decide +kernel

theorem test_reset_memory_is_canonical : ioWf State.reset.params State.reset.io = true := by decide

/-! ### Witnesses: for every obligation with hypotheses, an input that meets them -/

theorem small_legal : small.Legal := by decide

theorem bench_dl_inv : bench.dl.Inv small :=
  ⟨fun h => (by cases h),
   fun _ => ⟨by decide, by decide, by decide, by decide, by decide, by decide, ⟨8, by decide⟩⟩,
   by decide +kernel, fun _ => rfl⟩

/-- The PH unit after reset meets its invariant, the increment whatever the free values are. -/
theorem bench_ph_inv : bench.ph.Inv := by
  refine ⟨⟨0, by decide +kernel, by decide +kernel⟩, ⟨0, by decide +kernel, by decide +kernel⟩, by decide +kernel,
    by decide +kernel, fun n => ?_, by decide +kernel⟩
  have h1 : binary64.mul twoPi.toNat bench.ph.freq.toNat = some 0x401921FB54442D18 := by decide +kernel
  have h2 : binary64.div (BitVec.ofNat 64 0x401921FB54442D18).toNat bench.ph.rate.toNat = some 0x3F22ACB24B91E1EE := by
    decide +kernel
  unfold incr mul64 div64
  rw [h1, finish64, h2]
  rfl

theorem bench_inv : bench.Inv :=
  ⟨small_legal, bench_dl_inv, bench_ph_inv, ⟨by decide +kernel, by decide +kernel, by decide, by decide⟩⟩

theorem bench_ready : bench.BlockReady 0 4 ∧ bench.BlockReady 1 4 :=
  ⟨⟨rfl, by decide, rfl, by decide +kernel⟩, ⟨rfl, by decide, rfl, by decide +kernel⟩⟩

/-- DecodeOfEncodeIsIdentity: the largest operands. -/
theorem witness_well_formed : (Instr.dlWrite 255 65535).wf = true ∧ (Instr.dlReadmix 0 0).wf = true := by decide

/-- DecodedWordIsItsEncoding. -/
theorem witness_decodes :
    decode .dlCmd 0xFFFFFF02 = .ok (.dlWrite 255 65535) ∧ decode .phCmd 0x16 = .ok .phClrerr := by decide

/-- IllegalWordRecordsIllegalCommand: each clause of each register at its boundary. -/
theorem witness_illegal :
    illegalWord .dlCmd 0x00000000 ∧ illegalWord .dlCmd 0x00000007 ∧ illegalWord .dlCmd 0x00000106 ∧
    illegalWord .phCmd 0x00000010 ∧ illegalWord .phCmd 0x00000017 ∧ illegalWord .phCmd 0x00000111 ∧
    ¬illegalWord .dlCmd 0xFFFFFF03 ∧ ¬illegalWord .phCmd 0x00000011 ∧
    (∃ (s : State) (rest : List BusEvent), s.inReset = false ∧ s.pending = .st32 0x000 0x00000007 :: rest) ∧
    ∃ (s : State) (rest : List BusEvent), s.inReset = false ∧ s.pending = .st32 0x100 0x00000017 :: rest := by
  refine ⟨?_, ?_, ?_, ?_, ?_, ?_, ?_, ?_, ⟨{ bench with pending := [.st32 0x000 7] }, [], rfl, rfl⟩,
    ⟨{ bench with pending := [.st32 0x100 0x17] }, [], rfl, rfl⟩⟩ <;> unfold illegalWord <;> decide

/-- CommandWordsAreTheAssemblersWords: the largest operands. -/
theorem witness_operands : (255 : Nat) < 256 ∧ (65535 : Nat) < 65536 := by decide

/-- StepExecutesTheCommandWritten. -/
theorem witness_step_executes :
    ∃ (s : State) (r : CmdReg) (w : Word) (i : Instr) (rest : List BusEvent),
      s.inReset = false ∧ s.pending = .st32 (cmdAddr r) w :: rest ∧ decode r w = .ok i :=
  ⟨{ bench with pending := [.st32 0x100 0x15] }, .phCmd, 0x15, .phNext, [], rfl, rfl, by decide⟩

/-- ReadsHaveNoEffectAndPlainWritesAreIdempotent: a read, and a write to a register and to the last I/O word. -/
theorem witness_reads_and_writes :
    (∃ t, service (.ld32 0x10004) bench = .next t) ∧
    (∃ t, bench.inReset = false ∧ ioWf bench.params bench.io = true ∧ (0x018 : BusAddr) ≠ 0x000 ∧ (0x018 : BusAddr) ≠ 0x100 ∧
      service (.st32 0x018 0x3F800001) bench = .next t) ∧
    ∃ t, service (.st32 0x1001C 0x3F800000) bench = .next t :=
  ⟨next_of_got (by decide +kernel),
   (next_of_got (by decide +kernel)).imp fun _ h => ⟨rfl, by decide +kernel, by decide, by decide, h⟩,
   next_of_got (by decide +kernel)⟩

/-- RegisterReadsFollowTheMap: the first and the last row. -/
theorem witness_register_reads :
    ((0x000 : BusAddr), (0 : Word)) ∈ registerValues bench ∧ ((0x024 : BusAddr), (12 : Word)) ∈ registerValues bench ∧
    ((0x208 : BusAddr), (16 : Word)) ∈ registerValues bench := by decide +kernel

/-- UncoveredAccessesReadZeroAndWriteNothing: just past a row, just past the I/O window, and the top of the space. -/
theorem witness_uncovered :
    ([(0x038 : BusAddr), 0x0FC, 0x20C, 0xFFFC, 0x10020, 0xFFFFC].all fun a =>
      a.toNat % 4 == 0 && ((registerValues bench).all fun r => r.1 != a) && !inIoWindow small a.toNat) = true ∧
    inIoWindow small 0x10000 = true ∧ inIoWindow small 0x1001C = true ∧ readOnlyAddrs.contains 0x208 = true := by
  decide +kernel

/-- PlainRegisterWritesStore, GainWriteIsChecked, IdleCoreKeepsItsState: the shape of the state. -/
theorem witness_register_write :
    (∃ (s : State) (rest : List BusEvent) (a : BusAddr) (v : Word),
      s.inReset = false ∧ s.pending = .st32 a v :: rest ∧ a = 0x10C) ∧ bench.pending = [] :=
  ⟨⟨{ bench with pending := [.st32 0x10C 0x40100000] }, [], 0x10C, 0x40100000, rfl, rfl, rfl⟩, rfl⟩

/-- GainWriteIsChecked: 1.0, -0.0 and +0.0 are legal; the pattern after 1.0, a negative value, a NaN and +inf are not. -/
theorem witness_gain :
    [(0x3F800000 : Word), 0x80000000, 0].map gainLegal = [true, true, true] ∧
    [(0x3F800001 : Word), 0x80000001, 0xBF800000, 0x7FC00000, 0x7F800000].map gainLegal =
      [false, false, false, false, false] ∧ val32 0x3F800000 = .fin false (2 ^ 149) := by decide +kernel

/-- IoWordsReadBackWhatWasWritten: the last element of the last channel, in the machine of R6 and in the small one. -/
theorem witness_io_word :
    (∃ (s : State) (a : BusAddr) (v : Word), s.params.Legal ∧ s.inReset = false ∧ 1 < s.params.numCh ∧
      3 < s.params.maxBlock ∧ a.toNat = 0x10000 + 1 * (4 * s.params.maxBlock) + 4 * 3 ∧
      s.pending = .st32 a v :: .ld32 a :: []) ∧
    (0x17FFC : BusAddr).toNat = 0x10000 + 1 * (4 * State.reset.params.maxBlock) + 4 * 4095 :=
  ⟨⟨{ bench with pending := [.st32 0x1001C 1, .ld32 0x1001C] }, 0x1001C, 1, small_legal, rfl, by decide, by decide,
    by decide, rfl⟩, by decide⟩

/-- AccessesWithoutMeaningFault: each clause. -/
theorem witness_faults :
    stopped (step { bench with pending := [.load 0x002 .w32] }) = some .busMisaligned ∧
    stopped (step { bench with pending := [.store 0x000 .w8 1] }) = some .busMisaligned ∧
    stopped (step { bench with io := [], pending := [.ld32 0x1001C] }) = some .uninitRead ∧
    stopped (exec (.dlWrite 1 4) { bench with io := [] }) = some .uninitRead ∧
    stopped (exec (.dlReadmix 0 4) { bench with io := [] }) = some .uninitRead := by decide +kernel

/-- ResetEventGivesResetValues, NoAccessIsServicedInReset. -/
theorem witness_reset_events :
    (∃ (s : State) (rest : List BusEvent), s.pending = .assertReset :: .releaseReset :: rest) ∧
    ∃ (s : State) (rest : List BusEvent) (e : BusEvent),
      s.inReset = true ∧ s.pending = e :: rest ∧ e ≠ .assertReset ∧ e ≠ .releaseReset :=
  ⟨⟨{ bench with pending := [.assertReset, .releaseReset] }, [], rfl⟩,
   ⟨{ bench with inReset := true, pending := [.ld32 0] }, [], .ld32 0, rfl, rfl, by decide, by decide⟩⟩

/-- DelayInSamplesIsRoundedAndClamped, SmoothedDelayIsTheRoundedLine, HistoryIndexesStayInside, FastPathReadsOneRun,
DelayStepIsBounded: a unit that does not smooth, and one that does, at the last sample of the block. -/
theorem witness_delay_functions :
    bench.dl.Inv small ∧ bench.dl.prepared = true ∧ 3 < bench.dl.bs.toNat ∧ bench.dl.changed small.epsQ = false ∧
    (∃ d : DlUnit, d.Inv small ∧ d.prepared = true ∧ 3 < d.bs.toNat ∧ d.changed small.epsQ = true) ∧
    (11 : Nat) < bench.dl.cap.toNat :=
  ⟨bench_dl_inv, rfl, by decide, by decide,
   ⟨{ bench.dl with blockOpen := true, curDelay := 0x50000 },
    ⟨⟨fun h => (by cases h), fun _ => bench_dl_inv.prepared rfl, bench_dl_inv.gain, fun h => (by cases h)⟩, rfl, by decide,
     by decide⟩⟩,
   by decide⟩

/-- PrepareSizesAndClears: block sizes 0 and `MAX_BLOCK + 1`, rate 0, capacities `HIST_DEPTH + 1` and `HIST_DEPTH`. -/
theorem witness_prepare :
    small.Legal ∧
    (got (exec .dlPrepare (benchWith fun d => { d with prepBs := 0 }))).map (·.dl.err) = some .invalidBlockSize ∧
    (got (exec .dlPrepare (benchWith fun d => { d with prepBs := 5 }))).map (·.dl.err) = some .invalidBlockSize ∧
    (got (exec .dlPrepare (benchWith fun d => { d with prepSr := 0 }))).map (·.dl.err) = some .badArgument ∧
    (got (exec .dlPrepare (benchWith fun d => { d with prepMaxd := 13 }))).map (·.dl.err) = some .allocFailed ∧
    (got (exec .dlPrepare (benchWith fun d => { d with prepMaxd := 12 }))).map (·.dl.cap) = some 16 := by decide +kernel

/-- WriteStoresTheGainedBlock, ReadmixAddsTheDelayedBlock: both channels, with the block closed and open. -/
theorem witness_block_ready :
    small.Legal ∧ bench.dl.Inv bench.params ∧ bench.BlockReady 0 4 ∧ bench.BlockReady 1 4 ∧ bench.dl.blockOpen = false ∧
    (benchWith fun d => { d with blockOpen := true }).BlockReady 0 4 :=
  ⟨small_legal, bench_dl_inv, bench_ready.1, bench_ready.2, rfl, ⟨rfl, by decide, rfl, by decide +kernel⟩⟩

/-- BlockCommandsFailInOrder: each clause at its boundary. -/
theorem witness_block_failures :
    State.reset.dl.prepared = false ∧ bench.dl.prepared = true ∧ bench.params.numCh ≤ 2 ∧ 1 < bench.params.numCh ∧
    5 ≠ bench.dl.bs.toNat := by decide

/-- AdvanceMovesTheWritePosition, ReleaseClearsTheUnit, WritePositionAfterAdvances. -/
theorem witness_advances :
    bench.dl.Inv bench.params ∧ bench.dl.prepared = true ∧ bench.dl.wpos = 0 ∧ State.reset.dl.Inv State.reset.params ∧
    ∃ s : State, s.dl = bench.dl ∧ s.inReset = false ∧ s.pending = List.replicate 3 (cmdStore .dlAdvance) :=
  ⟨bench_dl_inv, rfl, rfl,
   ⟨fun _ => ⟨rfl, rfl, rfl, rfl, rfl⟩, fun h => (by cases h), by decide +kernel, fun _ => rfl⟩,
   ⟨{ bench with pending := List.replicate 3 (cmdStore .dlAdvance) }, rfl, rfl, rfl⟩⟩

/-- GainOneAndGainZero, NanOperandsGiveNanResults: a signalling NaN, a quiet one, both zeros, and infinity. -/
theorem witness_values :
    val32 0x7F800001 = .nan true ∧ val32 0x7FC00000 = .nan false ∧ val32 0x80000000 = .fin true 0 ∧
    val32 0 = .fin false 0 ∧ val32 0x7F800000 = .inf false ∧ val32 0xFF800000 = .inf true ∧
    (val32 0x7F800000).isFinite = false := by decide +kernel

/-- SilenceStaysSilent: channel 1 of `bench` is silent. -/
theorem witness_silence :
    bench.dl.gain.toNat < 2 ^ 31 ∧ (∀ j, j < 4 → bench.io.word? (ioAddr small 1 j) = some 0) ∧
    (∀ i, i < 12 → bench.hist.elem small 1 i = 0) ∧ (∃ t, exec (.dlWrite 1 bench.dl.bs.toNat) bench = .next t) ∧
    ∃ t, exec (.dlReadmix 1 bench.dl.bs.toNat) bench = .next t :=
  ⟨by decide, by decide +kernel, by decide +kernel, next_of_got (by decide +kernel), next_of_got (by decide +kernel)⟩

/-- `bench` with another channel 1. -/
def benchOther : State :=
  { bench with io := bench.io.setWord 0x10010 7, hist := bench.hist.setElem small 1 0 7 }

/-- ChannelsAreIndependent: two machines that differ in channel 1 alone. -/
theorem witness_channels :
    benchOther.params = bench.params ∧ benchOther.dl = bench.dl ∧ benchOther.freeCount = bench.freeCount ∧
    benchOther ≠ bench ∧ (∀ j, j < 4 → benchOther.io.word? (ioAddr small 0 j) = bench.io.word? (ioAddr small 0 j)) ∧
    (∀ k, k < 16 → benchOther.hist.elem small 0 k = bench.hist.elem small 0 k) ∧
    (∃ t, exec (.dlWrite 0 4) bench = .next t) ∧ ∃ t, exec (.dlWrite 0 4) benchOther = .next t := by
  refine ⟨rfl, rfl, rfl, by decide +kernel, by decide +kernel, fun k _ => ?_, next_of_got (by decide +kernel),
    next_of_got (by decide +kernel)⟩
  exact History.elem_setElem_other small bench.hist 7 (c := 1) (i := 0) (c' := 0) (i' := k)
    (by show 0 * 16 + k ≠ 1 * 16 + 0; omega)

/-- Two blocks of two channels, for the stream's statement. -/
def stream : List (List (List Word)) :=
  [[[0x3F800000, 0, 0, 0], [0, 0, 0, 0]], [[0, 0, 0x3F000000, 0], [0, 0, 0, 0]]]

/-- DelayedSampleIsTheGainedInput: a delay of 5 samples; sample 4 has no sample 5 earlier, sample 5 has. -/
theorem witness_stream :
    ∃ s : State, s.Inv ∧ s.inReset = false ∧ s.dl.prepared = true ∧ s.dl.blockOpen = false ∧ s.dl.delay = s.dl.curDelay ∧
      (∀ block ∈ stream, block.length = s.params.numCh ∧ ∀ input ∈ block, input.length = s.dl.bs.toNat) ∧
      s.pending = streamAccesses s.params stream ∧ s.dl.clamped s.dl.curDelay = 5 ∧
      4 + s.dl.bs.toNat = stream.length * s.dl.bs.toNat + 0 ∧ sampleAt stream s.dl.bs.toNat 0 4 = some 0 ∧
      5 + s.dl.bs.toNat = stream.length * s.dl.bs.toNat + 1 ∧ sampleAt stream s.dl.bs.toNat 0 5 = some 0 ∧
      sampleAt stream s.dl.bs.toNat 0 (5 - 5) = some 0x3F800000 :=
  ⟨{ bench with
      dl := { bench.dl with delay := 0x50000, curDelay := 0x50000, prevDelay := 0x50000 },
      pending := streamAccesses small stream },
   ⟨small_legal, ⟨bench_dl_inv.unprepared, bench_dl_inv.prepared, bench_dl_inv.gain, fun _ => rfl⟩, bench_ph_inv,
    ⟨by decide +kernel, by decide +kernel, by decide, by decide⟩⟩,
   rfl, rfl, rfl, rfl, by decide, rfl, by decide, by decide, by decide, by decide, by decide, by decide⟩

/-- SetrateStoresOrRefuses: +0.0 and a NaN are refused; the smallest rate overflows the increment; 4.0 is stored. -/
theorem witness_setrate :
    [(0 : DWord), 0x7FF8000000000000, 0x7FF0000000000000, 0xBFF0000000000000].map rateRefused = [true, true, true, true] ∧
    [(0x0000000000000001 : DWord), 0x4010000000000000].map rateRefused = [false, false] ∧
    (val64 (incr 0 0x3FF0000000000000 0x0000000000000001)).isInf = true ∧
    (val64 (incr 0 0x3FF0000000000000 0x4010000000000000)).isInf = false := by decide +kernel

/-- SetfreqStoresOrRefuses, SetphaseStoresTheWrappedPhase. -/
theorem witness_setfreq :
    (val64 0x7FF8000000000000).isFinite = false ∧ (val64 0x7FEFFFFFFFFFFFFF).isFinite = true ∧
    (val64 (incr 0 0x7FEFFFFFFFFFFFFF 0x3FF0000000000000)).isInf = true ∧
    (val64 (incr 0 0x8000000000000000 0x3FF0000000000000)).isInf = false ∧ bench.ph.Inv :=
  ⟨by decide +kernel, by decide +kernel, by decide +kernel, by decide +kernel, bench_ph_inv⟩

/-- WrapStaysInTheCycle, WrapIsTheExactRemainder: -0.0, the largest phase, `TWO_PI`, and a value above it. -/
theorem witness_wrap :
    val64 0x8000000000000000 = .fin true 0 ∧ val64 0x401921FB54442D17 = .fin false (twoPiQuanta - 2 ^ 1024) ∧
    val64 twoPi = .fin false twoPiQuanta ∧ (val64 0x7FEFFFFFFFFFFFFF).isFinite = true := by decide +kernel

/-- WrapOfANegativeIsTheRoundedRemainder: -0.0; -1.0 and -100.0 (95_test_vectors.md PH-5, PH-9); the smallest negative value,
which rounds up to `TWO_PI`; `-TWO_PI`. -/
theorem witness_negative_wrap :
    [(0x8000000000000000 : DWord), 0xBFF0000000000000, 0xC059000000000000, 0x8000000000000001, 0xC01921FB54442D18].map
      (fun w => (decide (val64 w = .fin true (binary64.quanta (w.toNat % 2 ^ 63))), wrap 0 w)) =
    [(true, 0), (true, 0x401521FB54442D18), (true, 0x3FE0FDAA22168C00), (true, 0), (true, 0)] := by decide +kernel

/-- FiniteArithmeticRoundsTheExactResult: 1.5 × -0.5, an exact zero sum, -0.0 + -0.0, 1.0 + 2^-24 (a tie), overflow; in
binary64 1.0 / 3.0, 1.0 / -0.0 and -0.0 + 0.0. IEEE 754 by hand. -/
theorem witness_finite_arithmetic :
    mul32 0 0x3FC00000 0xBF000000 = 0xBF400000 ∧ add32 0 0x3F800000 0xBF800000 = 0 ∧
    add32 0 0x80000000 0x80000000 = 0x80000000 ∧ add32 0 0x3F800000 0x33800000 = 0x3F800000 ∧
    mul32 0 0xFF7FFFFF 0x40000000 = 0xFF800000 ∧ div64 0 0x3FF0000000000000 0x4008000000000000 = 0x3FD5555555555555 ∧
    div64 0 0x3FF0000000000000 0x8000000000000000 = 0xFFF0000000000000 ∧ add64 0 0x8000000000000000 0 = 0 ∧
    (val32 0xFF7FFFFF).isFinite = true ∧ (val64 0x4008000000000000).isFinite = true := by decide +kernel

/-- InfiniteOperandsGiveInfinities: both infinities of each format against an infinity and against finite values. -/
theorem witness_infinities :
    val32 0x7F800000 = .inf false ∧ val32 0xFF800000 = .inf true ∧ val64 0xFFF0000000000000 = .inf true ∧
    val64 0x7FF0000000000000 = .inf false ∧ mul32 0 0x7F800000 0xBF800000 = 0xFF800000 ∧
    add32 0 0x3F800000 0xFF800000 = 0xFF800000 ∧ div64 0 0x3FF0000000000000 0xFFF0000000000000 = 0x8000000000000000 ∧
    (val32 0xBF800000).isFinite = true := by decide +kernel

/-- OutputIsBelowTwo: the largest phase. -/
theorem witness_largest_phase : phaseInRange 0x401921FB54442D17 :=
  ⟨twoPiQuanta - 2 ^ 1024, by decide +kernel, by decide +kernel⟩

/-- QuarterCycleRepeatsExactly. -/
theorem witness_quarter :
    ∃ (s : State) (rest : List BusEvent), s.inReset = false ∧ s.ph.phase = 0 ∧ s.ph.inc = 0x3FF921FB54442D18 ∧
      s.pending = List.replicate 4 (cmdStore .phNext) ++ rest :=
  ⟨{ bench with
      ph := { PhUnit.reset with inc := 0x3FF921FB54442D18 }, pending := List.replicate 4 (cmdStore .phNext) ++ [.ld32 0] },
   [.ld32 0], rfl, rfl, rfl, rfl⟩

/-- RoundingIsToNearestEven: a tie, the largest finite magnitude, and the smallest that overflows. -/
theorem witness_rounding :
    binary32.round 3 2 = 2 ∧ binary32.round 1 2 = 0 ∧ binary32.round (binary32.quanta 0x7F7FFFFF) 1 = 0x7F7FFFFF ∧
    0x7F7FFFFF < binary32.infPattern ∧
    binary32.round ((2 ^ 25 - 1) * 2 ^ 252) 1 = binary32.infPattern ∧
    binary32.round ((2 ^ 25 - 1) * 2 ^ 252 - 1) 1 = 0x7F7FFFFF := by decide +kernel

/-- DlInvariantIsKept, PhInvariantIsKept, MemoryInvariantIsKept, UnspecifiedHistoryIsNeverRead: a state that meets the invariant and steps, by a command and by
the reset event. -/
theorem witness_steps :
    (∃ s : State, s.Inv ∧ (∃ t, step s = .next t) ∧ ∃ e rest, s.pending = e :: rest ∧ e ≠ .releaseReset) ∧
    ∃ s : State, s.Inv ∧ (∃ t, step s = .next t) ∧ s.pending = [.releaseReset] ∧ s.inReset = true :=
  ⟨⟨{ bench with pending := [cmdStore (.dlWrite 0 4)] },
    ⟨small_legal, bench_dl_inv, bench_ph_inv, ⟨bench_inv.mem.io, bench_inv.mem.hist, by decide, by decide⟩⟩,
    next_of_got (by decide +kernel), _, [], rfl, by decide⟩,
   ⟨{ bench with inReset := true, pending := [.releaseReset] },
    ⟨small_legal, bench_dl_inv, bench_ph_inv, ⟨bench_inv.mem.io, bench_inv.mem.hist, by decide, by decide⟩⟩,
    next_of_got (by decide +kernel), rfl, rfl⟩⟩

/-- ResetMeetsTheInvariant: the parameters of R6, the smallest, and the most channels. -/
theorem witness_parameters :
    Config.Params.ofSpec.Legal ∧ ({ numCh := 1, maxBlock := 1, histDepth := 1, epsQ := 0 } : Config.Params).Legal ∧
    ({ numCh := 255, maxBlock := 963, histDepth := 2 ^ 32 - 1, epsQ := 5 } : Config.Params).Legal := by decide

/-- RegistersChangeOnlyByTheirCommands, FirstErrorIsKept, OpenBlockKeepsItsDelay: steps that change a register, keep an error
and keep an open block. -/
theorem witness_changes :
    (got (step { bench with pending := [cmdStore .dlRelease] })).map (fun t => (t.dl.cap, t.dl.sr)) = some (0, 0) ∧
    (got (step { benchWith (fun d => { d with err := .badChannel }) with pending := [cmdStore (.dlReadmix 1 3)] })).map
      (·.dl.err) = some .badChannel ∧
    (got (step { benchWith (fun d => { d with blockOpen := true }) with pending := [.st32 0x014 0x50000] })).map
      (fun t => (t.dl.curDelay, t.dl.delay, t.dl.blockOpen)) = some (0x20000, 0x50000, true) := by decide +kernel

/-- StatusFieldsChangeOnlyByTheirCauses: a block opens and closes, and each unit's `ERR` changes by each kind of cause. -/
theorem witness_status_changes :
    (got (step { bench with pending := [cmdStore (.dlWrite 0 4)] })).map (·.dl.blockOpen) = some true ∧
    (got (step { benchWith (fun d => { d with blockOpen := true }) with pending := [cmdStore .dlAdvance] })).map
      (·.dl.blockOpen) = some false ∧
    ([.st32 0x000 0x00000007, .st32 0x018 0x3F800001, cmdStore (.dlWrite 2 4), cmdStore (.dlWrite 0 3)].map fun e =>
      (got (step { bench with pending := [e] })).map (·.dl.err)) =
        [some .illegalCommand, some .badArgument, some .badChannel, some .invalidBlockSize] ∧
    (got (step { benchWith (fun d => { d with err := .badChannel }) with pending := [cmdStore .dlClrerr] })).map
      (·.dl.err) = some .noError ∧
    ([.st32 0x100 0x00000001, cmdStore .phSetrate].map fun e =>
      (got (step { bench with pending := [e] })).map (·.ph.err)) = [some .illegalCommand, some .badArgument] := by
  decide +kernel

/-- UnitsAreIndependent, NoDelayWordMakesACommandFail: a command of each unit completes. -/
theorem witness_units :
    (∃ t, exec .phNext bench = .next t) ∧ ∃ t, exec (.dlReadmix 0 4) bench = .next t :=
  ⟨⟨_, rfl⟩, next_of_got (by decide +kernel)⟩

/-- LAWS.json's family at one command with operands. -/
theorem test_matches_row : Laws.MatchesRow.Statement (.dlWrite 1 512) := Laws.MatchesRow.dlWrite 1 512

end Sys2Proof.Tests
end

section
/-! PROOFS. The floating point of spec/00_scope.md R9: what rounding is, and what an operation gives on NaN, infinite and
finite operands. -/

namespace Sys2Proof.Machine

/-! ### Rounding an integer quotient -/

/-- The rounded integer lies within half of the quotient, as integers: strictly unless it is even. -/
theorem nearestEven_window (num : Nat) {den : Nat} (hd : 0 < den) :
    2 * (nearestEven num den * den) ≤ 2 * num + den ∧ 2 * num ≤ 2 * (nearestEven num den * den) + den ∧
      (nearestEven num den % 2 = 1 →
        2 * (nearestEven num den * den) < 2 * num + den ∧ 2 * num < 2 * (nearestEven num den * den) + den) := by
  have hdiv : num / den * den + num % den = num := Nat.div_add_mod' num den
  have hmod : num % den < den := Nat.mod_lt num hd
  unfold nearestEven
  dsimp only
  split
  · simp only [Nat.add_mul, Nat.one_mul]; omega
  · omega

/-- The rounded integer is within one half of the quotient, and even at exactly one half. -/
theorem nearestEven_dist (num : Nat) {den : Nat} (hd : 0 < den) :
    |(num : ℚ) / den - nearestEven num den| ≤ 1 / 2 ∧
      (|(num : ℚ) / den - nearestEven num den| = 1 / 2 → nearestEven num den % 2 = 0) := by
  obtain ⟨hlo, hhi, hodd⟩ := nearestEven_window num hd
  have hden : (0 : ℚ) < den := Nat.cast_pos.2 hd
  have hx : (num : ℚ) / den * den = num := div_mul_cancel₀ _ hden.ne'
  generalize nearestEven num den = N at *
  generalize (num : ℚ) / den = x at *
  constructor
  · have hlo' : (2 * (N * den) : ℚ) ≤ 2 * num + den := by exact_mod_cast hlo
    have hhi' : (2 * num : ℚ) ≤ 2 * (N * den) + den := by exact_mod_cast hhi
    rw [abs_le]; constructor <;> nlinarith
  · intro heq
    rcases Nat.mod_two_eq_zero_or_one N with h | h
    · exact h
    · obtain ⟨hlo, hhi⟩ := hodd h
      have hlo' : (2 * (N * den) : ℚ) < 2 * num + den := by exact_mod_cast hlo
      have hhi' : (2 * num : ℚ) < 2 * (N * den) + den := by exact_mod_cast hhi
      rcases (abs_eq (by norm_num)).1 heq with h | h <;> nlinarith

/-- The rounded integer is a nearest one, the even one of two equally near. -/
theorem nearestEven_nearest (num : Nat) {den : Nat} (hd : 0 < den) (k : Nat) :
    |(num : ℚ) / den - nearestEven num den| ≤ |(num : ℚ) / den - k| ∧
      (k ≠ nearestEven num den → |(num : ℚ) / den - nearestEven num den| = |(num : ℚ) / den - k| →
        nearestEven num den % 2 = 0) := by
  obtain ⟨hle, heven⟩ := nearestEven_dist num hd
  by_cases hk : k = nearestEven num den
  · subst hk; exact ⟨le_rfl, fun h => absurd rfl h⟩
  have hgap : (1 : ℚ) ≤ |(nearestEven num den : ℚ) - k| := by
    have : (1 : ℤ) ≤ |(nearestEven num den : ℤ) - k| := Int.one_le_abs (by omega)
    exact_mod_cast this
  have htri := abs_sub_le (nearestEven num den : ℚ) ((num : ℚ) / den) k
  rw [abs_sub_comm (nearestEven num den : ℚ) ((num : ℚ) / den)] at htri
  exact ⟨by linarith, fun _ heq => heven (by linarith)⟩

namespace FloatFormat
variable (f : FloatFormat)

/-! ### Rounding to a pattern (R9) -/

/-- The places by which a magnitude of `num / den` quanta exceeds the significand. -/
def places (num den : Nat) : Nat := (num / den).log2 - f.fracBits

/-- The significand of the rounded magnitude at those places. -/
def significand (num den : Nat) : Nat := nearestEven num (den * 2 ^ f.places num den)

/-- The rounded pattern before overflow: exponents run on beyond the format. -/
def wideRound (num den : Nat) : Nat := f.places num den * 2 ^ f.fracBits + f.significand num den

theorem round_eq_min (num den : Nat) : f.round num den = min (f.wideRound num den) f.infPattern := rfl

theorem round_eq_wideRound {num den : Nat} (h : f.round num den < f.infPattern) :
    f.round num den = f.wideRound num den := by
  rw [round_eq_min] at h ⊢; omega

/-- The quanta of the rounded pattern. -/
theorem quanta_wideRound (num den : Nat) :
    f.quanta (f.wideRound num den) = f.significand num den * 2 ^ f.places num den := by
  obtain ⟨hle, hs⟩ := f.round_parts num den
  exact f.quanta_scaled hle (hs.imp_right And.left)

/-- The significand is a nearest one, the even one of two equally near, as magnitudes. -/
theorem significand_nearest (num : Nat) {den : Nat} (hd : 0 < den) (k : Nat) :
    |(num : ℚ) / den - f.quanta (f.wideRound num den)| ≤ |(num : ℚ) / den - (k * 2 ^ f.places num den : Nat)| ∧
      (k ≠ f.significand num den →
        |(num : ℚ) / den - f.quanta (f.wideRound num den)| = |(num : ℚ) / den - (k * 2 ^ f.places num den : Nat)| →
          f.significand num den % 2 = 0) := by
  rw [quanta_wideRound]
  generalize hs : f.places num den = s
  have hu : (0 : ℚ) < 2 ^ s := by positivity
  have hscale (j : Nat) : |(num : ℚ) / den - (j * 2 ^ s : Nat)| = |(num : ℚ) / (den * 2 ^ s : Nat) - j| * 2 ^ s := by
    have hval : (num : ℚ) / den - (j * 2 ^ s : Nat) = ((num : ℚ) / (den * 2 ^ s : Nat) - j) * 2 ^ s := by
      push_cast; field_simp
    rw [hval, abs_mul, abs_of_pos hu]
  have hN : f.significand num den = nearestEven num (den * 2 ^ s) := by rw [significand, hs]
  obtain ⟨hle, heven⟩ := nearestEven_nearest num (den := den * 2 ^ s) (by positivity) k
  rw [hN, hscale, hscale]
  exact ⟨mul_le_mul_of_nonneg_right hle hu.le, fun hk heq => heven hk (mul_right_cancel₀ hu.ne' heq)⟩

/-- The parity of the rounded pattern is its significand's. -/
theorem wideRound_mod_two (hf : 0 < f.fracBits) (num den : Nat) :
    f.wideRound num den % 2 = f.significand num den % 2 := by
  obtain ⟨b, hb⟩ : ∃ b, f.fracBits = b + 1 := ⟨f.fracBits - 1, by omega⟩
  rw [wideRound, hb, Nat.pow_succ, ← Nat.mul_assoc]
  omega

/-- R9: of all patterns the rounded one denotes a nearest magnitude, and is even where another is equally near. A pattern in
the binade of the rounded one or above is a whole number of its places; one below lies beyond that binade's least pattern. -/
theorem wideRound_nearest (hf : 0 < f.fracBits) (num : Nat) {den : Nat} (hd : 0 < den) (p : Nat) :
    |(num : ℚ) / den - f.quanta (f.wideRound num den)| ≤ |(num : ℚ) / den - f.quanta p| ∧
      (p ≠ f.wideRound num den →
        |(num : ℚ) / den - f.quanta (f.wideRound num den)| = |(num : ℚ) / den - f.quanta p| →
          f.wideRound num den % 2 = 0) := by
  rw [f.wideRound_mod_two hf]
  by_cases hp : f.places num den = 0 ∨ (f.places num den + 1) * 2 ^ f.fracBits ≤ p
  · obtain ⟨k, hk, -⟩ := f.quanta_grid _ p hp
    obtain ⟨hle, heven⟩ := f.significand_nearest num hd k
    rw [hk]
    refine ⟨hle, fun hne => heven fun hsig => hne (f.quanta_strictMono.injective ?_)⟩
    rw [hk, quanta_wideRound, hsig]
  · obtain ⟨hs, hlt⟩ := not_or.1 hp
    obtain ⟨hle, -⟩ := f.significand_nearest num hd (2 ^ f.fracBits)
    have hbelow : f.quanta p < 2 ^ f.fracBits * 2 ^ f.places num den := by
      rw [← f.quanta_scaled (by omega) (.inr le_rfl)]
      exact f.quanta_strictMono (by rw [Nat.succ_mul] at hlt; omega)
    have habove : ((2 ^ f.fracBits * 2 ^ f.places num den : Nat) : ℚ) ≤ (num : ℚ) / den :=
      le_trans (Nat.cast_le.2 (((f.round_parts num den).2.resolve_left hs).2)) Nat.cast_div_le
    have hbelow' : (f.quanta p : ℚ) < (2 ^ f.fracBits * 2 ^ f.places num den : Nat) := Nat.cast_lt.2 hbelow
    rw [abs_of_nonneg (sub_nonneg.2 habove)] at hle
    have hstrict : |(num : ℚ) / den - f.quanta (f.wideRound num den)| < |(num : ℚ) / den - f.quanta p| := by
      rw [abs_of_nonneg (by linarith : (0 : ℚ) ≤ (num : ℚ) / den - f.quanta p)]
      linarith
    exact ⟨hstrict.le, fun _ heq => absurd heq hstrict.ne⟩

/-- A magnitude rounds to an even pattern or above exactly from half a place below that pattern on. -/
theorem le_wideRound_iff (hf : 0 < f.fracBits) (num : Nat) {den p : Nat} (hd : 0 < den) (hp : 0 < p) (heven : p % 2 = 0) :
    p ≤ f.wideRound num den ↔ ((f.quanta (p - 1) : ℚ) + f.quanta p) / 2 ≤ (num : ℚ) / den := by
  have hgap : (f.quanta (p - 1) : ℚ) < f.quanta p := Nat.cast_lt.2 (f.quanta_strictMono (by omega))
  constructor
  · intro hge
    have hq : (f.quanta p : ℚ) ≤ f.quanta (f.wideRound num den) := Nat.cast_le.2 (f.quanta_strictMono.monotone hge)
    obtain ⟨hnear, -⟩ := f.wideRound_nearest hf num hd (p - 1)
    by_contra hx
    rw [abs_of_neg (by linarith : (num : ℚ) / den - f.quanta (f.wideRound num den) < 0)] at hnear
    have hnearer : |(num : ℚ) / den - f.quanta (p - 1)| < -((num : ℚ) / den - f.quanta (f.wideRound num den)) := by
      rw [abs_lt]; constructor <;> linarith
    linarith
  · intro hx
    by_contra hlt
    have hle : f.wideRound num den ≤ p - 1 := by omega
    have hq : (f.quanta (f.wideRound num den) : ℚ) ≤ f.quanta (p - 1) :=
      Nat.cast_le.2 (f.quanta_strictMono.monotone hle)
    obtain ⟨hnear, htie⟩ := f.wideRound_nearest hf num hd p
    have hfar : |(num : ℚ) / den - f.quanta p| ≤ (num : ℚ) / den - f.quanta (p - 1) := by
      rw [abs_le]; constructor <;> linarith
    rw [abs_of_nonneg (by linarith)] at hnear htie
    have hlast : f.wideRound num den = p - 1 :=
      f.quanta_strictMono.injective (Nat.cast_injective (R := ℚ) (by linarith))
    have := htie (by omega) (by linarith)
    omega

/-- A magnitude that a pattern denotes is not rounded. -/
theorem wideRound_quanta (hf : 0 < f.fracBits) (p : Nat) : f.wideRound (f.quanta p) 1 = p := by
  obtain ⟨hnear, -⟩ := f.wideRound_nearest hf (f.quanta p) Nat.one_pos p
  simp only [Nat.cast_one, div_one, sub_self, abs_zero, abs_nonpos_iff, sub_eq_zero, Nat.cast_inj] at hnear
  exact (f.quanta_strictMono.injective hnear).symm

end FloatFormat

/-- Settles O44: the three clauses are the nearest-pattern, overflow-threshold and exactness lemmas of `wideRound`. -/
theorem roundingIsToNearestEven : Obligations.RoundingIsToNearestEven := by
  intro f hf
  have hfrac : 0 < f.fracBits := by rcases hf with rfl | rfl <;> decide
  have hinf : 0 < f.infPattern ∧ f.infPattern % 2 = 0 := by rcases hf with rfl | rfl <;> decide
  refine ⟨fun num den hd hlt p _ => ?_, fun num den hd => ?_, fun p hp => ?_⟩
  · rw [f.round_eq_wideRound hlt]
    exact f.wideRound_nearest hfrac num hd p
  · rw [← f.le_wideRound_iff hfrac num hd hinf.1 hinf.2, f.round_eq_min, min_eq_right_iff]
  · rw [f.round_eq_min, f.wideRound_quanta hfrac, min_eq_left hp.le]

/-! ### What an operation gives, by what its operands denote (R9) -/

theorem FloatVal.isNan_iff {v : FloatVal} : v.isNan = true ↔ ∃ s, v = .nan s := by
  cases v <;> simp [FloatVal.isNan]

theorem FloatVal.isNan_of_isSignalling {v : FloatVal} (h : v.isSignalling = true) : v.isNan = true := by
  cases v with
  | nan s => rfl
  | inf n => exact h
  | fin n m => exact h

/-- Operands whose exact sum is zero are both of sign 1 only if both are -0.0. -/
theorem zero_sum_sign {na nb : Bool} {ma mb : Nat} (h : signedQuanta na ma + signedQuanta nb mb = 0) :
    (na && nb) = (na && decide (ma = 0) && nb && decide (mb = 0)) := by
  cases na with
  | false => rfl
  | true =>
    cases nb with
    | false => simp
    | true =>
      obtain ⟨rfl, rfl⟩ : ma = 0 ∧ mb = 0 := by simp only [signedQuanta, if_true] at h; omega
      rfl

namespace FloatFormat
variable {f : FloatFormat} {a b : Nat} {na nb : Bool} {ma mb : Nat}

theorem mul_eq_none_of_isNan (h : (f.val a).isNan = true ∨ (f.val b).isNan = true) : f.mul a b = none := by
  rcases h with h | h <;> obtain ⟨s, hs⟩ := FloatVal.isNan_iff.1 h
  · simp only [mul, hs]
  · cases ha : f.val a <;> simp only [mul, ha, hs]

theorem add_eq_none_of_isNan (h : (f.val a).isNan = true ∨ (f.val b).isNan = true) : f.add a b = none := by
  rcases h with h | h <;> obtain ⟨s, hs⟩ := FloatVal.isNan_iff.1 h
  · simp only [add, hs]
  · cases ha : f.val a <;> simp only [add, ha, hs]

theorem mul_inf_zero (ha : f.val a = .inf na) (hb : f.val b = .fin nb 0) : f.mul a b = none ∧ f.mul b a = none := by
  simp [mul, ha, hb]

theorem add_inf_opposite (ha : f.val a = .inf na) (hb : f.val b = .inf (!na)) : f.add a b = none := by
  simp [add, ha, hb]

theorem mul_inf_inf (ha : f.val a = .inf na) (hb : f.val b = .inf nb) :
    f.mul a b = some (f.pack (na != nb) f.infPattern) := by
  simp [mul, ha, hb]

theorem add_inf_inf (ha : f.val a = .inf na) (hb : f.val b = .inf na) : f.add a b = some (f.pack na f.infPattern) := by
  simp [add, ha, hb]

theorem mul_inf_fin (ha : f.val a = .inf na) (hb : f.val b = .fin nb mb) (hm : mb ≠ 0) :
    f.mul a b = some (f.pack (na != nb) f.infPattern) ∧ f.mul b a = some (f.pack (na != nb) f.infPattern) := by
  simp [mul, ha, hb, hm, Bool.xor_comm]

theorem add_inf_fin (ha : f.val a = .inf na) (hb : f.val b = .fin nb mb) :
    f.add a b = some (f.pack na f.infPattern) ∧ f.add b a = some (f.pack na f.infPattern) := by
  simp [add, ha, hb]

theorem div_inf_fin (ha : f.val a = .inf na) (hb : f.val b = .fin nb mb) :
    f.div a b = some (f.pack (na != nb) f.infPattern) ∧ f.div b a = some (f.pack (na != nb) 0) := by
  simp [div, ha, hb, Bool.xor_comm]

theorem mul_fin_fin (ha : f.val a = .fin na ma) (hb : f.val b = .fin nb mb) :
    f.mul a b = some (f.pack (na != nb) (f.round (ma * mb) f.one)) := by
  simp [mul, ha, hb]

theorem add_fin_fin (ha : f.val a = .fin na ma) (hb : f.val b = .fin nb mb) :
    f.add a b = some (f.roundInt (signedQuanta na ma + signedQuanta nb mb) (na && nb)) := by
  simp [add, ha, hb]

theorem div_fin_fin (ha : f.val a = .fin na ma) (hb : f.val b = .fin nb mb) (hm : mb ≠ 0) :
    f.div a b = some (f.pack (na != nb) (f.round (ma * f.one) mb)) := by
  simp [div, ha, hb, hm]

theorem div_fin_zero (ha : f.val a = .fin na ma) (hb : f.val b = .fin nb 0) (hm : ma ≠ 0) :
    f.div a b = some (f.pack (na != nb) f.infPattern) := by
  simp [div, ha, hb, hm]

/-- A non-zero exact sum is rounded with its own sign. -/
theorem add_fin_fin_of_ne_zero (ha : f.val a = .fin na ma) (hb : f.val b = .fin nb mb)
    (hz : signedQuanta na ma + signedQuanta nb mb ≠ 0) :
    f.add a b = some (f.pack (decide (signedQuanta na ma + signedQuanta nb mb < 0))
      (f.round (signedQuanta na ma + signedQuanta nb mb).natAbs 1)) := by
  rw [add_fin_fin ha hb, roundInt, if_neg hz]

/-- An exact zero sum is a zero, negative only if both operands are -0.0. -/
theorem add_fin_fin_of_eq_zero (ha : f.val a = .fin na ma) (hb : f.val b = .fin nb mb)
    (hz : signedQuanta na ma + signedQuanta nb mb = 0) :
    f.add a b = some (f.pack (na && decide (ma = 0) && nb && decide (mb = 0)) 0) := by
  rw [add_fin_fin ha hb, roundInt, if_pos hz, zero_sum_sign hz]

/-- Zero rounds to zero. -/
theorem round_zero (den : Nat) : f.round 0 den = 0 := by simp [round, nearestEven]

/-- A natural number of quanta is rounded under the sign 0. -/
theorem roundInt_natCast (x : Nat) : f.roundInt x false = f.pack false (f.round x 1) := by
  rcases Nat.eq_zero_or_pos x with rfl | hx
  · rw [round_zero]; rfl
  · rw [roundInt, if_neg (by omega), Int.natAbs_natCast, decide_eq_false (by omega)]

/-- A bit pattern is its top bit over the rest. -/
theorem eq_pack (hlt : a < 2 * f.signWeight) : a = f.pack (decide (f.signWeight ≤ a)) (a % f.signWeight) := by
  unfold pack
  by_cases hs : f.signWeight ≤ a
  · rw [Nat.mod_eq_sub_mod hs, Nat.mod_eq_of_lt (by omega)]
    simp only [hs, decide_true, if_true]; omega
  · simp [hs, Nat.mod_eq_of_lt (Nat.lt_of_not_le hs)]

/-- An infinite pattern is its sign over the pattern of infinity. -/
theorem val_eq_inf (hlt : a < 2 * f.signWeight) (h : f.val a = .inf na) : a = f.pack na f.infPattern := by
  unfold val at h
  dsimp only at h
  split at h
  · cases h
  split at h
  · rename_i hmod
    injection h with hneg
    rw [← hmod, ← hneg]
    exact eq_pack hlt
  · cases h

end FloatFormat

/-! ### The words of the two formats -/

theorem signed32_eq_pack (neg : Bool) (p : Nat) : signed32 neg p = BitVec.ofNat 32 (binary32.pack neg p) := rfl

theorem signed64_eq_pack (neg : Bool) (p : Nat) : signed64 neg p = BitVec.ofNat 64 (binary64.pack neg p) := rfl

/-- The word of a result that is no NaN. -/
theorem finish32_pack (n : Nat) (a b : Word) {r : Option Nat} {neg : Bool} {p : Nat} (h : r = some (binary32.pack neg p)) :
    finish32 n a b r = signed32 neg p := by
  rw [h, signed32_eq_pack]; rfl

/-- `finish32_pack` in binary64. -/
theorem finish64_pack (n : Nat) (a b : DWord) {r : Option Nat} {neg : Bool} {p : Nat} (h : r = some (binary64.pack neg p)) :
    finish64 n a b r = signed64 neg p := by
  rw [h, signed64_eq_pack]; rfl

theorem val32_eq_inf {w : Word} {neg : Bool} (h : val32 w = .inf neg) : signed32 neg binary32.infPattern = w := by
  rw [signed32_eq_pack, ← FloatFormat.val_eq_inf w.isLt h, BitVec.ofNat_toNat, BitVec.setWidth_eq]

theorem val64_eq_inf {w : DWord} {neg : Bool} (h : val64 w = .inf neg) : signed64 neg binary64.infPattern = w := by
  rw [signed64_eq_pack, ← FloatFormat.val_eq_inf w.isLt h, BitVec.ofNat_toNat, BitVec.setWidth_eq]

theorem binary32_one : binary32.one = 2 ^ 149 := congrArg (2 ^ ·) (by decide)

theorem binary64_one : binary64.one = 2 ^ 1074 := congrArg (2 ^ ·) (by decide)

/-! ### NaN results (93 I3) -/

theorem toNat_append_eq_add {m k : Nat} (x : BitVec m) (y : BitVec k) : (x ++ y).toNat = x.toNat * 2 ^ k + y.toNat := by
  rw [BitVec.toNat_append, ← Nat.shiftLeft_add_eq_or_of_lt y.isLt, Nat.shiftLeft_eq]

/-- A word with a non-zero fraction under an exponent of ones is a NaN, quiet if the fraction's top bit is set. -/
theorem val32_nan_fields (sign : BitVec 1) (frac : BitVec 23) (h : frac.toNat ≠ 0) :
    val32 (sign ++ (0xFF : BitVec 8) ++ frac) = .nan (decide (frac.toNat < 2 ^ 22)) := by
  have hfrac := frac.isLt
  have hbits : (sign ++ (0xFF : BitVec 8) ++ frac).toNat = sign.toNat * 2 ^ 31 + (0xFF * 2 ^ 23 + frac.toNat) := by
    rw [toNat_append_eq_add, toNat_append_eq_add]
    show (sign.toNat * 2 ^ 8 + 0xFF) * 2 ^ 23 + frac.toNat = _
    omega
  have hmod : (sign ++ (0xFF : BitVec 8) ++ frac).toNat % 2 ^ 31 = 0xFF * 2 ^ 23 + frac.toNat := by omega
  have hinf : binary32.infPattern = 0xFF * 2 ^ 23 := rfl
  have hsign : binary32.signWeight = 2 ^ 31 := rfl
  have hquiet : 2 ^ (binary32.fracBits - 1) = 2 ^ 22 := rfl
  unfold val32 FloatFormat.val
  simp only [hsign, hmod, hinf, hquiet]
  rw [if_pos (by omega)]
  exact congrArg FloatVal.nan (decide_eq_decide.2 (by omega))

/-- The fraction of a free NaN is not 0, and has its top bit set where it is to be quiet. -/
theorem or_quiet_bit_le (frac : BitVec 23) : 2 ^ 22 ≤ (frac ||| 0x400000).toNat := by
  rw [BitVec.toNat_or]; exact Nat.right_le_or

/-- A free NaN is a NaN, and a quiet one where that is asked. -/
theorem val32_nan32 (free : BitVec 24) (quiet : Bool) :
    (val32 (nan32 free quiet)).isNan = true ∧ (quiet = true → val32 (nan32 free quiet) = .nan false) := by
  unfold nan32
  dsimp only
  split
  · have hq := or_quiet_bit_le (free.extractLsb' 0 23)
    rw [val32_nan_fields _ _ (by omega), decide_eq_false (by omega)]
    exact ⟨rfl, fun _ => rfl⟩
  · rename_i h
    obtain ⟨hquiet, hfrac⟩ : quiet = false ∧ free.extractLsb' 0 23 ≠ 0 := by simpa using h
    rw [val32_nan_fields _ _ fun h0 => hfrac (BitVec.eq_of_toNat_eq h0)]
    exact ⟨rfl, fun hq => absurd (hquiet ▸ hq) (by decide)⟩

/-- A binary32 operation with no numeric result gives a NaN, a quiet one where an operand is signalling. -/
theorem val32_finish32_none (n : Nat) (a b : Word) {r : Option Nat} (h : r = none) :
    (val32 (finish32 n a b r)).isNan = true ∧
      ((val32 a).isSignalling = true ∨ (val32 b).isSignalling = true → val32 (finish32 n a b r) = .nan false) := by
  rw [h]
  obtain ⟨hnan, hquiet⟩ := val32_nan32 (Config.freeNaN32 n) ((val32 a).isSignalling || (val32 b).isSignalling)
  exact ⟨hnan, fun hs => hquiet (by simpa using hs)⟩

/-- Settles O45: each of these operations has no numeric result, so `finish32` answers a free NaN. -/
theorem nanOperandsGiveNanResults : Obligations.NanOperandsGiveNanResults := by
  intro n a b
  refine ⟨fun h => ⟨?_, ?_⟩, fun h => ?_, fun p q ha hb => ?_, fun p ha hb => ?_⟩
  · exact (val32_finish32_none n a b (FloatFormat.mul_eq_none_of_isNan h)).1
  · exact (val32_finish32_none n a b (FloatFormat.add_eq_none_of_isNan h)).1
  · have hnan := h.imp FloatVal.isNan_of_isSignalling FloatVal.isNan_of_isSignalling
    exact ⟨(val32_finish32_none n a b (FloatFormat.mul_eq_none_of_isNan hnan)).2 h,
      (val32_finish32_none n a b (FloatFormat.add_eq_none_of_isNan hnan)).2 h⟩
  · obtain ⟨hab, hba⟩ := FloatFormat.mul_inf_zero ha hb
    exact ⟨(val32_finish32_none n a b hab).1, (val32_finish32_none n b a hba).1⟩
  · exact (val32_finish32_none n a b (FloatFormat.add_inf_opposite ha hb)).1

/-- Settles O58: each clause is the format's equation for two finite operands, with the format's value of 1.0 written out. -/
theorem finiteArithmeticRoundsTheExactResult : Obligations.FiniteArithmeticRoundsTheExactResult := by
  refine ⟨fun n a b na nb ma mb ha hb => ⟨?_, fun hz => ?_, fun hz => ?_⟩,
    fun n a b na nb ma mb ha hb => ⟨?_, fun hz => ?_, fun hz => ?_, fun hm => ?_, fun h0 hm => ?_⟩⟩
  · rw [← binary32_one]
    exact finish32_pack n a b (FloatFormat.mul_fin_fin ha hb)
  · exact finish32_pack n a b (FloatFormat.add_fin_fin_of_ne_zero ha hb hz)
  · exact finish32_pack n a b (FloatFormat.add_fin_fin_of_eq_zero ha hb hz)
  · rw [← binary64_one]
    exact finish64_pack n a b (FloatFormat.mul_fin_fin ha hb)
  · exact finish64_pack n a b (FloatFormat.add_fin_fin_of_ne_zero ha hb hz)
  · exact finish64_pack n a b (FloatFormat.add_fin_fin_of_eq_zero ha hb hz)
  · rw [← binary64_one]
    exact finish64_pack n a b (FloatFormat.div_fin_fin ha hb hm)
  · subst h0
    exact finish64_pack n a b (FloatFormat.div_fin_zero ha hb hm)

/-- Settles O59: each clause is the format's equation for an infinite operand. -/
theorem infiniteOperandsGiveInfinities : Obligations.InfiniteOperandsGiveInfinities := by
  refine ⟨fun n a b na ha => ⟨fun nb hb => ⟨?_, ?_⟩, fun nb mb hb => ⟨?_, ?_, fun hm => ?_⟩⟩,
    fun n a b na ha => ⟨fun nb hb => ⟨?_, ?_⟩, fun nb mb hb => ⟨?_, ?_, fun hm => ?_, ?_, ?_⟩⟩⟩
  · exact finish32_pack n a b (FloatFormat.mul_inf_inf ha hb)
  · rintro rfl
    exact (finish32_pack n a b (FloatFormat.add_inf_inf ha hb)).trans (val32_eq_inf ha)
  · exact (finish32_pack n a b (FloatFormat.add_inf_fin ha hb).1).trans (val32_eq_inf ha)
  · exact (finish32_pack n b a (FloatFormat.add_inf_fin ha hb).2).trans (val32_eq_inf ha)
  · obtain ⟨hab, hba⟩ := FloatFormat.mul_inf_fin ha hb hm
    exact ⟨finish32_pack n a b hab, finish32_pack n b a hba⟩
  · exact finish64_pack n a b (FloatFormat.mul_inf_inf ha hb)
  · rintro rfl
    exact (finish64_pack n a b (FloatFormat.add_inf_inf ha hb)).trans (val64_eq_inf ha)
  · exact (finish64_pack n a b (FloatFormat.add_inf_fin ha hb).1).trans (val64_eq_inf ha)
  · exact (finish64_pack n b a (FloatFormat.add_inf_fin ha hb).2).trans (val64_eq_inf ha)
  · obtain ⟨hab, hba⟩ := FloatFormat.mul_inf_fin ha hb hm
    exact ⟨finish64_pack n a b hab, finish64_pack n b a hba⟩
  · exact finish64_pack n a b (FloatFormat.div_inf_fin ha hb).1
  · exact finish64_pack n b a (FloatFormat.div_inf_fin ha hb).2

/-! ### The wrap of a negative value (R104) -/

/-- The exact real remainder, as R104 writes it, is the integer one. -/
theorem intCast_emod_eq (x : ℤ) (d : Nat) : ((x % (d : ℤ) : ℤ) : ℚ) = x - d * ⌊(x : ℚ) / d⌋ := by
  rw [Rat.floor_intCast_div_natCast, Int.emod_def]
  push_cast; rfl

/-- A packed value of sign 0 is never -0.0. -/
theorem val64_signed64_false_ne {p : Nat} (hp : p ≤ binary64.infPattern) : val64 (signed64 false p) ≠ .fin true 0 := by
  rw [signed64_eq_pack, val64_pack false hp]
  split <;> simp

/-- R104 where the value lies outside `[0, TWO_PI)` and has the remainder `x`. -/
theorem wrapQuanta_outside (w : DWord) {v : ℤ} {x : Nat} (hv : ¬(0 ≤ v ∧ v < twoPiQuanta))
    (hx : v % (twoPiQuanta : ℤ) = x) :
    wrapQuanta w v =
      if signed64 false (binary64.round x 1) = twoPi then 0 else signed64 false (binary64.round x 1) := by
  unfold wrapQuanta
  rw [if_neg hv, hx, FloatFormat.roundInt_natCast, ← signed64_eq_pack]
  dsimp only
  rw [if_neg (val64_signed64_false_ne (binary64.round_le x 1))]

/-- R104: -0.0 becomes +0.0. -/
theorem wrap_negZero (n : Nat) {w : DWord} (h : val64 w = .fin true 0) : wrap n w = 0 := by
  have hne : w ≠ twoPi := by
    rintro rfl
    exact absurd h (by decide +kernel)
  have hin : (0 : ℤ) ≤ signedQuanta true 0 ∧ signedQuanta true 0 < twoPiQuanta := by decide +kernel
  simp only [wrap, h, wrapQuanta, if_pos hin, if_neg hne, if_true]

theorem twoPiQuanta_pos : 0 < twoPiQuanta := by decide +kernel

/-- Settles O57: the remainder of `-m` is a natural number of quanta below `TWO_PI`, rounded under the sign 0. -/
theorem wrapOfANegativeIsTheRoundedRemainder : Obligations.WrapOfANegativeIsTheRoundedRemainder := by
  intro n w m h
  have hpos : (0 : ℤ) < twoPiQuanta := Int.natCast_pos.2 twoPiQuanta_pos
  obtain ⟨x, hx⟩ : ∃ x : Nat, -(m : ℤ) % (twoPiQuanta : ℤ) = x :=
    Int.eq_ofNat_of_zero_le (Int.emod_nonneg _ hpos.ne')
  have hlt : x < twoPiQuanta := by
    have := Int.emod_lt_of_pos (-(m : ℤ)) hpos
    omega
  have hrem : (x : ℚ) = -m - twoPiQuanta * ⌊-(m : ℚ) / twoPiQuanta⌋ := by
    have := intCast_emod_eq (-(m : ℤ)) twoPiQuanta
    rw [hx] at this
    exact_mod_cast this
  refine ⟨x, hlt, hrem, ?_, fun h0 => wrap_negZero n (h0 ▸ h)⟩
  rcases Nat.eq_zero_or_pos m with rfl | hm
  · obtain rfl : x = 0 := by rw [Nat.cast_zero, neg_zero, Int.zero_emod] at hx; omega
    rw [wrap_negZero n h, FloatFormat.round_zero]
    decide
  · have hwrap : wrap n w = wrapQuanta w (-(m : ℤ)) := by simp only [wrap, h, signedQuanta, if_true]
    rw [hwrap, wrapQuanta_outside w (by omega) hx]
    rfl

/-! ### Reset (R135) -/

/-- R32, R22: the DL unit is unprepared after reset, with a legal gain and equal delays. -/
theorem DlUnit.reset_inv (p : Config.Params) : DlUnit.reset.Inv p where
  unprepared _ := by decide
  prepared h := absurd h (by decide)
  gain := by decide +kernel
  closed _ := rfl

/-- R38: the increment of the reset frequency and rate, whatever numbers the free values have: neither operation gives a NaN. -/
theorem incr_reset (n : Nat) : incr n PhUnit.reset.freq PhUnit.reset.rate = PhUnit.reset.inc := by
  have hmul : mul64 n twoPi PhUnit.reset.freq = twoPi :=
    congrArg (finish64 n _ _) (show binary64.mul twoPi.toNat PhUnit.reset.freq.toNat = some twoPi.toNat by decide +kernel)
  have hdiv : div64 (n + 1) twoPi PhUnit.reset.rate = PhUnit.reset.inc :=
    congrArg (finish64 (n + 1) _ _)
      (show binary64.div twoPi.toNat PhUnit.reset.rate.toNat = some PhUnit.reset.inc.toNat by decide +kernel)
  rw [incr, hmul, hdiv]

/-- R36 to R40: the PH registers are legal after reset. -/
theorem PhUnit.reset_inv : PhUnit.reset.Inv where
  phase := ⟨0, by decide +kernel, twoPiQuanta_pos⟩
  out := ⟨0, by decide +kernel, by decide +kernel⟩
  freq := by decide +kernel
  rate := by decide +kernel
  inc := incr_reset
  incFinite := by decide +kernel

/-- R136: both memories list no cell after reset, and no history is in use. -/
theorem State.resetWith_memInv (p : Config.Params) : (State.resetWith p).MemInv where
  io := rfl
  hist := rfl
  cleared := Nat.le_refl 0
  depth := Nat.zero_le _

/-- Settles O49, unit by unit. -/
theorem resetMeetsTheInvariant : Obligations.ResetMeetsTheInvariant :=
  fun p hp => ⟨hp, DlUnit.reset_inv p, PhUnit.reset_inv, State.resetWith_memInv p⟩

end Sys2Proof.Machine
end

section
/-! PROOFS. What each command and each step can do, once: an inversion law per command with checks, and the principle by which
every step keeps a predicate. -/

namespace Sys2Proof.Machine

/-! ### What a command can do when it answers a next state (spec/40_delayline.md, spec/41_phasor.md) -/

section
variable {s t : State}

/-- R81: DL_PREPARE records one of three errors, or its checks pass and it sizes, clears and restarts the unit. -/
theorem exec_dlPrepare_cases (h : exec .dlPrepare s = .next t) :
    (∃ e ∈ [ErrCode.invalidBlockSize, .badArgument, .allocFailed], t = s.raiseDl e) ∨
    ∃ cap, cap = capacity s.dl.prepSr.toNat s.dl.prepBs.toNat s.dl.prepMaxd.toNat ∧
      s.dl.prepBs ≠ 0 ∧ s.dl.prepBs.toNat ≤ s.params.maxBlock ∧ s.dl.prepSr ≠ 0 ∧ cap ≤ s.params.histDepth ∧
      t = (s.setHist (s.hist.clear s.params cap)).setDl
        { s.dl with
          sr := s.dl.prepSr, bs := s.dl.prepBs, cap := BitVec.ofNat 32 cap, wpos := 0, curDelay := s.dl.delay,
          prevDelay := s.dl.delay, blockOpen := false, prepared := true } := by
  simp only [exec, execDlPrepare] at h
  split at h
  · cases h; exact .inl ⟨_, by simp, rfl⟩
  split at h
  · cases h; exact .inl ⟨_, by simp, rfl⟩
  split at h
  · cases h; exact .inl ⟨_, by simp, rfl⟩
  · rename_i hbs hsr hcap
    cases h
    obtain ⟨hbs0, hmax⟩ := not_or.1 hbs
    exact .inr ⟨_, rfl, hbs0, Nat.le_of_not_lt hmax, hsr, Nat.le_of_not_lt hcap, rfl⟩

/-- The codes the checks of R82 and R83 answer. -/
theorem blockCheck_mem {ch len : Nat} {e : ErrCode} (h : blockCheck s ch len = some e) :
    e ∈ [ErrCode.notPrepared, .badChannel, .invalidBlockSize] := by
  unfold blockCheck at h
  split at h
  · cases h; simp
  split at h
  · cases h; simp
  split at h
  · cases h; simp
  · cases h

/-- R82: DL_WRITE records an error of its checks, or they pass and it latches the block and runs its loop. -/
theorem exec_dlWrite_cases {ch len : Nat} (h : exec (.dlWrite ch len) s = .next t) :
    (∃ e ∈ [ErrCode.notPrepared, .badChannel, .invalidBlockSize], t = s.raiseDl e) ∨
    s.dl.prepared = true ∧ ch < s.params.numCh ∧ len = s.dl.bs.toNat ∧
      ∃ g, writeBlock (s.setDl s.dl.latch) ch = some g ∧ t = ((s.setDl s.dl.latch).setHist g).take s.dl.bs.toNat := by
  simp only [exec, execDlWrite] at h
  split at h
  · rename_i e he
    cases h; exact .inl ⟨e, blockCheck_mem he, rfl⟩
  · rename_i hok
    obtain ⟨hprep, hch, hlen⟩ := blockCheck_eq_none.1 hok
    split at h
    · rename_i g hg
      cases h; exact .inr ⟨hprep, hch, hlen, g, hg, rfl⟩
    · cases h

/-- R83: DL_READMIX records an error of its checks, or they pass and it latches the block and runs its loop. -/
theorem exec_dlReadmix_cases {ch len : Nat} (h : exec (.dlReadmix ch len) s = .next t) :
    (∃ e ∈ [ErrCode.notPrepared, .badChannel, .invalidBlockSize], t = s.raiseDl e) ∨
    s.dl.prepared = true ∧ ch < s.params.numCh ∧ len = s.dl.bs.toNat ∧
      ∃ m, mixBlock (s.setDl s.dl.latch) ch = some m ∧ t = ((s.setDl s.dl.latch).setIo m).take s.dl.bs.toNat := by
  simp only [exec, execDlReadmix] at h
  split at h
  · rename_i e he
    cases h; exact .inl ⟨e, blockCheck_mem he, rfl⟩
  · rename_i hok
    obtain ⟨hprep, hch, hlen⟩ := blockCheck_eq_none.1 hok
    split at h
    · rename_i m hm
      cases h; exact .inr ⟨hprep, hch, hlen, m, hm, rfl⟩
    · cases h

/-- R84: DL_ADVANCE of an unprepared unit records NotPrepared; of a prepared one it moves the write position. -/
theorem exec_dlAdvance_cases (h : exec .dlAdvance s = .next t) :
    t = s.raiseDl .notPrepared ∨
    s.dl.prepared = true ∧
      t = s.setDl
        { s.dl with
          wpos := BitVec.ofNat 32 ((s.dl.wpos.toNat + s.dl.bs.toNat) % s.dl.cap.toNat), prevDelay := s.dl.curDelay,
          blockOpen := false } := by
  simp only [exec, execDlAdvance] at h
  split at h
  · rename_i hprep
    cases h; exact .inr ⟨hprep, rfl⟩
  · cases h; exact .inl rfl

/-- R105: PH_SETRATE records BadArgument, or stores a legal rate whose increment is not infinite. -/
theorem exec_phSetrate_cases (h : exec .phSetrate s = .next t) :
    t = s.raisePh .badArgument ∨
    rateRefused s.ph.arg = false ∧ (val64 (incr s.freeCount s.ph.freq s.ph.arg)).isInf = false ∧
      t = (s.setPh { s.ph with rate := s.ph.arg, inc := incr s.freeCount s.ph.freq s.ph.arg }).take 2 := by
  simp only [exec, execPhSetrate] at h
  split at h
  · cases h; exact .inl rfl
  split at h
  · cases h; exact .inl rfl
  · rename_i hrate hinf
    cases h; exact .inr ⟨Bool.eq_false_of_not_eq_true hrate, Bool.eq_false_of_not_eq_true hinf, rfl⟩

/-- R106: PH_SETFREQ records BadArgument, or stores a finite frequency whose increment is not infinite. -/
theorem exec_phSetfreq_cases (h : exec .phSetfreq s = .next t) :
    t = s.raisePh .badArgument ∨
    (val64 s.ph.arg).isFinite = true ∧ (val64 (incr s.freeCount s.ph.arg s.ph.rate)).isInf = false ∧
      t = (s.setPh { s.ph with freq := s.ph.arg, inc := incr s.freeCount s.ph.arg s.ph.rate }).take 2 := by
  simp only [exec, execPhSetfreq] at h
  split at h
  · cases h; exact .inl rfl
  split at h
  · cases h; exact .inl rfl
  · rename_i hfin hinf
    cases h; exact .inr ⟨Bool.eq_true_of_not_eq_false hfin, Bool.eq_false_of_not_eq_true hinf, rfl⟩

/-- R107: PH_SETPHASE records BadArgument, or stores the wrap of a finite argument. -/
theorem exec_phSetphase_cases (h : exec .phSetphase s = .next t) :
    t = s.raisePh .badArgument ∨
    (val64 s.ph.arg).isFinite = true ∧
      t = (s.setPh
        { s.ph with
          phase := wrap s.freeCount s.ph.arg, inc := incr (s.freeCount + 1) s.ph.freq s.ph.rate }).take 3 := by
  simp only [exec, execPhSetphase] at h
  split at h
  · cases h; exact .inl rfl
  · rename_i hfin
    cases h; exact .inr ⟨Bool.eq_true_of_not_eq_false hfin, rfl⟩

/-- R116: a PH command leaves the parameters, the DL unit and both memories. -/
theorem exec_phCmd_keeps {i : Instr} (hi : i.cmdReg = .phCmd) (h : exec i s = .next t) :
    t.params = s.params ∧ t.dl = s.dl ∧ t.hist = s.hist ∧ t.io = s.io := by
  cases i with
  | phSetrate => rcases exec_phSetrate_cases h with rfl | ⟨_, _, rfl⟩ <;> exact ⟨rfl, rfl, rfl, rfl⟩
  | phSetfreq => rcases exec_phSetfreq_cases h with rfl | ⟨_, _, rfl⟩ <;> exact ⟨rfl, rfl, rfl, rfl⟩
  | phSetphase => rcases exec_phSetphase_cases h with rfl | ⟨_, rfl⟩ <;> exact ⟨rfl, rfl, rfl, rfl⟩
  | phReset => cases h; exact ⟨rfl, rfl, rfl, rfl⟩
  | phNext => cases h; exact ⟨rfl, rfl, rfl, rfl⟩
  | phClrerr => cases h; exact ⟨rfl, rfl, rfl, rfl⟩
  | _ => cases hi

/-- R116: a DL command leaves the PH unit. -/
theorem exec_dlCmd_keeps_ph {i : Instr} (hi : i.cmdReg = .dlCmd) (h : exec i s = .next t) : t.ph = s.ph := by
  cases i with
  | dlPrepare => rcases exec_dlPrepare_cases h with ⟨e, _, rfl⟩ | ⟨cap, _, _, _, _, _, rfl⟩ <;> rfl
  | dlWrite ch len => rcases exec_dlWrite_cases h with ⟨e, _, rfl⟩ | ⟨_, _, _, g, _, rfl⟩ <;> rfl
  | dlReadmix ch len => rcases exec_dlReadmix_cases h with ⟨e, _, rfl⟩ | ⟨_, _, _, m, _, rfl⟩ <;> rfl
  | dlAdvance => rcases exec_dlAdvance_cases h with rfl | ⟨_, rfl⟩ <;> rfl
  | dlRelease => cases h; rfl
  | dlClrerr => cases h; rfl
  | _ => cases hi

end

/-! ### What a step keeps -/

theorem step_cons {s : State} {e : BusEvent} {rest : List BusEvent} (h : s.pending = e :: rest) :
    step s = service e { s with pending := rest } := by
  simp only [step, h]

/-- A predicate on states that every kind of effect a bus event can have keeps: answering, moving the bus order or the reset
input; the reset event; a register write; an I/O write; an illegal word; a command. -/
structure Kept (P : State → Prop) : Prop where
  interface : ∀ {s : State} (p : List BusEvent) (b : Bool) (r : BusResponse), P s →
    P { s with pending := p, inReset := b, bus := r }
  reset : ∀ {s : State}, P s → P s.resetEvent
  register : ∀ {s : State} (v : Word) (r : Reg), P s → P (writeReg s v r)
  io : ∀ {s : State} (a : Nat) (w : Word), a % 4 = 0 → inIoWindow s.params a = true → P s →
    P (s.setIo (s.io.setWord a w))
  illegal : ∀ {s : State} (r : CmdReg), P s → P (s.raiseIllegal r)
  command : ∀ {i : Instr} {s t : State}, P s → exec i s = .next t → P t

/-- What every effect keeps, every step keeps. -/
theorem Kept.step {P : State → Prop} (k : Kept P) {s t : State} (hs : P s) (h : step s = .next t) : P t := by
  rcases step_cases h with ⟨_, rfl⟩ | ⟨e, rest, _, h⟩
  · exact hs
  have hs' (b : Bool) (r : BusResponse) : P { s with pending := rest, inReset := b, bus := r } :=
    k.interface rest b r hs
  rcases service_cases h with ⟨b, r, rfl⟩ | ⟨_, rfl⟩ | ⟨a, w, r, _, _, rfl⟩ | ⟨a, w, _, h4, hw, rfl⟩ | ⟨r, w, x, _, _, rfl⟩ |
    ⟨r, w, i, _, _, h⟩
  · exact hs' b r
  · exact k.reset (hs' s.inReset s.bus)
  · exact k.register _ r (hs' s.inReset .written)
  · exact k.io _ _ h4 hw (hs' s.inReset .written)
  · exact k.illegal r (hs' s.inReset .written)
  · exact k.command (hs' s.inReset .written) h

end Sys2Proof.Machine
end

section
/-! PROOFS. The invariant of the DL unit (spec/10_state.md R22, R32): every step keeps it. -/

namespace Sys2Proof.Machine

section
variable {p : Config.Params} {d : DlUnit}

/-- An error code, or another value in a register the host writes freely, is no part of the invariant. -/
theorem DlUnit.Inv.withHostWrites (h : d.Inv p) (err : ErrCode) (prepSr prepBs prepMaxd delay : Word) :
    { d with err := err, prepSr := prepSr, prepBs := prepBs, prepMaxd := prepMaxd, delay := delay }.Inv p :=
  ⟨h.unprepared, h.prepared, h.gain, h.closed⟩

theorem DlUnit.Inv.withErr (h : d.Inv p) (err : ErrCode) : { d with err := err }.Inv p :=
  h.withHostWrites err d.prepSr d.prepBs d.prepMaxd d.delay

/-- A prepared unit's capacity is not 0. -/
theorem DlUnit.Inv.cap_pos (h : d.Inv p) (hprep : d.prepared = true) : 0 < d.cap.toNat := by
  obtain ⟨_, hbs, _, hcap, _⟩ := h.prepared hprep
  omega

/-- A capacity within `HIST_DEPTH` fits its register. -/
theorem toNat_ofNat_capacity (hp : p.Legal) {cap : Nat} (hcap : cap ≤ p.histDepth) :
    (BitVec.ofNat 32 cap).toNat = cap := by
  obtain ⟨_, _, _, _, _, hdepth, _⟩ := hp
  rw [BitVec.toNat_ofNat, Nat.mod_eq_of_lt (by omega)]

/-- R32 after the checks of R81: what DL_PREPARE makes of a unit. -/
theorem DlUnit.Inv.prepare (h : d.Inv p) (hp : p.Legal) {cap : Nat}
    (hcap : cap = capacity d.prepSr.toNat d.prepBs.toNat d.prepMaxd.toNat) (hbs : d.prepBs ≠ 0)
    (hmax : d.prepBs.toNat ≤ p.maxBlock) (hsr : d.prepSr ≠ 0) (hdepth : cap ≤ p.histDepth) :
    { d with
      sr := d.prepSr, bs := d.prepBs, cap := BitVec.ofNat 32 cap, wpos := 0, curDelay := d.delay,
      prevDelay := d.delay, blockOpen := false, prepared := true }.Inv p where
  unprepared hu := by cases hu
  prepared _ := by
    have hbs1 : d.prepBs.toNat ≠ 0 := fun h0 => hbs (BitVec.eq_of_toNat_eq h0)
    have hsr1 : d.prepSr.toNat ≠ 0 := fun h0 => hsr (BitVec.eq_of_toNat_eq h0)
    have hle : d.prepBs.toNat ≤ cap := by rw [hcap, capacity]; omega
    dsimp only [DlUnit.InvPrepared]
    rw [toNat_ofNat_capacity hp hdepth]
    exact ⟨by omega, by omega, hmax, hle, hdepth, lt_of_lt_of_le (Nat.pos_of_ne_zero hbs1) hle, d.prepMaxd, hcap⟩
  gain := h.gain
  closed _ := rfl

/-- R80: the latch opens the block, so nothing is asked of the delays. -/
theorem DlUnit.Inv.latch (h : d.Inv p) (hprep : d.prepared = true) : d.latch.Inv p where
  unprepared hu := by rw [latch_prepared, hprep] at hu; cases hu
  prepared _ := by simpa [DlUnit.InvPrepared] using h.prepared hprep
  gain := by simpa using h.gain
  closed hc := by rw [latch_blockOpen] at hc; cases hc

/-- R84: the position moves modulo the capacity, and the delays become equal. -/
theorem DlUnit.Inv.advance (h : d.Inv p) (hprep : d.prepared = true) :
    { d with
      wpos := BitVec.ofNat 32 ((d.wpos.toNat + d.bs.toNat) % d.cap.toNat), prevDelay := d.curDelay,
      blockOpen := false }.Inv p where
  unprepared hu := by rw [show d.prepared = false from hu] at hprep; cases hprep
  prepared _ := by
    obtain ⟨hsr, hbs, hmax, hle, hdepth, _, hm⟩ := h.prepared hprep
    have hpos := h.cap_pos hprep
    refine ⟨hsr, hbs, hmax, hle, hdepth, ?_, hm⟩
    rw [toNat_ofNat_mod hpos]
    exact Nat.mod_lt _ hpos
  gain := h.gain
  closed _ := rfl

/-- R85: a released unit is unprepared, with its registers 0. -/
theorem DlUnit.Inv.release (h : d.Inv p) :
    { d with
      sr := 0, bs := 0, cap := 0, wpos := 0, curDelay := 0, prevDelay := 0, blockOpen := false,
      prepared := false }.Inv p where
  unprepared _ := ⟨rfl, rfl, rfl, rfl, rfl⟩
  prepared hu := by cases hu
  gain := h.gain
  closed _ := rfl

end

section
variable {s t : State}

/-- R22, R88: a register write keeps the invariant, `DL_GAIN` being checked. -/
theorem writeReg_keeps_dlInv (v : Word) (r : Reg) (h : s.dl.Inv s.params) :
    (writeReg s v r).dl.Inv (writeReg s v r).params := by
  cases r with
  | dlPrepSr => exact h.withHostWrites s.dl.err v s.dl.prepBs s.dl.prepMaxd s.dl.delay
  | dlPrepBs => exact h.withHostWrites s.dl.err s.dl.prepSr v s.dl.prepMaxd s.dl.delay
  | dlPrepMaxd => exact h.withHostWrites s.dl.err s.dl.prepSr s.dl.prepBs v s.dl.delay
  | dlDelay => exact h.withHostWrites s.dl.err s.dl.prepSr s.dl.prepBs s.dl.prepMaxd v
  | dlGain =>
    simp only [writeReg, State.writeGain]
    split
    · rename_i hlegal
      exact ⟨h.unprepared, h.prepared, hlegal, h.closed⟩
    · exact h.withErr _
  | _ => exact h

/-- Every command keeps the invariant. -/
theorem exec_keeps_dlInv {i : Instr} (hp : s.params.Legal) (h : s.dl.Inv s.params) (hx : exec i s = .next t) :
    t.dl.Inv t.params := by
  cases i with
  | dlPrepare =>
    rcases exec_dlPrepare_cases hx with ⟨e, _, rfl⟩ | ⟨cap, hcap, hbs, hmax, hsr, hdepth, rfl⟩
    · exact h.withErr _
    · exact h.prepare hp hcap hbs hmax hsr hdepth
  | dlWrite ch len =>
    rcases exec_dlWrite_cases hx with ⟨e, _, rfl⟩ | ⟨hprep, _, _, g, _, rfl⟩
    · exact h.withErr _
    · exact h.latch hprep
  | dlReadmix ch len =>
    rcases exec_dlReadmix_cases hx with ⟨e, _, rfl⟩ | ⟨hprep, _, _, m, _, rfl⟩
    · exact h.withErr _
    · exact h.latch hprep
  | dlAdvance =>
    rcases exec_dlAdvance_cases hx with rfl | ⟨hprep, rfl⟩
    · exact h.withErr _
    · exact h.advance hprep
  | dlRelease => cases hx; exact h.release
  | dlClrerr => cases hx; exact h.withErr _
  | _ =>
    obtain ⟨hparams, hdl, _, _⟩ := exec_phCmd_keeps rfl hx
    rw [hparams, hdl]
    exact h

end

theorem writeReg_params (s : State) (v : Word) (r : Reg) : (writeReg s v r).params = s.params := by
  cases r with
  | dlGain => simp only [writeReg, State.writeGain]; split <;> rfl
  | _ => rfl

theorem raiseIllegal_params (s : State) (r : CmdReg) : (s.raiseIllegal r).params = s.params := by cases r <;> rfl

/-- Legal parameters and the DL invariant are kept together: the parameters never change. -/
theorem dlInv_kept : Kept fun s => s.params.Legal ∧ s.dl.Inv s.params where
  interface _ _ _ h := h
  reset := fun {s} h => ⟨h.1, DlUnit.reset_inv s.params⟩
  register := fun {s} v r h => ⟨writeReg_params s v r ▸ h.1, writeReg_keeps_dlInv v r h.2⟩
  io _ _ _ _ h := h
  illegal r h := by
    cases r with
    | dlCmd => exact ⟨h.1, h.2.withErr _⟩
    | phCmd => exact h
  command h hx := ⟨(exec_keeps_interface hx).1 ▸ h.1, exec_keeps_dlInv h.1 h.2 hx⟩

/-- Settles O46: every effect of a step keeps the invariant. -/
theorem dlInvariantIsKept : Obligations.DlInvariantIsKept :=
  fun _ _ hp hd h => (dlInv_kept.step ⟨hp, hd⟩ h).2

end Sys2Proof.Machine
end

section
/-! PROOFS. The phasor (spec/41_phasor.md): the range of `wrap`, of the output and of the increment, and the invariant of the PH
unit (spec/10_state.md R36 to R40), which every step keeps. -/

namespace Sys2Proof.Machine

/-! ### Finite results -/

theorem FloatVal.isFinite_iff {v : FloatVal} : v.isFinite = true ↔ ∃ neg m, v = .fin neg m := by
  cases v <;> simp [FloatVal.isFinite]

/-- A packed pattern is no NaN: what is not infinite is finite. -/
theorem isFinite_signed64 {neg : Bool} {p : Nat} (hp : p ≤ binary64.infPattern)
    (hinf : (val64 (signed64 neg p)).isInf = false) : (val64 (signed64 neg p)).isFinite = true := by
  rw [signed64_eq_pack, val64_pack neg hp] at hinf ⊢
  split at hinf
  · cases hinf
  · rename_i hne
    rw [if_neg hne]; rfl

theorem val64_signed64_fin {neg : Bool} {p : Nat} (hp : p < binary64.infPattern) :
    val64 (signed64 neg p) = .fin neg (binary64.quanta p) := by
  rw [signed64_eq_pack, val64_pack neg hp.le, if_neg hp.ne]

theorem val64_twoPi : val64 twoPi = .fin false twoPiQuanta := by decide +kernel

theorem val64_piD : val64 piD = .fin false (binary64.quanta piD.toNat) := by decide +kernel

theorem FloatFormat.quanta_le_quanta_pred (f : FloatFormat) {p q : Nat} (h : p < q) : f.quanta p ≤ f.quanta (q - 1) :=
  f.quanta_strictMono.monotone (Nat.le_sub_one_of_lt h)

/-- A finite pattern of sign 0 below another pattern's quanta is the smaller pattern. -/
theorem val64_eq_fin_false_lt {w : DWord} {m q : Nat} (h : val64 w = .fin false m) (hm : m < binary64.quanta q) :
    ∃ p, p < q ∧ w = signed64 false p ∧ m = binary64.quanta p := by
  obtain ⟨p, _, hw, hmp⟩ := val64_eq_fin h
  exact ⟨p, binary64.quanta_strictMono.lt_iff_lt.1 (hmp ▸ hm), hw, hmp⟩

/-! ### The wrap (R104) -/

/-- R104: a value of sign 0 in `[0, TWO_PI)` is kept. -/
theorem wrap_of_lt_twoPi (n : Nat) {w : DWord} {m : Nat} (h : val64 w = .fin false m) (hm : m < twoPiQuanta) :
    wrap n w = w := by
  have hne : w ≠ twoPi := by
    rintro rfl
    exact hm.ne' (FloatVal.fin.inj (val64_twoPi.symm.trans h)).2
  have hin : (0 : ℤ) ≤ signedQuanta false m ∧ signedQuanta false m < twoPiQuanta :=
    ⟨Int.natCast_nonneg m, Int.ofNat_lt.2 hm⟩
  have hpos : FloatVal.fin false m ≠ .fin true 0 := by simp
  simp only [wrap, wrapQuanta, h, if_pos hin, if_neg hne, if_neg hpos]

/-- R104: a remainder in `[0, TWO_PI)` rounds no higher than to `TWO_PI`, which becomes +0.0. -/
theorem phaseInRange_rounded {x : Nat} (hx : x < twoPiQuanta) :
    phaseInRange (if signed64 false (binary64.round x 1) = twoPi then 0 else signed64 false (binary64.round x 1)) := by
  have hle : binary64.round x 1 ≤ twoPi.toNat :=
    calc binary64.round x 1 ≤ binary64.round (binary64.quanta twoPi.toNat) 1 := binary64.round_mono 1 hx.le
      _ = twoPi.toNat := (roundingIsToNearestEven binary64 (.inr rfl)).2.2 _ (by decide)
  split
  · exact ⟨0, by decide +kernel, twoPiQuanta_pos⟩
  · rename_i hne
    have hlt : binary64.round x 1 < twoPi.toNat := lt_of_le_of_ne hle fun heq => hne (heq ▸ rfl)
    have hinf : twoPi.toNat < binary64.infPattern := by decide
    exact ⟨_, val64_signed64_fin (hlt.trans hinf), binary64.quanta_strictMono hlt⟩

/-- Settles O39: a finite value lies in the range, is -0.0, or has its remainder rounded. -/
theorem wrapStaysInTheCycle : Obligations.WrapStaysInTheCycle := by
  intro n w neg m h
  refine ⟨?_, fun hneg hm => wrap_of_lt_twoPi n (hneg ▸ h) hm⟩
  by_cases hin : 0 ≤ signedQuanta neg m ∧ signedQuanta neg m < twoPiQuanta
  · cases neg with
    | false =>
      have hm : m < twoPiQuanta := Int.ofNat_lt.1 hin.2
      rw [wrap_of_lt_twoPi n h hm]
      exact ⟨m, h, hm⟩
    | true =>
      obtain rfl : m = 0 := by simpa [signedQuanta] using hin.1
      rw [wrap_negZero n h]
      exact ⟨0, by decide +kernel, twoPiQuanta_pos⟩
  · have hpos : (0 : ℤ) < twoPiQuanta := Int.natCast_pos.2 twoPiQuanta_pos
    obtain ⟨x, hx⟩ := Int.eq_ofNat_of_zero_le (Int.emod_nonneg (signedQuanta neg m) hpos.ne')
    have hlt := Int.emod_lt_of_pos (signedQuanta neg m) hpos
    rw [hx, Int.ofNat_lt] at hlt
    have hwrap : wrap n w = wrapQuanta w (signedQuanta neg m) := by simp only [wrap, h]
    rw [hwrap, wrapQuanta_outside w hin hx]
    exact phaseInRange_rounded hlt

/-! ### The increment (R103) -/

/-- R103: the increment of a finite frequency and a legal rate is no NaN, so it is the same whatever the free values are. -/
theorem incr_eq_signed64 {f r : DWord} (hf : (val64 f).isFinite = true) (hr : rateRefused r = false) :
    ∃ neg p, p ≤ binary64.infPattern ∧ ∀ n, incr n f r = signed64 neg p := by
  obtain ⟨nf, mf, hf⟩ := FloatVal.isFinite_iff.1 hf
  obtain ⟨nr, mr, hr, hmr⟩ : ∃ nr mr, val64 r = .fin nr mr ∧ mr ≠ 0 := by
    unfold rateRefused at hr
    split at hr
    · cases hr
    · cases hr
    · rename_i nr mr hv
      exact ⟨nr, mr, hv, by simpa using (Bool.or_eq_false_iff.1 hr).2⟩
  obtain ⟨neg, q, hq, hmul⟩ : ∃ neg q, q ≤ binary64.infPattern ∧ ∀ n, mul64 n twoPi f = signed64 neg q :=
    ⟨_, _, binary64.round_le _ _, fun n => finish64_pack n _ _ (FloatFormat.mul_fin_fin val64_twoPi hf)⟩
  have hincr (n : Nat) : incr n f r = div64 (n + 1) (signed64 neg q) r := by rw [incr, hmul]
  have hval := val64_pack neg hq
  rw [← signed64_eq_pack] at hval
  split at hval
  · exact ⟨_, _, le_rfl, fun n => (hincr n).trans (finish64_pack (n + 1) _ _ (FloatFormat.div_inf_fin hval hr).1)⟩
  · exact ⟨_, _, binary64.round_le _ _, fun n =>
      (hincr n).trans (finish64_pack (n + 1) _ _ (FloatFormat.div_fin_fin hval hr hmr))⟩

/-- R105, R106: an increment that is not refused meets its clauses of the invariant. -/
theorem incr_legal {f r : DWord} (hf : (val64 f).isFinite = true) (hr : rateRefused r = false) {k : Nat}
    (hinf : (val64 (incr k f r)).isInf = false) :
    (∀ n, incr n f r = incr k f r) ∧ (val64 (incr k f r)).isFinite = true := by
  obtain ⟨neg, p, hp, hincr⟩ := incr_eq_signed64 hf hr
  rw [hincr k] at hinf ⊢
  exact ⟨hincr, isFinite_signed64 hp hinf⟩

/-! ### One sample (R109) -/

/-- A magnitude of less than `TWO_PI` above a finite one does not overflow: half a place there is far more than `TWO_PI`. -/
theorem round_lt_infPattern {z : Nat} (hz : z < binary64.quanta (binary64.infPattern - 1) + twoPiQuanta) :
    binary64.round z 1 < binary64.infPattern := by
  refine lt_of_le_of_ne (binary64.round_le z 1) fun hover => ?_
  have hhalf := ((roundingIsToNearestEven binary64 (.inr rfl)).2.1 z 1 Nat.one_pos).1 hover
  have hroom : binary64.quanta (binary64.infPattern - 1) + 2 * twoPiQuanta ≤ binary64.quanta binary64.infPattern := by
    decide +kernel
  have hz' : (z : ℚ) < binary64.quanta (binary64.infPattern - 1) + twoPiQuanta := by exact_mod_cast hz
  have hroom' : (binary64.quanta (binary64.infPattern - 1) : ℚ) + 2 * twoPiQuanta ≤
      binary64.quanta binary64.infPattern := by exact_mod_cast hroom
  rw [Nat.cast_one, div_one] at hhalf
  linarith

/-- R117: the phase plus the increment is finite. -/
theorem add64_phase_finite (n : Nat) {w i : DWord} (hw : phaseInRange w) (hi : (val64 i).isFinite = true) :
    ∃ neg m, val64 (add64 n w i) = .fin neg m := by
  obtain ⟨mw, hw, hmw⟩ := hw
  obtain ⟨ni, mi, hi⟩ := FloatVal.isFinite_iff.1 hi
  obtain ⟨p, hp, _, hmi⟩ := val64_eq_fin hi
  have hmax : mi ≤ binary64.quanta (binary64.infPattern - 1) := hmi.trans_le (binary64.quanta_le_quanta_pred hp)
  by_cases hz : signedQuanta false mw + signedQuanta ni mi = 0
  · rw [add64, finish64_pack n _ _ (FloatFormat.add_fin_fin_of_eq_zero hw hi hz)]
    exact ⟨_, _, val64_signed64_fin (by decide)⟩
  · rw [add64, finish64_pack n _ _ (FloatFormat.add_fin_fin_of_ne_zero hw hi hz)]
    refine ⟨_, _, val64_signed64_fin (round_lt_infPattern ?_)⟩
    have : (signedQuanta false mw + signedQuanta ni mi).natAbs ≤ mw + mi := by
      cases ni <;> simp only [signedQuanta, if_true, Bool.false_eq_true, if_false] <;> omega
    omega

/-- R112: the largest phase over `PI_D` rounds to the pattern below 2.0. -/
theorem outInRange_div_piD (n : Nat) {w : DWord} (hw : phaseInRange w) : outInRange (div64 n w piD) := by
  obtain ⟨m, hw, hm⟩ := hw
  obtain ⟨p, hp, _, hmp⟩ := val64_eq_fin_false_lt hw (q := twoPi.toNat) hm
  have hmax : m ≤ binary64.quanta (twoPi.toNat - 1) := hmp.trans_le (binary64.quanta_le_quanta_pred hp)
  have hround : binary64.round (m * binary64.one) (binary64.quanta piD.toNat) ≤ 0x3FFFFFFFFFFFFFFF :=
    (binary64.round_mono _ (Nat.mul_le_mul_right _ hmax)).trans (by decide +kernel)
  have hinf : 0x3FFFFFFFFFFFFFFF < binary64.infPattern := by decide
  rw [div64, finish64_pack n _ _ (FloatFormat.div_fin_fin hw val64_piD (by decide +kernel))]
  exact ⟨_, val64_signed64_fin (hround.trans_lt hinf),
    (binary64.quanta_strictMono.monotone hround).trans_lt (by decide +kernel)⟩

/-! ### The invariant -/

section
variable {s t : State} {u : PhUnit}

/-- Neither an error code nor the argument register is a part of the invariant. -/
theorem PhUnit.Inv.withHostWrites (h : u.Inv) (err : ErrCode) (arg : DWord) : { u with err := err, arg := arg }.Inv :=
  ⟨h.phase, h.out, h.freq, h.rate, h.inc, h.incFinite⟩

theorem PhUnit.Inv.withErr (h : u.Inv) (err : ErrCode) : { u with err := err }.Inv := h.withHostWrites err u.arg

/-- A phase in its range, with the increment of the same frequency and rate. -/
theorem PhUnit.Inv.withPhase (h : u.Inv) {w : DWord} (hw : phaseInRange w) : { u with phase := w }.Inv :=
  ⟨hw, h.out, h.freq, h.rate, h.inc, h.incFinite⟩

/-- R107: a finite argument, wrapped, is a legal phase. -/
theorem phaseInRange_wrap (n : Nat) {w : DWord} (h : (val64 w).isFinite = true) : phaseInRange (wrap n w) := by
  obtain ⟨neg, m, hw⟩ := FloatVal.isFinite_iff.1 h
  exact (wrapStaysInTheCycle n w neg m hw).1

/-- R109: one sample keeps the invariant. -/
theorem PhUnit.Inv.next (h : u.Inv) (a b c : Nat) :
    { u with out := div64 a u.phase piD, phase := wrap b (add64 c u.phase u.inc) }.Inv :=
  have hsum := FloatVal.isFinite_iff.2 (add64_phase_finite c h.phase h.incFinite)
  ⟨phaseInRange_wrap b hsum, outInRange_div_piD a h.phase, h.freq, h.rate, h.inc, h.incFinite⟩

/-- Every command keeps the invariant. -/
theorem exec_keeps_phInv {i : Instr} (h : s.ph.Inv) (hx : exec i s = .next t) : t.ph.Inv := by
  cases i with
  | phSetrate =>
    rcases exec_phSetrate_cases hx with rfl | ⟨hrate, hinf, rfl⟩
    · exact h.withErr _
    · obtain ⟨hinc, hfin⟩ := incr_legal h.freq hrate hinf
      exact ⟨h.phase, h.out, h.freq, hrate, hinc, hfin⟩
  | phSetfreq =>
    rcases exec_phSetfreq_cases hx with rfl | ⟨hfreq, hinf, rfl⟩
    · exact h.withErr _
    · obtain ⟨hinc, hfin⟩ := incr_legal hfreq h.rate hinf
      exact ⟨h.phase, h.out, hfreq, h.rate, hinc, hfin⟩
  | phSetphase =>
    rcases exec_phSetphase_cases hx with rfl | ⟨harg, rfl⟩
    · exact h.withErr _
    · rw [h.inc]
      exact h.withPhase (phaseInRange_wrap _ harg)
  | phReset => cases hx; exact h.withPhase ⟨0, by decide +kernel, twoPiQuanta_pos⟩
  | phNext => cases hx; exact h.next _ _ _
  | phClrerr => cases hx; exact h.withErr _
  | _ => exact exec_dlCmd_keeps_ph rfl hx ▸ h

end

theorem phInv_kept : Kept fun s => s.ph.Inv where
  interface _ _ _ h := h
  reset _ := PhUnit.reset_inv
  register := fun {s} v r h => by
    cases r with
    | phArgLo => exact h.withHostWrites s.ph.err _
    | phArgHi => exact h.withHostWrites s.ph.err _
    | dlGain => simp only [writeReg, State.writeGain]; split <;> exact h
    | _ => exact h
  io _ _ _ _ h := h
  illegal r h := by
    cases r with
    | dlCmd => exact h
    | phCmd => exact h.withErr _
  command := exec_keeps_phInv

/-- Settles O47: every effect of a step keeps the invariant. -/
theorem phInvariantIsKept : Obligations.PhInvariantIsKept := fun _ _ h hx => phInv_kept.step h hx

/-- Settles O36: under R38's invariant the increment computed again is the one held. -/
theorem setphaseStoresTheWrappedPhase : Obligations.SetphaseStoresTheWrappedPhase := by
  intro s
  refine ⟨fun hfin => ?_, fun hfin hinv => ?_⟩
  · have hfalse : (val64 s.ph.arg).isFinite = false := Bool.eq_false_of_not_eq_true (mt FloatVal.isFinite_iff.1 hfin)
    exact if_pos hfalse
  · have htrue : ¬(val64 s.ph.arg).isFinite = false := by simp [FloatVal.isFinite_iff.2 hfin]
    simp only [exec, execPhSetphase, if_neg htrue, hinv.inc]
    rfl

end Sys2Proof.Machine
end

section
/-! PROOFS. The memories (spec/10_state.md R30, R31, R54): every step keeps their canonical form and the in-use history cleared,
and nothing depends on the history content left unspecified after reset (R136). -/

namespace Sys2Proof.Machine

/-! ### Canonical form -/

section
variable {s t : State} {ch : Nat}

/-- The memories' form speaks of the memories, the parameters and the capacity alone. -/
theorem State.MemInv.congr (h : s.MemInv) (hparams : t.params = s.params) (hcap : t.dl.cap = s.dl.cap)
    (hhist : t.hist = s.hist) (hio : t.io = s.io) : t.MemInv :=
  ⟨by rw [hparams, hio]; exact h.io, by rw [hparams, hhist]; exact h.hist, by rw [hcap, hhist]; exact h.cleared,
    by rw [hparams, hhist]; exact h.depth⟩

/-- R80: the latch leaves the capacity. -/
theorem State.MemInv.latch (h : s.MemInv) : (s.setDl s.dl.latch).MemInv :=
  h.congr rfl s.dl.latch_cap rfl rfl

/-- A prepared unit's capacity, latched or not, lies in the history and in what has been cleared since reset. -/
theorem latched_cap_bounds (hd : s.dl.Inv s.params) (hm : s.MemInv) (hprep : s.dl.prepared = true) :
    0 < s.dl.latch.cap.toNat ∧ s.dl.latch.cap.toNat ≤ s.params.histDepth ∧ s.dl.latch.cap.toNat ≤ s.hist.init := by
  obtain ⟨_, _, _, _, hdepth, _⟩ := hd.prepared hprep
  rw [DlUnit.latch_cap]
  exact ⟨hd.cap_pos hprep, hdepth, hm.cleared⟩

/-- R82's loop writes elements of a channel of the machine that have been cleared: the canonical form is kept. -/
theorem writeBlock_wf {g : History} (hwf : s.hist.wf s.params = true) (hch : ch < s.params.numCh)
    (hpos : 0 < s.dl.cap.toNat) (hdepth : s.dl.cap.toNat ≤ s.params.histDepth)
    (hinit : s.dl.cap.toNat ≤ s.hist.init) (hg : writeBlock s ch = some g) : g.wf s.params = true := by
  have hkeep : g.wf s.params = true ∧ g.init = s.hist.init := by
    refine forUpTo_keeps (fun g : History => g.wf s.params = true ∧ g.init = s.hist.init) ⟨hwf, rfl⟩ ?_ hg
    rintro k b c _ ⟨hb, hbi⟩ hc
    split at hc
    · cases hc
      have hlt := s.dl.writeIndex_lt k hpos
      exact ⟨History.wf_setElem _ _ hb hch (hlt.trans_le hdepth) (hlt.trans_le (hbi ▸ hinit)), by simpa using hbi⟩
    · cases hc
  exact hkeep.1

/-- R83's loop writes whole words inside the window: the buffers' form is kept. -/
theorem mixBlock_ioWf {m : Memory} (hwf : ioWf s.params s.io = true) (hch : ch < s.params.numCh)
    (hmax : s.dl.bs.toNat ≤ s.params.maxBlock) (hm : mixBlock s ch = some m) : ioWf s.params m = true := by
  refine forUpTo_keeps (fun m => ioWf s.params m = true) hwf ?_ hm
  intro k b c hk hb hc
  split at hc
  · cases hc
    exact ioWf_setWord _ _ hb (ioAddr_aligned _ _ _) fun i hi => inIoWindow_ioAddr _ hch (by omega) hi
  · cases hc

/-- Every command keeps the memories' canonical form. -/
theorem exec_keeps_memInv {i : Instr} (hp : s.params.Legal) (hd : s.dl.Inv s.params) (h : s.MemInv)
    (hx : exec i s = .next t) : t.MemInv := by
  cases i with
  | dlPrepare =>
    rcases exec_dlPrepare_cases hx with ⟨e, _, rfl⟩ | ⟨cap, _, _, _, _, hdepth, rfl⟩
    · exact h.congr rfl rfl rfl rfl
    · refine ⟨h.io, History.wf_clear _ _ h.hist, ?_, max_le h.depth hdepth⟩
      exact (toNat_ofNat_capacity hp hdepth).trans_le (le_max_right _ _)
  | dlWrite ch len =>
    rcases exec_dlWrite_cases hx with ⟨e, _, rfl⟩ | ⟨hprep, hch, _, g, hg, rfl⟩
    · exact h.congr rfl rfl rfl rfl
    · obtain ⟨hpos, hdepth, hinit⟩ := latched_cap_bounds hd h hprep
      have hginit : g.init = s.hist.init := (writeBlock_keeps hg).1
      have hgwf : g.wf s.params = true := writeBlock_wf (s := s.setDl s.dl.latch) h.hist hch hpos hdepth hinit hg
      exact ⟨h.io, hgwf, hginit ▸ h.latch.cleared, hginit ▸ h.depth⟩
  | dlReadmix ch len =>
    rcases exec_dlReadmix_cases hx with ⟨e, _, rfl⟩ | ⟨hprep, hch, _, m, hm, rfl⟩
    · exact h.congr rfl rfl rfl rfl
    · obtain ⟨_, _, hmax, _⟩ := hd.prepared hprep
      have hmwf : ioWf s.params m = true :=
        mixBlock_ioWf (s := s.setDl s.dl.latch) h.io hch (by simpa using hmax) hm
      exact ⟨hmwf, h.hist, h.latch.cleared, h.depth⟩
  | dlAdvance => rcases exec_dlAdvance_cases hx with rfl | ⟨_, rfl⟩ <;> exact h.congr rfl rfl rfl rfl
  | dlRelease =>
    cases hx
    exact ⟨h.io, History.wf_clear _ _ h.hist, Nat.zero_le _, max_le h.depth (h.cleared.trans h.depth)⟩
  | dlClrerr => cases hx; exact h.congr rfl rfl rfl rfl
  | _ =>
    obtain ⟨hparams, hdl, hhist, hio⟩ := exec_phCmd_keeps rfl hx
    exact h.congr hparams (congrArg DlUnit.cap hdl) hhist hio

/-- A register write reaches neither a memory nor the capacity. -/
theorem writeReg_keeps_memInv (v : Word) (r : Reg) (h : s.MemInv) : (writeReg s v r).MemInv := by
  cases r with
  | dlGain => simp only [writeReg, State.writeGain]; split <;> exact h.congr rfl rfl rfl rfl
  | _ => exact h.congr rfl rfl rfl rfl

end

/-- The memories' form is kept beside the DL invariant, which bounds what the block commands reach. -/
theorem memInv_kept : Kept fun s => (s.params.Legal ∧ s.dl.Inv s.params) ∧ s.MemInv where
  interface p b r h := ⟨dlInv_kept.interface p b r h.1, h.2.congr rfl rfl rfl rfl⟩
  reset := fun {s} h =>
    have hm := State.resetWith_memInv s.params
    ⟨dlInv_kept.reset h.1, hm.io, hm.hist, hm.cleared, hm.depth⟩
  register v r h := ⟨dlInv_kept.register v r h.1, writeReg_keeps_memInv v r h.2⟩
  io a w h4 hw h :=
    ⟨dlInv_kept.io a w h4 hw h.1, ioWf_setWord w a h.2.io h4 fun _ hk => inIoWindow_word _ h4 hw hk, h.2.hist, h.2.cleared,
      h.2.depth⟩
  illegal r h :=
    ⟨dlInv_kept.illegal r h.1, by cases r <;> exact h.2.congr rfl rfl rfl rfl⟩
  command h hx := ⟨dlInv_kept.command h.1 hx, exec_keeps_memInv h.1.1 h.1.2 h.2 hx⟩

/-- Settles O48: every effect of a step keeps the form, the DL invariant beside it. -/
theorem memoryInvariantIsKept : Obligations.MemoryInvariantIsKept :=
  fun _ _ hp hd hm h => (memInv_kept.step ⟨⟨hp, hd⟩, hm⟩ h).2

/-! ### Other unspecified content (R136) -/

/-- The machine with other unspecified history content. -/
def State.reseed (s : State) (n : Nat) : State := s.setHist { s.hist with seed := n }

/-- An outcome with other unspecified history content in its state. -/
def reseedNext (n : Nat) : Host.Outcome State Fault Refusal → Host.Outcome State Fault Refusal
  | .next s => .next (s.reseed n)
  | .fault r => .fault r
  | .refused r => .refused r

section
variable (s : State) (n : Nat)

@[simp] theorem State.reseed_params : (s.reseed n).params = s.params := rfl
@[simp] theorem State.reseed_dl : (s.reseed n).dl = s.dl := rfl
@[simp] theorem State.reseed_ph : (s.reseed n).ph = s.ph := rfl
@[simp] theorem State.reseed_io : (s.reseed n).io = s.io := rfl
@[simp] theorem State.reseed_hist : (s.reseed n).hist = { s.hist with seed := n } := rfl
@[simp] theorem State.reseed_inReset : (s.reseed n).inReset = s.inReset := rfl
@[simp] theorem State.reseed_freeCount : (s.reseed n).freeCount = s.freeCount := rfl

theorem reseedNext_ite (c : Prop) [Decidable c] (a b : Host.Outcome State Fault Refusal) :
    reseedNext n (if c then a else b) = if c then reseedNext n a else reseedNext n b := apply_ite _ _ _ _

end

section
variable {p : Config.Params} {h : History} (n : Nat)

/-- Writing a byte asks how much is cleared, not what the rest holds. -/
theorem History.setByte_seed_update (a : Nat) (b : Byte) :
    { h with seed := n }.setByte p a b = { h.setByte p a b with seed := n } := by
  unfold History.setByte
  split <;> rfl

theorem History.setElem_seed_update (c i : Nat) (w : Word) :
    { h with seed := n }.setElem p c i w = { h.setElem p c i w with seed := n } := by
  simp only [History.setElem, History.setWord, History.setByte_seed_update]

/-- A cleared byte does not depend on the free content. -/
theorem History.byte_seed_update {a : Nat} (ha : histIndex p a < h.init) :
    { h with seed := n }.byte p a = h.byte p a := by
  simp only [History.byte, History.unlisted, if_pos ha]

/-- A cleared element does not depend on the free content. -/
theorem History.elem_seed_update {c i : Nat} (hd : i < p.histDepth) (hi : i < h.init) :
    { h with seed := n }.elem p c i = h.elem p c i :=
  History.elem_congr p fun k hk => History.byte_seed_update n (by rwa [histIndex_histAddr p hd hk])

end

/-- A loop's turns that each commute with an update commute with it together. -/
theorem forUpTo_commutes {α : Type} {k : Nat} {f g : Nat → α → Option α} {φ : α → α} {a : α}
    (hs : ∀ j b, j < k → g j (φ b) = (f j b).map φ) : forUpTo k g (φ a) = (forUpTo k f a).map φ := by
  induction k with
  | zero => rfl
  | succ k ih =>
    unfold forUpTo
    rw [ih fun j b hj => hs j b (by omega)]
    cases forUpTo k f a with
    | none => rfl
    | some b => exact hs k b (by omega)

/-- Loops whose turns agree are equal. -/
theorem forUpTo_congr {α : Type} {k : Nat} {f g : Nat → α → Option α} {a : α} (hs : ∀ j b, j < k → g j b = f j b) :
    forUpTo k g a = forUpTo k f a := by
  have := forUpTo_commutes (φ := id) (f := f) (g := g) (a := a) fun j b hj => by simpa using hs j b hj
  simpa using this

section
variable {s : State} (n : Nat)

/-- R82's loop carries the free content along. -/
theorem writeBlock_reseed (ch : Nat) :
    writeBlock (s.reseed n) ch = (writeBlock s ch).map fun g => { g with seed := n } := by
  refine forUpTo_commutes (φ := fun g : History => { g with seed := n }) fun j g _ => ?_
  simp only [State.reseed_io, State.reseed_params, State.reseed_dl, State.reseed_freeCount, History.setElem_seed_update]
  split <;> rfl

/-- R83's loop reads cleared elements only. -/
theorem mixBlock_reseed (hpos : 0 < s.dl.cap.toNat) (hdepth : s.dl.cap.toNat ≤ s.params.histDepth)
    (hinit : s.dl.cap.toNat ≤ s.hist.init) (ch : Nat) : mixBlock (s.reseed n) ch = mixBlock s ch := by
  refine forUpTo_congr fun j m _ => ?_
  have hlt := s.dl.readIndex_lt s.params.epsQ j hpos
  simp only [State.reseed_params, State.reseed_dl, State.reseed_freeCount, State.reseed_hist,
    History.elem_seed_update n (hlt.trans_le hdepth) (hlt.trans_le hinit)]

/-- No command reads the free content, in a state of the invariant. -/
theorem exec_reseed (hd : s.dl.Inv s.params) (hm : s.MemInv) (i : Instr) :
    exec i (s.reseed n) = reseedNext n (exec i s) := by
  have hcheck (ch len : Nat) : blockCheck (s.reseed n) ch len = blockCheck s ch len := rfl
  have hlatch : (s.reseed n).setDl (s.reseed n).dl.latch = (s.setDl s.dl.latch).reseed n := rfl
  cases i with
  | dlPrepare =>
    simp only [exec, execDlPrepare, reseedNext_ite, State.reseed_dl, State.reseed_params]
    rfl
  | dlWrite ch len =>
    simp only [exec, execDlWrite, hcheck, hlatch, writeBlock_reseed]
    cases blockCheck s ch len with
    | some e => rfl
    | none => cases writeBlock (s.setDl s.dl.latch) ch <;> rfl
  | dlReadmix ch len =>
    simp only [exec, execDlReadmix, hcheck, hlatch]
    cases hok : blockCheck s ch len with
    | some e => rfl
    | none =>
      obtain ⟨hpos, hdepth, hinit⟩ := latched_cap_bounds hd hm (blockCheck_eq_none.1 hok).1
      dsimp only
      rw [mixBlock_reseed (s := s.setDl s.dl.latch) n hpos hdepth hinit]
      cases mixBlock (s.setDl s.dl.latch) ch <;> rfl
  | dlAdvance => simp only [exec, execDlAdvance, reseedNext_ite, State.reseed_dl]; rfl
  | dlRelease => rfl
  | dlClrerr => rfl
  | phSetrate => simp only [exec, execPhSetrate, reseedNext_ite, State.reseed_ph, State.reseed_freeCount]; rfl
  | phSetfreq => simp only [exec, execPhSetfreq, reseedNext_ite, State.reseed_ph, State.reseed_freeCount]; rfl
  | phSetphase => simp only [exec, execPhSetphase, reseedNext_ite, State.reseed_ph, State.reseed_freeCount]; rfl
  | phReset => rfl
  | phNext => rfl
  | phClrerr => rfl

theorem writeReg_reseed (v : Word) (r : Reg) : writeReg (s.reseed n) v r = (writeReg s v r).reseed n := by
  cases r with
  | dlGain => simp only [writeReg, State.writeGain]; split <;> rfl
  | _ => rfl

theorem command_reseed (hd : s.dl.Inv s.params) (hm : s.MemInv) (r : CmdReg) (w : Word) :
    command r w (s.reseed n) = reseedNext n (command r w s) := by
  unfold command
  split
  · exact exec_reseed n hd hm _
  · cases r <;> rfl

theorem busLoad_reseed (a : Nat) : busLoad a (s.reseed n) = reseedNext n (busLoad a s) := by
  unfold busLoad
  split
  · rename_i r _
    cases r <;> rfl
  · simp only [State.reseed_params, State.reseed_io, reseedNext_ite]
    cases s.io.word? a <;> rfl

theorem busStore_reseed (hd : s.dl.Inv s.params) (hm : s.MemInv) (a : Nat) (w : Word) :
    busStore a w (s.reseed n) = reseedNext n (busStore a w s) := by
  unfold busStore
  split
  · exact command_reseed n hd hm _ w
  · exact command_reseed n hd hm _ w
  · exact congrArg Host.Outcome.next (writeReg_reseed n w _)
  · rw [reseedNext_ite]; rfl

/-- No bus event but the reset event reads or changes the free content. -/
theorem service_reseed (hd : s.dl.Inv s.params) (hm : s.MemInv) {e : BusEvent} (he : e ≠ .releaseReset) :
    service e (s.reseed n) = reseedNext n (service e s) := by
  cases e with
  | load a width =>
    simp only [service, reseedNext_ite, State.reseed_inReset, busLoad_reseed]
    rfl
  | store a width data =>
    have hstore := busStore_reseed (s := { s with bus := .written }) n hd
      (hm.congr rfl rfl rfl rfl) a.toNat (data.setWidth 32)
    simp only [service, reseedNext_ite, State.reseed_inReset, ← hstore]
    rfl
  | assertReset => rfl
  | releaseReset => exact absurd rfl he

end

/-- Settles O55: the service of the head commutes with `reseed`. -/
theorem unspecifiedHistoryIsNeverRead : Obligations.UnspecifiedHistoryIsNeverRead := by
  intro s t n e rest hinv hpend he hstep
  have hserve := service_reseed (s := { s with pending := rest }) n hinv.dl (hinv.mem.congr rfl rfl rfl rfl) he
  rw [step_cons hpend] at hstep
  rw [hstep] at hserve
  have hhead := step_cons (s := s.reseed n) hpend
  exact hhead.trans hserve

end Sys2Proof.Machine
end

section
/-! PROOFS. Bus accesses as steps (spec/20_memory.md): what an aligned access at the head of the bus order does, and with it the
register map (R50), the I/O window (R53) and the reset event (R135). -/

namespace Sys2Proof.Machine

section
variable {s : State} {rest : List BusEvent} {a : BusAddr}

/-- R47: an aligned read at the head of the bus order is serviced as a bus read. -/
theorem step_ld32 (h : s.pending = .ld32 a :: rest) (hr : s.inReset = false) (h4 : a.toNat % 4 = 0) :
    step s = busLoad a.toNat { s with pending := rest } := by
  rw [step_cons h]
  simp [service, hr, accessDefined, h4]

/-- R47: an aligned write at the head of the bus order is serviced as a bus write of its word. -/
theorem step_st32 {v : Word} (h : s.pending = .st32 a v :: rest) (hr : s.inReset = false) (h4 : a.toNat % 4 = 0) :
    step s = busStore a.toNat v { s with pending := rest, bus := .written } := by
  rw [step_cons h]
  simp [service, hr, accessDefined, h4]

end

/-! ### The register map (R50) -/

theorem DlUnit.status_eq_statusNumber (d : DlUnit) : d.status = d.statusNumber := by
  unfold DlUnit.status DlUnit.statusNumber
  cases d.err <;> cases d.blockOpen <;> cases d.prepared <;> decide

theorem PhUnit.status_eq_ofNat (u : PhUnit) : u.status = BitVec.ofNat 32 (16 * u.err.code.toNat) := by
  unfold PhUnit.status
  cases u.err <;> decide

/-- R49: bits 31:0. -/
theorem lo_eq_setWidth (x : DWord) : lo x = x.setWidth 32 := by
  apply BitVec.eq_of_toNat_eq
  rw [lo_toNat, BitVec.toNat_setWidth]

/-- R49: bits 63:32. -/
theorem hi_eq_shift (x : DWord) : hi x = (x >>> 32).setWidth 32 := by
  apply BitVec.eq_of_toNat_eq
  rw [hi_toNat, BitVec.toNat_setWidth, BitVec.toNat_ushiftRight, Nat.shiftRight_eq_div_pow]
  have := x.isLt
  omega

/-- The words of the state rules are what the register file reads, row by row of the map. -/
theorem registerValues_eq_map (s : State) :
    registerValues s = addressMap.map fun row => (BitVec.ofNat 20 row.1, readReg s row.2) := by
  simp only [registerValues, addressMap, List.cons_append, List.nil_append, List.map_cons, List.map_nil, readReg,
    DlUnit.status_eq_statusNumber, PhUnit.status_eq_ofNat, lo_eq_setWidth, hi_eq_shift, DlUnit.curD]
  rfl

/-- Every row of the map is at an aligned bus address of its own. -/
theorem addressMap_row {row : Nat × Reg} (h : row ∈ addressMap) :
    regAt row.1 = some row.2 ∧ row.1 < 2 ^ 20 ∧ row.1 % 4 = 0 := by
  have hall : ∀ row ∈ addressMap, regAt row.1 = some row.2 ∧ row.1 < 2 ^ 20 ∧ row.1 % 4 = 0 := by decide
  exact hall row h

/-- Settles O8: the value is that of a row, at whose address a bus read answers the register. -/
theorem registerReadsFollowTheMap : Obligations.RegisterReadsFollowTheMap := by
  intro s rest a v hr hpend hmem
  rw [registerValues_eq_map, List.mem_map] at hmem
  obtain ⟨row, hrow, heq⟩ := hmem
  obtain ⟨rfl, rfl⟩ := Prod.mk.inj heq
  obtain ⟨hreg, hlt, h4⟩ := addressMap_row hrow
  have haddr : (BitVec.ofNat 20 row.1).toNat = row.1 := by rw [BitVec.toNat_ofNat, Nat.mod_eq_of_lt hlt]
  rw [step_ld32 hpend hr (haddr.symm ▸ h4), haddr, busLoad]
  simp only [hreg]
  cases row.2 <;> rfl

/-! ### The I/O window (R53) -/

/-- R53: a bus read inside the window answers the word written there. -/
theorem busLoad_io {s : State} {a : Nat} {w : Word} (hw : inIoWindow s.params a = true) (hv : s.io.word? a = some w) :
    busLoad a s = .next { s with bus := .data w } := by
  have hbase : Config.ioBase ≤ a := by
    simp only [inIoWindow, Bool.and_eq_true, decide_eq_true_eq] at hw
    exact hw.1
  simp [busLoad, regAt_eq_none hbase, hw, hv]

/-- R53: a bus write inside the window stores its word there. -/
theorem busStore_io {s : State} {a : Nat} (w : Word) (hw : inIoWindow s.params a = true) :
    busStore a w s = .next (s.setIo (s.io.setWord a w)) := by
  have hbase : Config.ioBase ≤ a := by
    simp only [inIoWindow, Bool.and_eq_true, decide_eq_true_eq] at hw
    exact hw.1
  simp [busStore, regAt_eq_none hbase, hw]

section
variable {s : State} {rest : List BusEvent} {a : BusAddr} {w : Word}

theorem step_ld32_io (h : s.pending = .ld32 a :: rest) (hr : s.inReset = false) (h4 : a.toNat % 4 = 0)
    (hw : inIoWindow s.params a.toNat = true) (hv : s.io.word? a.toNat = some w) :
    step s = .next { s with pending := rest, bus := .data w } :=
  (step_ld32 h hr h4).trans (busLoad_io hw hv)

theorem step_st32_io (h : s.pending = .st32 a w :: rest) (hr : s.inReset = false) (h4 : a.toNat % 4 = 0)
    (hw : inIoWindow s.params a.toNat = true) :
    step s = .next { s with pending := rest, bus := .written, io := s.io.setWord a.toNat w } :=
  (step_st32 h hr h4).trans (busStore_io w hw)

end

/-- Settles O12: the read is the write's own word, and the write's four bytes are all it changes. -/
theorem ioWordsReadBackWhatWasWritten : Obligations.IoWordsReadBackWhatWasWritten := by
  intro s rest c j a v _ hr hc hj ha hpend
  have haddr : a.toNat = ioAddr s.params c j := ha
  have h4 : a.toNat % 4 = 0 := haddr ▸ ioAddr_aligned s.params c j
  have hw : inIoWindow s.params a.toNat = true := haddr ▸ inIoWindow_ioAddr s.params hc hj (k := 0) (by decide)
  refine ⟨s.io.setWord a.toNat v, ?_, ?_, fun x hx => ?_⟩
  · exact step_st32_io hpend hr h4 hw
  · exact step_ld32_io rfl hr h4 hw (Memory.word?_setWord_same _ _ _)
  · rw [Memory.get?_setWord, if_neg hx]

/-! ### The reset event (R135) -/

/-- Asserting and releasing reset is the reset event of the machine with both events done. -/
theorem run_reset {s : State} {rest : List BusEvent} (h : s.pending = .assertReset :: .releaseReset :: rest) :
    Sys2Proof.core.run 2 s = .next { s with pending := rest, inReset := true }.resetEvent := by
  have hassert : step s = .next { s with pending := .releaseReset :: rest, inReset := true } := step_cons h
  have hcore : Sys2Proof.core.step s = _ := hassert
  simp only [Host.Core.run, hcore]
  rfl

/-- Settles O15: the fresh free value is the next number of the counter. -/
theorem resetEventGivesResetValues : Obligations.ResetEventGivesResetValues :=
  fun s _ h => ⟨s.freeCount + 1, run_reset h⟩

end Sys2Proof.Machine
end

section
/-! PROOFS. What writes each register (the "written only by" lists of spec/10_state.md, R17, R23 to R28, R34, R36 to R40, R54, and
R120's "raised by, and when"). -/

namespace Sys2Proof.Machine

/-- The event writes to a command register a word that decodes to a command in `ok`. -/
def Executes (e : BusEvent) (ok : Instr → Prop) : Prop :=
  ∃ r w i, e = .store (cmdAddr r) .w32 w ∧ decode r (w.setWidth 32) = .ok i ∧ ok i

/-- The event is a 32-bit write to `a` of a word in `ok`. -/
def Writes (e : BusEvent) (a : BusAddr) (ok : Word → Prop) : Prop := ∃ w, e = .store a .w32 w ∧ ok (w.setWidth 32)

/-! ### The value registers, `PREPARED` and the history -/

/-- What the rules of the read-only registers, `PREPARED` and the history name as the causes of a change from `s` to `t`. -/
def ValuesWrittenBy (s t : State) (executes : (Instr → Prop) → Prop) : Prop :=
  let prepareRelease (i : Instr) : Prop := i = .dlPrepare ∨ i = .dlRelease
  let latching (i : Instr) : Prop := ∃ ch len, i = .dlWrite ch len ∨ i = .dlReadmix ch len
  (t.dl.sr ≠ s.dl.sr ∨ t.dl.bs ≠ s.dl.bs ∨ t.dl.cap ≠ s.dl.cap ∨ t.dl.prepared ≠ s.dl.prepared →
    executes prepareRelease) ∧
  (t.dl.wpos ≠ s.dl.wpos ∨ t.dl.prevDelay ≠ s.dl.prevDelay → executes fun i => prepareRelease i ∨ i = .dlAdvance) ∧
  (t.dl.curDelay ≠ s.dl.curDelay → executes fun i => prepareRelease i ∨ latching i) ∧
  (t.hist ≠ s.hist → executes fun i => prepareRelease i ∨ ∃ ch len, i = .dlWrite ch len) ∧
  (t.ph.out ≠ s.ph.out → executes fun i => i = .phNext) ∧
  (t.ph.phase ≠ s.ph.phase → executes fun i => i = .phSetphase ∨ i = .phReset ∨ i = .phNext) ∧
  (t.ph.freq ≠ s.ph.freq → executes fun i => i = .phSetfreq) ∧
  (t.ph.rate ≠ s.ph.rate → executes fun i => i = .phSetrate) ∧
  (t.ph.inc ≠ s.ph.inc → executes fun i => i = .phSetrate ∨ i = .phSetfreq ∨ i = .phSetphase) ∧
  t.params = s.params

/-- The registers `ValuesWrittenBy` speaks of, as one value. -/
def State.values (s : State) : Config.Params × History × Bool × List Word × List DWord :=
  (s.params, s.hist, s.dl.prepared,
    [s.dl.sr, s.dl.bs, s.dl.cap, s.dl.wpos, s.dl.curDelay, s.dl.prevDelay],
    [s.ph.out, s.ph.phase, s.ph.inc, s.ph.freq, s.ph.rate])

section
variable {s t : State}

/-- Where no register changes, nothing needs a cause. -/
theorem valuesWrittenBy_of_unchanged (executes : (Instr → Prop) → Prop) (h : t.values = s.values) :
    ValuesWrittenBy s t executes := by
  simp only [State.values, Prod.mk.injEq, List.cons.injEq] at h
  simp [ValuesWrittenBy, h]

theorem ValuesWrittenBy.mono {ex ex' : (Instr → Prop) → Prop} (h : ValuesWrittenBy s t ex) (hex : ∀ ok, ex ok → ex' ok) :
    ValuesWrittenBy s t ex' := by
  obtain ⟨hconfig, hpos, hcur, hhist, hout, hphase, hfreq, hrate, hinc, hparams⟩ := h
  exact ⟨hex _ ∘ hconfig, hex _ ∘ hpos, hex _ ∘ hcur, hex _ ∘ hhist, hex _ ∘ hout, hex _ ∘ hphase, hex _ ∘ hfreq,
    hex _ ∘ hrate, hex _ ∘ hinc, hparams⟩

theorem writeReg_values (v : Word) (r : Reg) : (writeReg s v r).values = s.values := by
  cases r with
  | dlGain => simp only [writeReg, State.writeGain]; split <;> rfl
  | _ => rfl

/-- A command changes only the registers whose rules name it. -/
theorem exec_valuesWrittenBy {i : Instr} (hx : exec i s = .next t) : ValuesWrittenBy s t fun ok => ok i := by
  cases i with
  | dlPrepare =>
    rcases exec_dlPrepare_cases hx with ⟨e, _, rfl⟩ | ⟨cap, _, _, _, _, _, rfl⟩
    · exact valuesWrittenBy_of_unchanged _ rfl
    · simp [ValuesWrittenBy]
  | dlWrite ch len =>
    rcases exec_dlWrite_cases hx with ⟨e, _, rfl⟩ | ⟨_, _, _, g, _, rfl⟩
    · exact valuesWrittenBy_of_unchanged _ rfl
    · simp [ValuesWrittenBy]
  | dlReadmix ch len =>
    rcases exec_dlReadmix_cases hx with ⟨e, _, rfl⟩ | ⟨_, _, _, m, _, rfl⟩
    · exact valuesWrittenBy_of_unchanged _ rfl
    · simp [ValuesWrittenBy]
  | dlAdvance =>
    rcases exec_dlAdvance_cases hx with rfl | ⟨_, rfl⟩
    · exact valuesWrittenBy_of_unchanged _ rfl
    · simp [ValuesWrittenBy]
  | dlRelease => cases hx; simp [ValuesWrittenBy]
  | dlClrerr => cases hx; exact valuesWrittenBy_of_unchanged _ rfl
  | phSetrate =>
    rcases exec_phSetrate_cases hx with rfl | ⟨_, _, rfl⟩
    · exact valuesWrittenBy_of_unchanged _ rfl
    · simp [ValuesWrittenBy]
  | phSetfreq =>
    rcases exec_phSetfreq_cases hx with rfl | ⟨_, _, rfl⟩
    · exact valuesWrittenBy_of_unchanged _ rfl
    · simp [ValuesWrittenBy]
  | phSetphase =>
    rcases exec_phSetphase_cases hx with rfl | ⟨_, rfl⟩
    · exact valuesWrittenBy_of_unchanged _ rfl
    · simp [ValuesWrittenBy]
  | phReset => cases hx; simp [ValuesWrittenBy]
  | phNext => cases hx; simp [ValuesWrittenBy]
  | phClrerr => cases hx; exact valuesWrittenBy_of_unchanged _ rfl

end

/-- Settles O51: only a command changes a register, and the command is the one the event decodes to. -/
theorem registersChangeOnlyByTheirCommands : Obligations.RegistersChangeOnlyByTheirCommands := by
  intro s t e rest hpend he hstep
  show ValuesWrittenBy s t (Executes e)
  rw [step_cons hpend] at hstep
  rcases service_cases hstep with ⟨b, r, rfl⟩ | ⟨hreset, _⟩ | ⟨a, w, r, _, _, rfl⟩ | ⟨a, w, _, _, _, rfl⟩ |
    ⟨r, w, x, _, _, rfl⟩ | ⟨r, w, i, hev, hdec, hx⟩
  · exact valuesWrittenBy_of_unchanged _ rfl
  · exact absurd hreset he
  · exact valuesWrittenBy_of_unchanged _ (writeReg_values _ r)
  · exact valuesWrittenBy_of_unchanged _ rfl
  · exact valuesWrittenBy_of_unchanged _ (by cases r <;> rfl)
  · have hvalues := exec_valuesWrittenBy (s := { s with pending := rest, bus := .written }) hx
    exact hvalues.mono fun ok hok => ⟨r, w, i, hev, hdec, hok⟩

/-! ### `BLOCK_OPEN` and the error fields -/

/-- R121: recording changes a code only from 0, to the code recorded. -/
theorem ErrCode.record_changed {old new : ErrCode} (h : old.record new ≠ old) : old = .noError ∧ old.record new = new := by
  unfold ErrCode.record at h ⊢
  split at h
  · rename_i h0
    exact ⟨h0, if_pos h0⟩
  · exact absurd rfl h

/-- R69: a word the decoder rejects is an illegal one. -/
theorem illegalWord_of_decode_error {r : CmdReg} {w : Word} {x : Reject} (h : decode r w = .error x) : illegalWord r w := by
  have hbare : ∀ i, bare w i = .error x → w.toNat / 256 ≠ 0 := fun i hi => by
    rcases bare_cases w i with ⟨_, hok⟩ | ⟨hne, _⟩
    · rw [hok] at hi; cases hi
    · exact hne
  have hop := opField_eq w
  cases r with
  | dlCmd =>
    simp only [decode, decodeDl] at h
    show (_ ∨ _) ∨ _ ∧ _
    split at h
    case h_1 h1 => exact .inr ⟨by simp [← hop, h1], hbare _ h⟩
    case h_2 => cases h
    case h_3 => cases h
    case h_4 h4 => exact .inr ⟨by simp [← hop, h4], hbare _ h⟩
    case h_5 h5 => exact .inr ⟨by simp [← hop, h5], hbare _ h⟩
    case h_6 h6 => exact .inr ⟨by simp [← hop, h6], hbare _ h⟩
    case h_7 => simp only [imp_false] at *; left; omega
  | phCmd =>
    simp only [decode, decodePh] at h
    show _ ∨ _
    split at h
    case h_7 => simp only [imp_false] at *; left; omega
    all_goals exact .inr (hbare _ h)

/-- R88: the gains `DL_GAIN` refuses. -/
theorem not_legal_of_gainLegal_eq_false {v : Word} (h : gainLegal v = false) :
    ¬∃ neg m, val32 v = .fin neg m ∧ (m = 0 ∨ neg = false) ∧ m ≤ 2 ^ 149 := by
  rintro ⟨neg, m, hv, hsign, hle⟩
  rw [← binary32_one] at hle
  simp only [gainLegal, hv, Bool.or_eq_false_iff, Bool.and_eq_false_iff, decide_eq_false_iff_not] at h
  rcases hsign with h0 | rfl
  · exact h.1 h0
  · exact h.2.elim (by decide) (· hle)

/-- DL_WRITE and DL_READMIX. -/
def BlockCommand (i : Instr) : Prop := ∃ ch len, i = .dlWrite ch len ∨ i = .dlReadmix ch len

/-- R120: what may have recorded the code `e` in the DL unit. -/
def DlErrCause (e : ErrCode) (executes : (Instr → Prop) → Prop) (writes : BusAddr → (Word → Prop) → Prop) : Prop :=
  (e = .illegalCommand ∧ writes 0x000 (illegalWord .dlCmd)) ∨
  (e = .badArgument ∧
    writes 0x018 fun v => ¬∃ neg m, val32 v = .fin neg m ∧ (m = 0 ∨ neg = false) ∧ m ≤ 2 ^ 149) ∨
  (e ∈ [.invalidBlockSize, .badArgument, .allocFailed] ∧ executes (· = .dlPrepare)) ∨
  (e ∈ [.notPrepared, .badChannel, .invalidBlockSize] ∧ executes BlockCommand) ∨
  (e = .notPrepared ∧ executes (· = .dlAdvance))

/-- R120: what may have recorded the code `e` in the PH unit. -/
def PhErrCause (e : ErrCode) (executes : (Instr → Prop) → Prop) (writes : BusAddr → (Word → Prop) → Prop) : Prop :=
  (e = .illegalCommand ∧ writes 0x100 (illegalWord .phCmd)) ∨
  (e = .badArgument ∧ executes fun i => i = .phSetrate ∨ i = .phSetfreq ∨ i = .phSetphase)

/-- What the rules of the status fields name as the causes of a change from `s` to `t`. -/
def StatusWrittenBy (s t : State) (executes : (Instr → Prop) → Prop) (writes : BusAddr → (Word → Prop) → Prop) : Prop :=
  (s.dl.blockOpen = false → t.dl.blockOpen = true → executes BlockCommand) ∧
  (s.dl.blockOpen = true → t.dl.blockOpen = false →
    executes fun i => i = .dlAdvance ∨ i = .dlPrepare ∨ i = .dlRelease) ∧
  (t.dl.err ≠ s.dl.err →
    (t.dl.err = .noError ∧ executes (· = .dlClrerr)) ∨
    (s.dl.err = .noError ∧ DlErrCause t.dl.err executes writes)) ∧
  (t.ph.err ≠ s.ph.err →
    (t.ph.err = .noError ∧ executes (· = .phClrerr)) ∨
    (s.ph.err = .noError ∧ PhErrCause t.ph.err executes writes))

section
variable {s t : State} {executes : (Instr → Prop) → Prop} {writes : BusAddr → (Word → Prop) → Prop}

/-- With `BLOCK_OPEN` unchanged, only a changed code needs a cause. -/
theorem statusWrittenBy_of_blockOpen_eq (hopen : t.dl.blockOpen = s.dl.blockOpen)
    (hdl : t.dl.err ≠ s.dl.err → (t.dl.err = .noError ∧ executes (· = .dlClrerr)) ∨
      (s.dl.err = .noError ∧ DlErrCause t.dl.err executes writes))
    (hph : t.ph.err ≠ s.ph.err → (t.ph.err = .noError ∧ executes (· = .phClrerr)) ∨
      (s.ph.err = .noError ∧ PhErrCause t.ph.err executes writes)) : StatusWrittenBy s t executes writes := by
  refine ⟨fun h0 h1 => ?_, fun h1 h0 => ?_, hdl, hph⟩
  · rw [hopen, h0] at h1; cases h1
  · rw [hopen, h1] at h0; cases h0

/-- Where no status field changes, nothing needs a cause. -/
theorem statusWrittenBy_of_unchanged (hopen : t.dl.blockOpen = s.dl.blockOpen) (hdl : t.dl.err = s.dl.err)
    (hph : t.ph.err = s.ph.err) : StatusWrittenBy s t executes writes :=
  statusWrittenBy_of_blockOpen_eq hopen (fun hne => absurd hdl hne) (fun hne => absurd hph hne)

/-- A block command may open the block. -/
theorem statusWrittenBy_of_opened (h : executes BlockCommand) (hopen : t.dl.blockOpen = true) (hdl : t.dl.err = s.dl.err)
    (hph : t.ph.err = s.ph.err) : StatusWrittenBy s t executes writes :=
  ⟨fun _ _ => h, fun _ h0 => absurd (hopen.symm.trans h0) (by decide), fun hne => absurd hdl hne, fun hne => absurd hph hne⟩

/-- DL_ADVANCE, DL_PREPARE and DL_RELEASE may close the block. -/
theorem statusWrittenBy_of_closed (h : executes fun i => i = .dlAdvance ∨ i = .dlPrepare ∨ i = .dlRelease)
    (hopen : t.dl.blockOpen = false) (hdl : t.dl.err = s.dl.err) (hph : t.ph.err = s.ph.err) :
    StatusWrittenBy s t executes writes :=
  ⟨fun _ h1 => absurd (hopen.symm.trans h1) (by decide), fun _ _ => h, fun hne => absurd hdl hne, fun hne => absurd hph hne⟩

/-- Recording an error in the DL unit needs a cause of the code recorded. -/
theorem statusWrittenBy_raiseDl {e : ErrCode} (hcause : DlErrCause e executes writes) :
    StatusWrittenBy s (s.raiseDl e) executes writes := by
  refine statusWrittenBy_of_blockOpen_eq rfl (fun hne => ?_) (fun hne => absurd rfl hne)
  obtain ⟨h0, hrec⟩ := ErrCode.record_changed hne
  rw [show (s.raiseDl e).dl.err = e from hrec]
  exact .inr ⟨h0, hcause⟩

/-- Recording an error in the PH unit needs a cause of the code recorded. -/
theorem statusWrittenBy_raisePh {e : ErrCode} (hcause : PhErrCause e executes writes) :
    StatusWrittenBy s (s.raisePh e) executes writes := by
  refine statusWrittenBy_of_blockOpen_eq rfl (fun hne => absurd rfl hne) (fun hne => ?_)
  obtain ⟨h0, hrec⟩ := ErrCode.record_changed hne
  rw [show (s.raisePh e).ph.err = e from hrec]
  exact .inr ⟨h0, hcause⟩

/-- R88: a write to the register file changes a status field only as a refused gain. -/
theorem writeReg_statusWrittenBy {v : Word} {r : Reg} (hwrite : r = .dlGain → ∀ ok : Word → Prop, ok v → writes 0x018 ok) :
    StatusWrittenBy s (writeReg s v r) executes writes := by
  cases r with
  | dlGain =>
    simp only [writeReg, State.writeGain]
    split
    · exact statusWrittenBy_of_unchanged rfl rfl rfl
    · rename_i hill
      exact statusWrittenBy_raiseDl
        (.inr (.inl ⟨rfl, hwrite rfl _ (not_legal_of_gainLegal_eq_false (Bool.eq_false_of_not_eq_true hill))⟩))
  | _ => exact statusWrittenBy_of_unchanged rfl rfl rfl

/-- A command changes a status field only as the rules name it. -/
theorem exec_statusWrittenBy {i : Instr} (hx : exec i s = .next t) (hi : ∀ ok : Instr → Prop, ok i → executes ok) :
    StatusWrittenBy s t executes writes := by
  cases i with
  | dlPrepare =>
    rcases exec_dlPrepare_cases hx with ⟨e, he, rfl⟩ | ⟨cap, _, _, _, _, _, rfl⟩
    · exact statusWrittenBy_raiseDl (.inr (.inr (.inl ⟨he, hi _ rfl⟩)))
    · exact statusWrittenBy_of_closed (hi _ (by simp)) rfl rfl rfl
  | dlWrite ch len =>
    have hblock := hi BlockCommand ⟨ch, len, .inl rfl⟩
    rcases exec_dlWrite_cases hx with ⟨e, he, rfl⟩ | ⟨_, _, _, g, _, rfl⟩
    · exact statusWrittenBy_raiseDl (.inr (.inr (.inr (.inl ⟨he, hblock⟩))))
    · exact statusWrittenBy_of_opened hblock s.dl.latch_blockOpen s.dl.latch_err rfl
  | dlReadmix ch len =>
    have hblock := hi BlockCommand ⟨ch, len, .inr rfl⟩
    rcases exec_dlReadmix_cases hx with ⟨e, he, rfl⟩ | ⟨_, _, _, m, _, rfl⟩
    · exact statusWrittenBy_raiseDl (.inr (.inr (.inr (.inl ⟨he, hblock⟩))))
    · exact statusWrittenBy_of_opened hblock s.dl.latch_blockOpen s.dl.latch_err rfl
  | dlAdvance =>
    rcases exec_dlAdvance_cases hx with rfl | ⟨_, rfl⟩
    · exact statusWrittenBy_raiseDl (.inr (.inr (.inr (.inr ⟨rfl, hi _ rfl⟩))))
    · exact statusWrittenBy_of_closed (hi _ (by simp)) rfl rfl rfl
  | dlRelease =>
    cases hx
    exact statusWrittenBy_of_closed (hi _ (by simp)) rfl rfl rfl
  | dlClrerr =>
    cases hx
    exact statusWrittenBy_of_blockOpen_eq rfl (fun _ => .inl ⟨rfl, hi _ rfl⟩) (fun hne => absurd rfl hne)
  | phSetrate =>
    rcases exec_phSetrate_cases hx with rfl | ⟨_, _, rfl⟩
    · exact statusWrittenBy_raisePh (.inr ⟨rfl, hi _ (by simp)⟩)
    · exact statusWrittenBy_of_unchanged rfl rfl rfl
  | phSetfreq =>
    rcases exec_phSetfreq_cases hx with rfl | ⟨_, _, rfl⟩
    · exact statusWrittenBy_raisePh (.inr ⟨rfl, hi _ (by simp)⟩)
    · exact statusWrittenBy_of_unchanged rfl rfl rfl
  | phSetphase =>
    rcases exec_phSetphase_cases hx with rfl | ⟨_, rfl⟩
    · exact statusWrittenBy_raisePh (.inr ⟨rfl, hi _ (by simp)⟩)
    · exact statusWrittenBy_of_unchanged rfl rfl rfl
  | phReset => cases hx; exact statusWrittenBy_of_unchanged rfl rfl rfl
  | phNext => cases hx; exact statusWrittenBy_of_unchanged rfl rfl rfl
  | phClrerr =>
    cases hx
    exact statusWrittenBy_of_blockOpen_eq rfl (fun hne => absurd rfl hne) (fun _ => .inl ⟨rfl, hi _ rfl⟩)

/-- The row of `DL_GAIN`. -/
theorem addr_of_dlGain {a : BusAddr} (h : (a.toNat, Reg.dlGain) ∈ addressMap) : a = 0x018 := by
  have ha : a.toNat = 0x018 := by simpa [addressMap] using h
  exact BitVec.eq_of_toNat_eq ha

end

/-- Settles O60: the causes are a refused gain, an illegal word and the command executed. -/
theorem statusFieldsChangeOnlyByTheirCauses : Obligations.StatusFieldsChangeOnlyByTheirCauses := by
  intro s t e rest hpend he hstep
  show StatusWrittenBy s t (Executes e) (Writes e)
  rw [step_cons hpend] at hstep
  rcases service_cases hstep with ⟨b, r, rfl⟩ | ⟨hreset, _⟩ | ⟨a, w, r, hev, hrow, rfl⟩ | ⟨a, w, _, _, _, rfl⟩ |
    ⟨r, w, x, hev, hdec, rfl⟩ | ⟨r, w, i, hev, hdec, hx⟩
  · exact statusWrittenBy_of_unchanged rfl rfl rfl
  · exact absurd hreset he
  · refine writeReg_statusWrittenBy (s := { s with pending := rest, bus := .written }) ?_
    rintro rfl ok hok
    exact ⟨w, addr_of_dlGain hrow ▸ hev, hok⟩
  · exact statusWrittenBy_of_unchanged rfl rfl rfl
  · have hill := illegalWord_of_decode_error hdec
    cases r with
    | dlCmd =>
      exact statusWrittenBy_raiseDl (s := { s with pending := rest, bus := .written }) (.inl ⟨rfl, w, hev, hill⟩)
    | phCmd =>
      exact statusWrittenBy_raisePh (s := { s with pending := rest, bus := .written }) (.inl ⟨rfl, w, hev, hill⟩)
  · exact exec_statusWrittenBy (s := { s with pending := rest, bus := .written }) hx
      fun ok hok => ⟨r, w, i, hev, hdec, hok⟩

end Sys2Proof.Machine
end

section
/-! PROOFS. What an aligned bus access does, by the kind of its address (spec/20_memory.md R50 to R52, R55): a command, a register
that can be written, one that only reads, an I/O word, or nothing. -/

namespace Sys2Proof.Machine

/-- Settles O6: the write at the head of the bus order is its register's `command`, which executes what the word decodes to. -/
theorem stepExecutesTheCommandWritten : Obligations.StepExecutesTheCommandWritten := by
  intro s r w i rest hr hpend hdec
  rw [step_cons hpend, service_cmd (s := { s with pending := rest }) r w hr, command, hdec]

/-! ### The registers of the map (R50, R51) -/

/-- The registers a bus write stores into without executing a command (R50). -/
def plainRegs : List Reg := [.dlPrepSr, .dlPrepBs, .dlPrepMaxd, .dlDelay, .dlGain, .phArgLo, .phArgHi]

section
variable {s : State} {a : Nat} {r : Reg}

/-- A register at an address is a row of the map. -/
theorem mem_addressMap_of_regAt (h : regAt a = some r) : (a, r) ∈ addressMap := by
  obtain ⟨before, after, hmap, _⟩ := List.lookup_eq_some_iff.1 h
  simp [hmap]

/-- R51: a bus write to a register that takes no data leaves the state. -/
theorem writeReg_eq_self (v : Word) (h : r ∉ plainRegs) : writeReg s v r = s := by
  cases r with
  | dlPrepSr | dlPrepBs | dlPrepMaxd | dlDelay | dlGain | phArgLo | phArgHi => exact absurd (by decide) h
  | _ => rfl

/-- A bus read of a row of the map answers its register. -/
theorem busLoad_reg (h : regAt a = some r) : busLoad a s = .next { s with bus := .data (readReg s r) } := by
  simp [busLoad, h]

/-- A bus write to a row of the map other than the command registers writes its register. -/
theorem busStore_reg (w : Word) (h : regAt a = some r) (hdl : r ≠ .dlCmd) (hph : r ≠ .phCmd) :
    busStore a w s = .next (writeReg s w r) := by
  unfold busStore
  rw [h]
  cases r with
  | dlCmd => exact absurd rfl hdl
  | phCmd => exact absurd rfl hph
  | _ => rfl

/-- R51: a bus read that meets neither a row nor the I/O window answers 0. -/
theorem busLoad_uncovered (h : regAt a = none) (hw : inIoWindow s.params a = false) :
    busLoad a s = .next { s with bus := .data 0 } := by
  simp [busLoad, h, hw]

/-- R51: a bus write that meets neither a row nor the I/O window does nothing. -/
theorem busStore_uncovered (w : Word) (h : regAt a = none) (hw : inIoWindow s.params a = false) :
    busStore a w s = .next s := by
  simp [busStore, h, hw]

/-- An address without a row in the list of register values has no register. -/
theorem regAt_eq_none_of_uncovered {a : BusAddr} (h : ∀ v, (a, v) ∉ registerValues s) : regAt a.toNat = none := by
  rw [Option.eq_none_iff_forall_ne_some]
  intro r hreg
  refine h (readReg s r) ?_
  rw [registerValues_eq_map, List.mem_map]
  exact ⟨(a.toNat, r), mem_addressMap_of_regAt hreg, by simp⟩

/-- The read-only addresses are those of the rows whose register neither executes a command nor takes data. -/
theorem readOnlyAddrs_eq : readOnlyAddrs =
    (addressMap.filter fun row => row.2 ∉ .dlCmd :: .phCmd :: plainRegs).map fun row => BitVec.ofNat 20 row.1 := by
  decide

/-- R51: a bus write to a read-only register does nothing. -/
theorem busStore_readOnly {a : BusAddr} (w : Word) (h : a ∈ readOnlyAddrs) : busStore a.toNat w s = .next s := by
  rw [readOnlyAddrs_eq, List.mem_map] at h
  obtain ⟨row, hrow, rfl⟩ := h
  obtain ⟨hmem, hkind⟩ := List.mem_filter.1 hrow
  obtain ⟨hreg, hlt, _⟩ := addressMap_row hmem
  simp only [List.mem_cons, not_or, decide_eq_true_eq] at hkind
  obtain ⟨hdl, hph, hplain⟩ := hkind
  rw [BitVec.toNat_ofNat, Nat.mod_eq_of_lt hlt, busStore_reg w hreg hdl hph, writeReg_eq_self w hplain]

end

/-- Settles O9: the address has no register and lies outside the window, or its register reads 0 or takes no data. -/
theorem uncoveredAccessesReadZeroAndWriteNothing : Obligations.UncoveredAccessesReadZeroAndWriteNothing := by
  intro s rest a w hr h4 uncovered
  refine ⟨fun hpend hread => ?_, fun hpend hwrite => ?_⟩
  · rw [step_ld32 hpend hr h4]
    rcases hread with ⟨hrow, hwindow⟩ | rfl | rfl
    · exact busLoad_uncovered (regAt_eq_none_of_uncovered hrow) hwindow
    · exact busLoad_reg (r := .dlCmd) rfl
    · exact busLoad_reg (r := .phCmd) rfl
  · rw [step_st32 hpend hr h4]
    rcases hwrite with ⟨hrow, hwindow⟩ | hro
    · exact busStore_uncovered w (regAt_eq_none_of_uncovered hrow) hwindow
    · exact busStore_readOnly w hro

/-! ### A read changes nothing, a write done twice is the write done once (R52) -/

section
variable {s t : State} {a : Nat} {w : Word}

/-- R52: all a bus read changes is the response. -/
theorem busLoad_frame (h : busLoad a s = .next t) : ∃ w, t = { s with bus := .data w } := by
  unfold busLoad at h
  split at h
  · cases h; exact ⟨_, rfl⟩
  split at h
  · split at h
    · cases h; exact ⟨_, rfl⟩
    · cases h
  · cases h; exact ⟨_, rfl⟩

/-- R50: an address that is not a command register's is another register's, lies in the I/O window, or is uncovered. -/
theorem plainAddr_cases (p : Config.Params) (hdl : a ≠ 0x000) (hph : a ≠ 0x100) :
    (∃ r, regAt a = some r ∧ r ≠ .dlCmd ∧ r ≠ .phCmd) ∨
    inIoWindow p a = true ∨ (regAt a = none ∧ inIoWindow p a = false) := by
  cases hreg : regAt a with
  | some r =>
    have hrow := mem_addressMap_of_regAt hreg
    refine .inl ⟨r, rfl, ?_, ?_⟩
    · rintro rfl; exact hdl (by simpa [addressMap] using hrow)
    · rintro rfl; exact hph (by simpa [addressMap] using hrow)
  | none =>
    cases hw : inIoWindow p a with
    | true => exact .inr (.inl rfl)
    | false => exact .inr (.inr ⟨rfl, rfl⟩)

/-- R121: recording a code a second time changes nothing. -/
theorem ErrCode.record_record (old new : ErrCode) : (old.record new).record new = old.record new := by
  unfold ErrCode.record
  by_cases h : old = .noError
  · simp [h]
  · simp [h]

/-- R88: a refused gain records the same error again, a legal one is stored again. -/
theorem State.writeGain_writeGain (s : State) (v : Word) : (s.writeGain v).writeGain v = s.writeGain v := by
  unfold State.writeGain
  split
  · rfl
  · simp [State.raiseDl, State.setDl, ErrCode.record_record]

/-- R52: writing a register a second time changes nothing. -/
theorem writeReg_writeReg (s : State) (v : Word) (r : Reg) : writeReg (writeReg s v r) v r = writeReg s v r := by
  cases r with
  | dlGain => exact State.writeGain_writeGain s v
  | phArgLo => simp [writeReg, State.setPh]
  | phArgHi => simp [writeReg, State.setPh]
  | _ => rfl

/-- A register write reaches neither the reset input nor the response. -/
theorem writeReg_keeps_interface (s : State) (v : Word) (r : Reg) :
    (writeReg s v r).inReset = s.inReset ∧ (writeReg s v r).bus = s.bus := by
  cases r with
  | dlGain => simp only [writeReg, State.writeGain]; split <;> exact ⟨rfl, rfl⟩
  | _ => exact ⟨rfl, rfl⟩

/-- R52: writing a word a second time changes nothing, in a memory of canonical form. -/
theorem Memory.setWord_setWord {m : Memory} (a : Nat) (w : Word) (hm : m.wf = true) :
    (m.setWord a w).setWord a w = m.setWord a w := by
  refine Memory.ext_of_wf (Memory.wf_setWord w a (Memory.wf_setWord w a hm)) (Memory.wf_setWord w a hm) fun x => ?_
  simp only [Memory.get?_setWord]
  split <;> rfl

/-- R52: a bus write to no command register leaves the reset input and the response, and changes nothing when done again. -/
theorem busStore_busStore (hdl : a ≠ 0x000) (hph : a ≠ 0x100) (hio : ioWf s.params s.io = true)
    (h : busStore a w s = .next t) : t.inReset = s.inReset ∧ t.bus = s.bus ∧ busStore a w t = .next t := by
  rcases plainAddr_cases s.params hdl hph with ⟨r, hreg, hr1, hr2⟩ | hw | ⟨hreg, hw⟩
  · rw [busStore_reg w hreg hr1 hr2] at h
    cases h
    obtain ⟨hreset, hbus⟩ := writeReg_keeps_interface s w r
    exact ⟨hreset, hbus, by rw [busStore_reg w hreg hr1 hr2, writeReg_writeReg]⟩
  · rw [busStore_io w hw] at h
    cases h
    refine ⟨rfl, rfl, ?_⟩
    rw [busStore_io (s := s.setIo (s.io.setWord a w)) w hw, State.setIo_io, Memory.setWord_setWord a w (ioWf_iff.1 hio).1]
    rfl
  · rw [busStore_uncovered w hreg hw] at h
    cases h
    exact ⟨rfl, rfl, busStore_uncovered w hreg hw⟩

/-- R47, R127: a read that completes outside reset is a bus read. -/
theorem busLoad_of_service {a : BusAddr} (hr : s.inReset = false) (h : service (.ld32 a) s = .next t) :
    busLoad a.toNat s = .next t := by
  simp only [service, hr, Bool.false_eq_true, if_false] at h
  split at h
  · exact h
  · cases h

/-- R47, R127: outside reset a write completes exactly when it is aligned and its bus write completes, already answered. -/
theorem service_st32_iff {a : BusAddr} (hr : s.inReset = false) :
    service (.st32 a w) s = .next t ↔
      accessDefined a .w32 = true ∧ busStore a.toNat w { s with bus := .written } = .next t := by
  cases hdef : accessDefined a .w32 <;> simp [service, hr, hdef]

end

/-- Settles O7: the read's frame, and each kind of write done again. -/
theorem readsHaveNoEffectAndPlainWritesAreIdempotent : Obligations.ReadsHaveNoEffectAndPlainWritesAreIdempotent := by
  refine ⟨fun s t a hr h => busLoad_frame (busLoad_of_service hr h), fun s t a w hr hio hdl hph h => ?_⟩
  obtain ⟨hdef, hstore⟩ := (service_st32_iff hr).1 h
  have hne {b : BusAddr} (hb : a ≠ b) : a.toNat ≠ b.toNat := fun heq => hb (BitVec.eq_of_toNat_eq heq)
  obtain ⟨hreset, hbus, hagain⟩ : t.inReset = s.inReset ∧ t.bus = .written ∧ busStore a.toNat w t = .next t :=
    busStore_busStore (s := { s with bus := .written }) (hne hdl) (hne hph) hio hstore
  have hanswered : { t with bus := .written } = t := by rw [← hbus]
  exact (service_st32_iff (hreset.trans hr)).2 ⟨hdef, hanswered.symm ▸ hagain⟩

end Sys2Proof.Machine
end

section
/-! PROOFS. The block latch (spec/40_delayline.md R80): what keeps an open block open and its delay latched. -/

namespace Sys2Proof.Machine

/-- R63: a word decodes at a register to a command of that register. -/
theorem cmdReg_of_decode {r : CmdReg} {w : Word} {i : Instr} (h : decode r w = .ok i) : i.cmdReg = r := by
  have hbare : ∀ j, bare w j = .ok i → i = j := fun j hj => by
    rcases bare_cases w j with ⟨_, hok⟩ | ⟨_, herr⟩
    · rw [hok] at hj; cases hj; rfl
    · rw [herr] at hj; cases hj
  cases r with
  | dlCmd =>
    simp only [decode, decodeDl] at h
    split at h
    case h_2 | h_3 => cases h; rfl
    case h_7 => split at h <;> cases h
    all_goals rw [hbare _ h]; rfl
  | phCmd =>
    simp only [decode, decodePh] at h
    split at h
    case h_7 => split at h <;> cases h
    all_goals rw [hbare _ h]; rfl

/-- The commands that end a block or discard it (R80). -/
def EndsBlock (i : Instr) : Prop := i = .dlAdvance ∨ i = .dlPrepare ∨ i = .dlRelease

section
variable {s t : State}

/-- R80: a command keeps an open block open with its latched delay, unless it is one that ends the block. -/
theorem exec_keeps_openBlock {i : Instr} (hopen : s.dl.blockOpen = true) (hi : ¬EndsBlock i) (hx : exec i s = .next t) :
    t.dl.blockOpen = true ∧ t.dl.curDelay = s.dl.curDelay := by
  have hlatch : s.dl.latch.blockOpen = true ∧ s.dl.latch.curDelay = s.dl.curDelay := by simp [hopen]
  cases i with
  | dlAdvance => exact absurd (.inl rfl) hi
  | dlPrepare => exact absurd (.inr (.inl rfl)) hi
  | dlRelease => exact absurd (.inr (.inr rfl)) hi
  | dlWrite ch len =>
    rcases exec_dlWrite_cases hx with ⟨e, _, rfl⟩ | ⟨_, _, _, g, _, rfl⟩
    · exact ⟨hopen, rfl⟩
    · exact hlatch
  | dlReadmix ch len =>
    rcases exec_dlReadmix_cases hx with ⟨e, _, rfl⟩ | ⟨_, _, _, m, _, rfl⟩
    · exact ⟨hopen, rfl⟩
    · exact hlatch
  | dlClrerr => cases hx; exact ⟨hopen, rfl⟩
  | _ =>
    obtain ⟨_, hdl, _, _⟩ := exec_phCmd_keeps rfl hx
    rw [hdl]
    exact ⟨hopen, rfl⟩

/-- R87: a register write, `DL_DELAY`'s included, reaches neither `BLOCK_OPEN` nor the latched delay. -/
theorem writeReg_keeps_block (v : Word) (r : Reg) :
    (writeReg s v r).dl.blockOpen = s.dl.blockOpen ∧ (writeReg s v r).dl.curDelay = s.dl.curDelay := by
  cases r with
  | dlGain => simp only [writeReg, State.writeGain]; split <;> exact ⟨rfl, rfl⟩
  | _ => exact ⟨rfl, rfl⟩

end

/-- Settles O53: of the effects a bus event has outside reset, only a command reaches the latch. -/
theorem openBlockKeepsItsDelay : Obligations.OpenBlockKeepsItsDelay := by
  intro s t e rest hpend he hstep hopen
  rw [step_cons hpend] at hstep
  rcases service_cases hstep with ⟨b, r, rfl⟩ | ⟨hreset, _⟩ | ⟨a, w, r, _, _, rfl⟩ | ⟨a, w, _, _, _, rfl⟩ |
    ⟨r, w, x, _, _, rfl⟩ | ⟨r, w, i, hev, hdec, hx⟩
  · exact .inl ⟨hopen, rfl⟩
  · exact absurd hreset he
  · obtain ⟨hblock, hdelay⟩ := writeReg_keeps_block (s := { s with pending := rest, bus := .written }) (w.setWidth 32) r
    exact .inl ⟨hblock.trans hopen, hdelay⟩
  · exact .inl ⟨hopen, rfl⟩
  · cases r <;> exact .inl ⟨hopen, rfl⟩
  · by_cases hends : EndsBlock i
    · have hreg : r = .dlCmd := by
        rw [← cmdReg_of_decode hdec]
        rcases hends with rfl | rfl | rfl <;> rfl
      subst hreg
      exact .inr ⟨w, i, hev, hdec, hends⟩
    · exact .inl (exec_keeps_openBlock (s := { s with pending := rest, bus := .written }) hopen hends hx)

end Sys2Proof.Machine
end

section
/-! PROOFS. The command words (spec/30_encoding.md R64 to R72): encoding and decoding are inverse to each other, and the words
that no command has are the illegal ones. -/

namespace Sys2Proof.Machine

/-- R64: a word is laid out from its own three fields. -/
theorem fields_lenField_chField_opField (w : Word) : fields (lenField w) (chField w) (opField w) = w := by
  apply BitVec.eq_of_toNat_eq
  rw [toNat_fields, lenField_eq, chField_eq, opField_eq]
  have := w.isLt
  omega

theorem chField_lt (w : Word) : chField w < 256 := by
  rw [chField_eq]; omega

theorem lenField_lt (w : Word) : lenField w < 65536 := by
  rw [lenField_eq]
  have := w.isLt
  omega

/-- A command without operands is decoded only from the word of its opcode over zeros. -/
theorem fields_eq_of_bare {w : Word} {i j : Instr} {op : Nat} (hop : opField w = op) (h : bare w j = .ok i) :
    j = i ∧ fields 0 0 op = w := by
  rcases bare_cases w j with ⟨hzero, hok⟩ | ⟨_, herr⟩
  · rw [hok] at h
    cases h
    refine ⟨rfl, BitVec.eq_of_toNat_eq ?_⟩
    rw [toNat_fields, ← hop, opField_eq]
    omega
  · rw [herr] at h
    cases h

/-! ### Decoding an encoded command -/

/-- R71 at the row of DL_WRITE. -/
theorem decode_dlWrite_fields {ch len : Nat} (hch : ch < 256) (hlen : len < 65536) :
    decode .dlCmd (fields len ch 0x02) = .ok (.dlWrite ch len) := by
  simp only [decode, decodeDl, opField_fields _ _ (show 0x02 < 256 by decide), chField_fields _ _ hch, lenField_fields _ _ hlen]

/-- R71 at the row of DL_READMIX. -/
theorem decode_dlReadmix_fields {ch len : Nat} (hch : ch < 256) (hlen : len < 65536) :
    decode .dlCmd (fields len ch 0x03) = .ok (.dlReadmix ch len) := by
  simp only [decode, decodeDl, opField_fields _ _ (show 0x03 < 256 by decide), chField_fields _ _ hch, lenField_fields _ _ hlen]

/-- Settles O1: the operands of the two rows that have them are read back from their fields; every other row is one word. -/
theorem decodeOfEncodeIsIdentity : Obligations.DecodeOfEncodeIsIdentity := by
  intro i hwf
  cases i with
  | dlWrite ch len =>
    simp only [Instr.wf, Bool.and_eq_true, decide_eq_true_eq] at hwf
    obtain ⟨hch, hlen⟩ := hwf
    exact decode_dlWrite_fields hch hlen
  | dlReadmix ch len =>
    simp only [Instr.wf, Bool.and_eq_true, decide_eq_true_eq] at hwf
    obtain ⟨hch, hlen⟩ := hwf
    exact decode_dlReadmix_fields hch hlen
  | _ => decide

/-! ### Encoding a decoded word -/

/-- D43, R66: a word that decodes at a register is the word of the command it decodes to, and that command's operands fit. -/
theorem wf_and_encode_of_decode {r : CmdReg} {w : Word} {i : Instr} (h : decode r w = .ok i) :
    i.wf = true ∧ encode i = w := by
  cases r with
  | dlCmd =>
    simp only [decode, decodeDl] at h
    split at h
    case h_2 hop | h_3 hop =>
      cases h
      refine ⟨by simp [Instr.wf, chField_lt, lenField_lt], ?_⟩
      rw [encode, ← hop, fields_lenField_chField_opField]
    case h_7 => split at h <;> cases h
    case h_1 hop | h_4 hop | h_5 hop | h_6 hop =>
      obtain ⟨rfl, hw⟩ := fields_eq_of_bare hop h
      exact ⟨rfl, hw⟩
  | phCmd =>
    simp only [decode, decodePh] at h
    split at h
    case h_7 => split at h <;> cases h
    case h_1 hop | h_2 hop | h_3 hop | h_4 hop | h_5 hop | h_6 hop =>
      obtain ⟨rfl, hw⟩ := fields_eq_of_bare hop h
      exact ⟨rfl, hw⟩

/-- Settles O2: the register, the operands' ranges and the word of a decoded command. -/
theorem decodedWordIsItsEncoding : Obligations.DecodedWordIsItsEncoding :=
  fun _ _ _ h => ⟨cmdReg_of_decode h, wf_and_encode_of_decode h⟩

/-! ### The words no command has -/

theorem toNat_encode_mod (i : Instr) : (encode i).toNat % 256 = i.opcode := by
  rw [← opField_eq]
  cases i with
  | dlWrite ch len | dlReadmix ch len => exact opField_fields len ch (by decide)
  | _ => decide

/-- R67, R68, R69: no command's word is illegal at its register. -/
theorem not_illegalWord_encode (i : Instr) : ¬illegalWord i.cmdReg (encode i) := by
  have hop := toNat_encode_mod i
  cases i with
  | dlWrite ch len | dlReadmix ch len => simp [illegalWord, Instr.cmdReg, hop, Instr.opcode]
  | _ => simp only [Instr.cmdReg, illegalWord]; decide

/-- R69: the decoder rejects exactly the illegal words. -/
theorem decode_error_iff (r : CmdReg) (w : Word) : (∃ x, decode r w = .error x) ↔ illegalWord r w := by
  refine ⟨fun ⟨_, h⟩ => illegalWord_of_decode_error h, fun hill => ?_⟩
  cases hdec : decode r w with
  | error x => exact ⟨x, rfl⟩
  | ok i =>
    obtain ⟨_, hword⟩ := wf_and_encode_of_decode hdec
    rw [← cmdReg_of_decode hdec, ← hword] at hill
    exact absurd hill (not_illegalWord_encode i)

/-- R69: the write of an illegal word is accepted and records IllegalCommand in its register's unit. -/
theorem step_illegalWord {s : State} {r : CmdReg} {w : Word} {rest : List BusEvent} (hr : s.inReset = false)
    (hpend : s.pending = .st32 (cmdAddr r) w :: rest) (hill : illegalWord r w) :
    step s = .next (State.raiseIllegal { s with pending := rest, bus := .written } r) := by
  obtain ⟨x, hdec⟩ := (decode_error_iff r w).2 hill
  rw [step_cons hpend, service_cmd (s := { s with pending := rest }) r w hr, command, hdec]

/-- Settles O3: the illegal words are the rejected ones, and rejecting a word records the error at its register. -/
theorem illegalWordRecordsIllegalCommand : Obligations.IllegalWordRecordsIllegalCommand :=
  ⟨decode_error_iff, fun _ _ _ hr =>
    ⟨fun hpend hill => step_illegalWord (r := .dlCmd) hr hpend hill,
      fun hpend hill => step_illegalWord (r := .phCmd) hr hpend hill⟩⟩

/-! ### Words as numbers -/

/-- Settles O4: sixteen closed words. -/
theorem specWordsDecode : Obligations.SpecWordsDecode := by
  unfold Obligations.SpecWordsDecode
  decide

/-- Settles O5: both words are laid out from fields whose values fit. -/
theorem commandWordsAreTheAssemblersWords : Obligations.CommandWordsAreTheAssemblersWords := by
  intro c n hc hn
  have hword (op : Nat) (hop : op < 256) : (fields n c op).toNat = n * 65536 + c * 256 + op := by
    rw [toNat_fields, Nat.mod_eq_of_lt hn, Nat.mod_eq_of_lt hc, Nat.mod_eq_of_lt hop]
  exact ⟨hword 0x02 (by decide), hword 0x03 (by decide)⟩

end Sys2Proof.Machine
end

section
/-! PROOFS. The delay functions (spec/40_delayline.md R74 to R79): the delay in samples, its smoothed line over a block, and the
history indices of a block. -/

namespace Sys2Proof.Machine

/-! ### Rounding half up (R8) -/

theorem roundHalfUp_nonneg {num : ℤ} (den : ℕ) (h : 0 ≤ num) : 0 ≤ roundHalfUp num den :=
  Int.ediv_nonneg (by omega) (by omega)

/-- Whole steps pass through the rounding. -/
theorem roundHalfUp_add_mul (a k : ℤ) {den : ℕ} (hd : 0 < den) : roundHalfUp (a + k * den) den = roundHalfUp a den + k := by
  unfold roundHalfUp
  rw [show 2 * (a + k * den) + (den : ℤ) = 2 * a + den + k * (2 * den) by ring, Int.add_mul_ediv_right _ _ (by omega)]

/-- Adding `c` before the rounding moves the result by at most `ceil(|c| / den)`. -/
theorem abs_roundHalfUp_add_sub_le (a c : ℤ) {den : ℕ} (hd : 0 < den) :
    |roundHalfUp (a + c) den - roundHalfUp a den| ≤ ⌈(|c| : ℚ) / den⌉ := by
  obtain ⟨k, hk⟩ : ∃ k, k = ⌈(|c| : ℚ) / den⌉ := ⟨_, rfl⟩
  have hc : |c| ≤ k * den := by
    have hle : (|c| : ℚ) / den ≤ k := hk ▸ Int.le_ceil _
    rw [div_le_iff₀ (Nat.cast_pos.2 hd)] at hle
    exact_mod_cast hle
  obtain ⟨hlo, hhi⟩ := abs_le.1 hc
  have hup : roundHalfUp (a + c) den ≤ roundHalfUp a den + k :=
    roundHalfUp_add_mul a k hd ▸ roundHalfUp_mono (by omega)
  have hdown : roundHalfUp a den ≤ roundHalfUp (a + c) den + k :=
    roundHalfUp_add_mul (a + c) k hd ▸ roundHalfUp_mono (by omega)
  rw [← hk, abs_le]
  omega

/-! ### The delay of a delay word (R75, R76) -/

/-- R32: the block size never exceeds the capacity, both being 0 while unprepared. -/
theorem DlUnit.Inv.bs_le_cap {p : Config.Params} {d : DlUnit} (h : d.Inv p) : d.bs.toNat ≤ d.cap.toNat := by
  cases hprep : d.prepared with
  | false =>
    obtain ⟨_, hbs, hcap, _⟩ := h.unprepared hprep
    rw [hbs, hcap]
  | true =>
    obtain ⟨_, _, _, hle, _⟩ := h.prepared hprep
    exact hle

theorem DlUnit.natCast_samples (d : DlUnit) (q : Word) :
    (d.samples q : ℤ) = roundHalfUp (d.sr.toNat * q.toNat : ℕ) 65536000 :=
  Int.toNat_of_nonneg (roundHalfUp_nonneg _ (Int.natCast_nonneg _))

/-- Settles O17: rounding half up is a floor, and the clamp's subtraction is exact because `BS ≤ CAP`. -/
theorem delayInSamplesIsRoundedAndClamped : Obligations.DelayInSamplesIsRoundedAndClamped := by
  intro p d q hd
  refine ⟨?_, ?_⟩
  · rw [DlUnit.natCast_samples, roundHalfUp_eq_floor _ (by decide)]
    push_cast
    rfl
  · rw [DlUnit.clamped, Nat.cast_min, Nat.cast_sub hd.bs_le_cap]

/-! ### The line of a smoothing block (R77, R78) -/

/-- R78 as an integer: the rounded line from `Dp` at sample 0 to `Dn` at sample `BS`. -/
def DlUnit.line (d : DlUnit) (j : Nat) : ℤ :=
  roundHalfUp ((d.clamped d.prevDelay : ℤ) * d.bs.toNat + ((d.clamped d.curDelay : ℤ) - d.clamped d.prevDelay) * j)
    d.bs.toNat

section
variable {d : DlUnit} {j : Nat}

theorem DlUnit.line_zero (hbs : 0 < d.bs.toNat) : d.line 0 = d.clamped d.prevDelay := by
  rw [line, Nat.cast_zero, mul_zero, add_zero, roundHalfUp_mul _ hbs]

theorem DlUnit.line_bs (hbs : 0 < d.bs.toNat) : d.line d.bs.toNat = d.clamped d.curDelay := by
  rw [line, show ((d.clamped d.prevDelay : ℤ) * d.bs.toNat + (d.clamped d.curDelay - d.clamped d.prevDelay) * d.bs.toNat) =
    d.clamped d.curDelay * d.bs.toNat by ring, roundHalfUp_mul _ hbs]

theorem DlUnit.line_eq_floor (hbs : 0 < d.bs.toNat) :
    d.line j = ⌊(d.clamped d.prevDelay : ℚ) +
      ((d.clamped d.curDelay : ℚ) - d.clamped d.prevDelay) * j / d.bs.toNat + 1 / 2⌋ := by
  have hne : (d.bs.toNat : ℚ) ≠ 0 := Nat.cast_ne_zero.2 hbs.ne'
  rw [line, roundHalfUp_eq_floor _ hbs]
  push_cast
  rw [add_div, mul_div_cancel_right₀ _ hne]

/-- Up to the end of the block the line lies between its ends. -/
theorem DlUnit.line_bounds (hbs : 0 < d.bs.toNat) (hj : j ≤ d.bs.toNat) :
    min (d.clamped d.prevDelay : ℤ) (d.clamped d.curDelay) ≤ d.line j ∧
      d.line j ≤ max (d.clamped d.prevDelay : ℤ) (d.clamped d.curDelay) := by
  unfold line
  generalize (d.clamped d.prevDelay : ℤ) = dp
  generalize (d.clamped d.curDelay : ℤ) = dn
  have hj' : (j : ℤ) ≤ d.bs.toNat := Nat.cast_le.2 hj
  have hj0 : (0 : ℤ) ≤ j := Int.natCast_nonneg j
  constructor
  · rw [← roundHalfUp_mul (min dp dn) hbs]
    apply roundHalfUp_mono
    rcases le_total dp dn with h | h
    · rw [min_eq_left h]; nlinarith
    · rw [min_eq_right h]; nlinarith
  · rw [← roundHalfUp_mul (max dp dn) hbs]
    apply roundHalfUp_mono
    rcases le_total dp dn with h | h
    · rw [max_eq_right h]; nlinarith
    · rw [max_eq_left h]; nlinarith

/-- R96: the line's step. -/
theorem DlUnit.abs_line_step_le (hbs : 0 < d.bs.toNat) (j : Nat) :
    |d.line (j + 1) - d.line j| ≤
      ⌈|((d.clamped d.curDelay : ℤ) : ℚ) - (d.clamped d.prevDelay : ℤ)| / d.bs.toNat⌉ := by
  have hstep := abs_roundHalfUp_add_sub_le ((d.clamped d.prevDelay : ℤ) * d.bs.toNat +
    ((d.clamped d.curDelay : ℤ) - d.clamped d.prevDelay) * j) (d.clamped d.curDelay - d.clamped d.prevDelay) hbs
  have hnext : d.line (j + 1) = roundHalfUp ((d.clamped d.prevDelay : ℤ) * d.bs.toNat +
      ((d.clamped d.curDelay : ℤ) - d.clamped d.prevDelay) * j + (d.clamped d.curDelay - d.clamped d.prevDelay))
      d.bs.toNat := by
    rw [line]; push_cast; congr 1; ring
  rw [Int.cast_sub] at hstep
  rw [hnext]
  exact hstep

/-- R77, R78: without smoothing every sample has the delay `Dn`. -/
theorem DlUnit.delayOf_of_not_changed {eps : Word} (h : d.changed eps = false) (j : Nat) :
    d.delayOf eps j = d.clamped d.curDelay := by
  simp [delayOf, h]

/-- R78: a smoothing block follows the line. -/
theorem DlUnit.delayOf_of_changed {eps : Word} (h : d.changed eps = true) (hbs : 0 < d.bs.toNat) (hj : j ≤ d.bs.toNat) :
    (d.delayOf eps j : ℤ) = d.line j := by
  have hlo := (line_bounds hbs hj).1
  have hdelay : d.delayOf eps j = (d.line j).toNat := by simp [delayOf, h, line]
  rw [hdelay, Int.toNat_of_nonneg (by omega)]

/-- R76, R78: the delay of a sample lies between the block's two delays. -/
theorem DlUnit.delayOf_bounds (eps : Word) (hbs : 0 < d.bs.toNat) (hj : j ≤ d.bs.toNat) :
    min (d.clamped d.prevDelay : ℤ) (d.clamped d.curDelay) ≤ d.delayOf eps j ∧
      (d.delayOf eps j : ℤ) ≤ max (d.clamped d.prevDelay : ℤ) (d.clamped d.curDelay) := by
  cases h : d.changed eps with
  | false =>
    rw [delayOf_of_not_changed h]
    exact ⟨min_le_right _ _, le_max_right _ _⟩
  | true =>
    rw [delayOf_of_changed h hbs hj]
    exact line_bounds hbs hj

end

/-- A prepared unit's block has a sample. -/
theorem DlUnit.Inv.bs_pos {p : Config.Params} {d : DlUnit} (h : d.Inv p) (hprep : d.prepared = true) : 0 < d.bs.toNat := by
  obtain ⟨_, hbs, _⟩ := h.prepared hprep
  exact hbs

/-- Settles O18: the line of a smoothing block, or `Dn`, and the bounds of both. -/
theorem smoothedDelayIsTheRoundedLine : Obligations.SmoothedDelayIsTheRoundedLine := by
  intro p d j hd hprep hj dn dp
  have hbs := hd.bs_pos hprep
  obtain ⟨hlo, hhi⟩ := DlUnit.delayOf_bounds p.epsQ hbs hj.le
  have hcap := hd.bs_le_cap
  have hdn := d.clamped_le d.curDelay
  have hdp := d.clamped_le d.prevDelay
  refine ⟨?_, hlo, hhi, by omega⟩
  cases h : d.changed p.epsQ with
  | false =>
    rw [if_neg (by simpa [DlUnit.changed] using h), DlUnit.delayOf_of_not_changed h]
  | true =>
    rw [if_pos (by simpa [DlUnit.changed] using h), DlUnit.delayOf_of_changed h hbs hj.le, DlUnit.line_eq_floor hbs]
    rfl

/-- Settles O21: the line's start, its step, and its end at `Dn`. -/
theorem delayStepIsBounded : Obligations.DelayStepIsBounded := by
  intro p d hd hprep dn dp
  have hbs := hd.bs_pos hprep
  refine ⟨fun h => ⟨?_, fun j hj => ?_, ?_⟩, fun h j => ?_⟩
  · rw [DlUnit.delayOf_of_changed h hbs (Nat.zero_le _), DlUnit.line_zero hbs]
  · rw [DlUnit.delayOf_of_changed h hbs hj.le, DlUnit.delayOf_of_changed h hbs (by omega)]
    exact DlUnit.abs_line_step_le hbs j
  · have hlast := DlUnit.abs_line_step_le hbs (d.bs.toNat - 1)
    rw [Nat.sub_add_cancel hbs, DlUnit.line_bs hbs] at hlast
    rw [DlUnit.delayOf_of_changed h hbs (by omega)]
    exact hlast
  · rw [DlUnit.delayOf_of_not_changed h]

/-! ### The history indices (R79, R82) -/

/-- R92: a block command reads inside the capacity, which the latch keeps. -/
theorem DlUnit.Inv.latch_readIndex_lt {p : Config.Params} {d : DlUnit} (h : d.Inv p) (hprep : d.prepared = true) (eps : Word)
    (j : Nat) : d.latch.readIndex eps j < d.cap.toNat := by
  have hpos := h.cap_pos hprep
  rw [← d.latch_cap] at hpos ⊢
  exact DlUnit.readIndex_lt eps j hpos

/-- Settles O19: both indices are remainders by the capacity, and the latch keeps the write index. -/
theorem historyIndexesStayInside : Obligations.HistoryIndexesStayInside := by
  intro p d j hd hprep _
  refine ⟨?_, hd.latch_readIndex_lt hprep p.epsQ j⟩
  rw [DlUnit.latch_writeIndex]
  exact d.writeIndex_lt j (hd.cap_pos hprep)

/-- R93: an index that runs less than `cap` past a start below `cap` wraps at most once. -/
theorem add_mod_eq_ite {start j cap : Nat} (hstart : start < cap) (hj : j < cap) :
    (start + j) % cap = if j < cap - start then start + j else j - (cap - start) := by
  split
  · rw [Nat.mod_eq_of_lt (by omega)]
  · rw [Nat.mod_eq_sub_mod (by omega), Nat.mod_eq_of_lt (by omega)]
    omega

/-- Settles O20: the read position is reduced before `j` is added instead of after, and the run's wrap is `add_mod_eq_ite`. -/
theorem fastPathReadsOneRun : Obligations.FastPathReadsOneRun := by
  refine ⟨fun p d j hd hprep _ hfast => ?_, fun p d start j hd hprep hj hstart => ?_⟩
  · have hle := d.clamped_le d.curDelay
    rw [Nat.mod_add_mod, DlUnit.readIndex, DlUnit.delayOf_of_not_changed hfast]
    congr 1
    omega
  · exact add_mod_eq_ite hstart (hj.trans_le hd.bs_le_cap)

end Sys2Proof.Machine
end

section
/-! PROOFS. The DL commands (spec/40_delayline.md R81 to R86, R98): what each does by its own checks, and that only an unwritten
I/O element stops one. -/

namespace Sys2Proof.Machine

/-! ### Sizing and releasing (R81, R85) -/

/-- Settles O22: R81's checks in order, then the sizes of R74 and the cleared history. -/
theorem prepareSizesAndClears : Obligations.PrepareSizesAndClears := by
  intro s hp fails badBlock cap
  have hcap : (capacity s.dl.prepSr.toNat s.dl.prepBs.toNat s.dl.prepMaxd.toNat : ℤ) = cap := capacity_eq_ceil _ _ _
  have hbs (h : ¬badBlock) : ¬(s.dl.prepBs = 0 ∨ s.params.maxBlock < s.dl.prepBs.toNat) :=
    fun hbad => h (hbad.imp_left (congrArg BitVec.toNat))
  have hsr (h : s.dl.prepSr.toNat ≠ 0) : s.dl.prepSr ≠ 0 := fun h0 => h (congrArg BitVec.toNat h0)
  refine ⟨fun hbad => ?_, fun hok hrate => ?_, fun hok hrate hlarge => ?_, fun hok hrate hfits => ?_⟩
  · exact if_pos (hbad.imp_left BitVec.eq_of_toNat_eq)
  · exact (if_neg (hbs hok)).trans (if_pos (BitVec.eq_of_toNat_eq hrate))
  · exact (if_neg (hbs hok)).trans ((if_neg (hsr hrate)).trans (if_pos (by omega)))
  · have hdepth : capacity s.dl.prepSr.toNat s.dl.prepBs.toNat s.dl.prepMaxd.toNat ≤ s.params.histDepth := by omega
    have hword := toNat_ofNat_capacity hp hdepth
    refine ⟨BitVec.ofNat 32 _, s.hist.clear s.params _, by rw [hword, hcap],
      (if_neg (hbs hok)).trans ((if_neg (hsr hrate)).trans (if_neg (by omega))), fun ch i _ hi => ?_, fun a ha => ?_⟩
    · rw [hword] at hi
      exact History.elem_clear _ _ hi (by omega)
    · rw [hword] at ha
      rw [History.byte_clear, if_neg (by omega)]

/-- R32: a unit's capacity lies in the history, being 0 while unprepared. -/
theorem DlUnit.Inv.cap_le_histDepth {p : Config.Params} {d : DlUnit} (h : d.Inv p) : d.cap.toNat ≤ p.histDepth := by
  cases hprep : d.prepared with
  | false =>
    obtain ⟨_, _, hcap, _⟩ := h.unprepared hprep
    rw [hcap]
    exact Nat.zero_le _
  | true =>
    obtain ⟨_, _, _, _, hdepth, _⟩ := h.prepared hprep
    exact hdepth

/-- Settles O27: the history is cleared up to the capacity, which lies in it. -/
theorem releaseClearsTheUnit : Obligations.ReleaseClearsTheUnit := by
  intro s _ hd
  refine ⟨s.hist.clear s.params s.dl.cap.toNat, rfl, fun ch i _ hi => ?_, fun a ha => ?_⟩
  · exact History.elem_clear _ _ hi (hi.trans_le hd.cap_le_histDepth)
  · rw [History.byte_clear, if_neg (Nat.not_lt.2 ha)]

/-! ### Advancing (R84), clearing an error (R86, R110) -/

/-- R84: DL_ADVANCE of a prepared unit. -/
theorem exec_dlAdvance_prepared {s : State} (h : s.dl.prepared = true) :
    exec .dlAdvance s = .next (s.setDl
      { s.dl with
        wpos := BitVec.ofNat 32 ((s.dl.wpos.toNat + s.dl.bs.toNat) % s.dl.cap.toNat), prevDelay := s.dl.curDelay,
        blockOpen := false }) := if_pos h

/-- Settles O26: the position is reduced by the capacity, so it fits its register. -/
theorem advanceMovesTheWritePosition : Obligations.AdvanceMovesTheWritePosition :=
  fun _ hd hprep => ⟨_, exec_dlAdvance_prepared hprep, toNat_ofNat_mod (hd.cap_pos hprep) _⟩

/-- Settles O28: both commands are one update. -/
theorem clrerrClearsItsUnitsError : Obligations.ClrerrClearsItsUnitsError := fun _ => ⟨rfl, rfl⟩

/-! ### The checks and the loops of the block commands (R80, R82, R83, R123) -/

section
variable {s : State} {ch len : Nat}

theorem exec_dlWrite_failed {e : ErrCode} (h : blockCheck s ch len = some e) :
    exec (.dlWrite ch len) s = .next (s.raiseDl e) := by
  simp only [exec, execDlWrite, h]

theorem exec_dlReadmix_failed {e : ErrCode} (h : blockCheck s ch len = some e) :
    exec (.dlReadmix ch len) s = .next (s.raiseDl e) := by
  simp only [exec, execDlReadmix, h]

theorem exec_dlWrite_done {g : History} (h : blockCheck s ch len = none)
    (hg : writeBlock (s.setDl s.dl.latch) ch = some g) :
    exec (.dlWrite ch len) s = .next (((s.setDl s.dl.latch).setHist g).take s.dl.bs.toNat) := by
  simp only [exec, execDlWrite, h, hg]

theorem exec_dlReadmix_done {m : Memory} (h : blockCheck s ch len = none)
    (hm : mixBlock (s.setDl s.dl.latch) ch = some m) :
    exec (.dlReadmix ch len) s = .next (((s.setDl s.dl.latch).setIo m).take s.dl.bs.toNat) := by
  simp only [exec, execDlReadmix, h, hm]

theorem exec_dlWrite_uninit (h : blockCheck s ch len = none) (hg : writeBlock (s.setDl s.dl.latch) ch = none) :
    exec (.dlWrite ch len) s = .fault .uninitRead := by
  simp only [exec, execDlWrite, h, hg]

theorem exec_dlReadmix_uninit (h : blockCheck s ch len = none) (hm : mixBlock (s.setDl s.dl.latch) ch = none) :
    exec (.dlReadmix ch len) s = .fault .uninitRead := by
  simp only [exec, execDlReadmix, h, hm]

/-- A loop whose every turn has a value has one. -/
theorem forUpTo_isSome {α : Type} {n : Nat} {f : Nat → α → Option α} {a : α}
    (h : ∀ k b, k < n → (f k b).isSome = true) : (forUpTo n f a).isSome = true := by
  obtain ⟨c, hc, _⟩ := forUpTo_induct (n := n) (f := f) (a := a) (fun _ _ => True) trivial fun k b hk _ =>
    (Option.isSome_iff_exists.1 (h k b hk)).imp fun c hc => ⟨hc, trivial⟩
  rw [hc]
  rfl

/-- R82's loop has a value exactly when the block has been written. -/
theorem writeBlock_isSome_iff : (writeBlock s ch).isSome = true ↔
    ∀ j, j < s.dl.bs.toNat → (s.io.word? (ioAddr s.params ch j)).isSome = true := by
  refine ⟨fun h j hj => ?_, fun h => forUpTo_isSome fun k b hk => ?_⟩
  · rw [Option.isSome_iff_ne_none] at h ⊢
    exact fun hn => h (writeBlock_none hj hn)
  · obtain ⟨x, hx⟩ := Option.isSome_iff_exists.1 (h k hk)
    rw [hx]
    rfl

/-- R83's loop has a value exactly when the block has been written. -/
theorem mixBlock_isSome_iff : (mixBlock s ch).isSome = true ↔
    ∀ j, j < s.dl.bs.toNat → (s.io.word? (ioAddr s.params ch j)).isSome = true := by
  refine ⟨fun h j hj => ?_, fun h => ?_⟩
  · rw [Option.isSome_iff_ne_none] at h ⊢
    exact fun hn => h (mixBlock_none hj hn)
  · obtain ⟨m, hm, _⟩ := mixBlock_spec h
    exact Option.isSome_iff_exists.2 ⟨m, hm⟩

/-- R127: where a loop over the block has no value, some I/O element of it is unwritten. -/
theorem exists_unwritten {α : Type} {r : Option α}
    (hr : r.isSome = true ↔ ∀ j, j < s.dl.bs.toNat → (s.io.word? (ioAddr s.params ch j)).isSome = true) (h : r = none) :
    ∃ j, j < s.dl.bs.toNat ∧ s.io.word? (ioAddr s.params ch j) = none := by
  have hnot := hr.not.1 (by simp [h])
  simpa using hnot

end

/-- Settles O25: each failure is the first of the checks of R123 that fails. -/
theorem blockCommandsFailInOrder : Obligations.BlockCommandsFailInOrder := by
  intro s ch len i hi fails
  have hfails {e : ErrCode} (h : blockCheck s ch len = some e) : fails i e := by
    rcases hi with rfl | rfl
    · exact exec_dlWrite_failed h
    · exact exec_dlReadmix_failed h
  refine ⟨fun hprep => ⟨hfails (by simp [blockCheck, hprep]), if_neg (by simp [hprep])⟩,
    fun hprep hch => hfails (by simp [blockCheck, hprep, hch]),
    fun hprep hch hlen => hfails (by simp [blockCheck, hprep, Nat.not_le.2 hch, hlen])⟩

/-- Settles O23: the loop of R82, run on the latched unit. -/
theorem writeStoresTheGainedBlock : Obligations.WriteStoresTheGainedBlock := by
  rintro s ch len _ hd ⟨hprep, hch, hlen, hready⟩
  obtain ⟨h, hh, helem, hframe⟩ := writeBlock_spec (s := s.setDl s.dl.latch) (ch := ch)
    (by simpa using hd.bs_le_cap) (by simpa using hready)
  simp only [State.setDl_dl, State.setDl_io, State.setDl_params, State.setDl_hist, State.setDl_freeCount,
    DlUnit.latch_bs, DlUnit.latch_gain, DlUnit.latch_writeIndex] at helem hframe
  refine ⟨h, ?_, helem, hframe⟩
  rw [exec_dlWrite_done (blockCheck_eq_none.2 ⟨hprep, hch, hlen⟩) hh, DlUnit.latch_eq]
  rfl

/-- Settles O24: the loop of R83, run on the latched unit. -/
theorem readmixAddsTheDelayedBlock : Obligations.ReadmixAddsTheDelayedBlock := by
  rintro s ch len ⟨hprep, hch, hlen, hready⟩ d
  have hlatch : s.dl.latch = d := DlUnit.latch_eq s.dl
  obtain ⟨m, hm, helem, hframe⟩ := mixBlock_spec (s := s.setDl d) (ch := ch) hready
  refine ⟨m, ?_, helem, hframe⟩
  rw [exec_dlReadmix_done (blockCheck_eq_none.2 ⟨hprep, hch, hlen⟩) (hlatch ▸ hm), hlatch]
  rfl

/-! ### Completion (R98, R100, R117, R127) -/

/-- A choice between outcomes that complete completes. -/
theorem exists_next_ite {c : Prop} [Decidable c] {a b : Host.Outcome State Fault Refusal} (ha : ∃ t, a = .next t)
    (hb : ∃ t, b = .next t) : ∃ t, (if c then a else b) = .next t := by
  split
  · exact ha
  · exact hb

/-- Settles O50: the two block commands complete when their loop does; every other command answers by its checks alone. -/
theorem commandsCompleteUnlessUninitRead : Obligations.CommandsCompleteUnlessUninitRead := by
  intro i s
  cases i with
  | dlWrite ch len =>
    cases hcheck : blockCheck s ch len with
    | some e => exact .inl ⟨_, exec_dlWrite_failed hcheck⟩
    | none =>
      cases hg : writeBlock (s.setDl s.dl.latch) ch with
      | some g => exact .inl ⟨_, exec_dlWrite_done hcheck hg⟩
      | none =>
        obtain ⟨_, _, rfl⟩ := blockCheck_eq_none.1 hcheck
        obtain ⟨j, hj, hnone⟩ := exists_unwritten writeBlock_isSome_iff hg
        exact .inr ⟨exec_dlWrite_uninit hcheck hg, ch, j, .inl rfl, by simpa using hj, hnone⟩
  | dlReadmix ch len =>
    cases hcheck : blockCheck s ch len with
    | some e => exact .inl ⟨_, exec_dlReadmix_failed hcheck⟩
    | none =>
      cases hm : mixBlock (s.setDl s.dl.latch) ch with
      | some m => exact .inl ⟨_, exec_dlReadmix_done hcheck hm⟩
      | none =>
        obtain ⟨_, _, rfl⟩ := blockCheck_eq_none.1 hcheck
        obtain ⟨j, hj, hnone⟩ := exists_unwritten mixBlock_isSome_iff hm
        exact .inr ⟨exec_dlReadmix_uninit hcheck hm, ch, j, .inr rfl, by simpa using hj, hnone⟩
  | dlPrepare => exact .inl (exists_next_ite ⟨_, rfl⟩ (exists_next_ite ⟨_, rfl⟩ (exists_next_ite ⟨_, rfl⟩ ⟨_, rfl⟩)))
  | dlAdvance => exact .inl (exists_next_ite ⟨_, rfl⟩ ⟨_, rfl⟩)
  | phSetrate => exact .inl (exists_next_ite ⟨_, rfl⟩ (exists_next_ite ⟨_, rfl⟩ ⟨_, rfl⟩))
  | phSetfreq => exact .inl (exists_next_ite ⟨_, rfl⟩ (exists_next_ite ⟨_, rfl⟩ ⟨_, rfl⟩))
  | phSetphase => exact .inl (exists_next_ite ⟨_, rfl⟩ ⟨_, rfl⟩)
  | dlRelease | dlClrerr | phReset | phNext | phClrerr => exact .inl ⟨_, rfl⟩

/-- Where the first outcome is a next state, so is the second, with the same DL error code and the same PH unit. -/
def FailsAlike (o o' : Host.Outcome State Fault Refusal) : Prop :=
  ∀ t, o = .next t → ∃ t', o' = .next t' ∧ t'.dl.err = t.dl.err ∧ t'.ph = t.ph

section
variable {s : State}

theorem failsAlike_next {t t' : State} (herr : t'.dl.err = t.dl.err) (hph : t'.ph = t.ph) :
    FailsAlike (.next t) (.next t') := by
  rintro _ ⟨⟩
  exact ⟨t', rfl, herr, hph⟩

theorem failsAlike_fault (r : Fault) (o : Host.Outcome State Fault Refusal) : FailsAlike (.fault r) o := by
  rintro t ⟨⟩

theorem FailsAlike.ite {c : Prop} [Decidable c] {a a' b b' : Host.Outcome State Fault Refusal} (ha : FailsAlike a a')
    (hb : FailsAlike b b') : FailsAlike (if c then a else b) (if c then a' else b') := by
  split
  · exact ha
  · exact hb

/-- The machine with another word in `DL_DELAY`. -/
def State.withDelay (s : State) (q : Word) : State := s.setDl { s.dl with delay := q }

/-- R98 for DL_WRITE: neither its checks nor what its loop reads from the I/O buffers depends on the delay. -/
theorem dlWrite_failsAlike (q : Word) (ch len : Nat) :
    FailsAlike (exec (.dlWrite ch len) s) (exec (.dlWrite ch len) (s.withDelay q)) := by
  have hcheck : blockCheck (s.withDelay q) ch len = blockCheck s ch len := rfl
  cases h : blockCheck s ch len with
  | some e =>
    rw [exec_dlWrite_failed h, exec_dlWrite_failed (hcheck.trans h)]
    exact failsAlike_next rfl rfl
  | none =>
    cases hg : writeBlock (s.setDl s.dl.latch) ch with
    | none =>
      rw [exec_dlWrite_uninit h hg]
      exact failsAlike_fault _ _
    | some g =>
      have hread := writeBlock_isSome_iff.1 (Option.isSome_of_eq_some hg)
      obtain ⟨g', hg'⟩ := Option.isSome_iff_exists.1
        (writeBlock_isSome_iff (s := (s.withDelay q).setDl (s.withDelay q).dl.latch) (ch := ch).2
          (by simpa [State.withDelay] using hread))
      rw [exec_dlWrite_done h hg, exec_dlWrite_done (hcheck.trans h) hg']
      exact failsAlike_next (by simp [State.withDelay]) rfl

/-- R98 for DL_READMIX: neither its checks nor what its loop reads from the I/O buffers depends on the delay. -/
theorem dlReadmix_failsAlike (q : Word) (ch len : Nat) :
    FailsAlike (exec (.dlReadmix ch len) s) (exec (.dlReadmix ch len) (s.withDelay q)) := by
  have hcheck : blockCheck (s.withDelay q) ch len = blockCheck s ch len := rfl
  cases h : blockCheck s ch len with
  | some e =>
    rw [exec_dlReadmix_failed h, exec_dlReadmix_failed (hcheck.trans h)]
    exact failsAlike_next rfl rfl
  | none =>
    cases hm : mixBlock (s.setDl s.dl.latch) ch with
    | none =>
      rw [exec_dlReadmix_uninit h hm]
      exact failsAlike_fault _ _
    | some m =>
      have hread := mixBlock_isSome_iff.1 (Option.isSome_of_eq_some hm)
      obtain ⟨m', hm'⟩ := Option.isSome_iff_exists.1
        (mixBlock_isSome_iff (s := (s.withDelay q).setDl (s.withDelay q).dl.latch) (ch := ch).2
          (by simpa [State.withDelay] using hread))
      rw [exec_dlReadmix_done h hm, exec_dlReadmix_done (hcheck.trans h) hm']
      exact failsAlike_next (by simp [State.withDelay]) rfl

end

/-- Settles O54: no check of a command reads `DL_DELAY`. -/
theorem noDelayWordMakesACommandFail : Obligations.NoDelayWordMakesACommandFail := by
  intro i s t q
  suffices halike : FailsAlike (exec i s) (exec i (s.withDelay q)) from halike t
  have hnext {t t' : State} := failsAlike_next (t := t) (t' := t')
  cases i with
  | dlWrite ch len => exact dlWrite_failsAlike q ch len
  | dlReadmix ch len => exact dlReadmix_failsAlike q ch len
  | dlPrepare => exact .ite (hnext rfl rfl) (.ite (hnext rfl rfl) (.ite (hnext rfl rfl) (hnext rfl rfl)))
  | dlAdvance => exact .ite (hnext rfl rfl) (hnext rfl rfl)
  | phSetrate => exact .ite (hnext rfl rfl) (.ite (hnext rfl rfl) (hnext rfl rfl))
  | phSetfreq => exact .ite (hnext rfl rfl) (.ite (hnext rfl rfl) (hnext rfl rfl))
  | phSetphase => exact .ite (hnext rfl rfl) (hnext rfl rfl)
  | dlRelease | dlClrerr | phReset | phNext | phClrerr => exact hnext rfl rfl

end Sys2Proof.Machine
end

section
/-! PROOFS. The DL registers the host writes (spec/40_delayline.md R87 to R89; R111), the corner cases of the gain (R82), silence
(R97) and the independence of the channels (R99). -/

namespace Sys2Proof.Machine

/-! ### Register writes (R87 to R89, R111) -/

/-- A bus write to a row of the map other than the command registers, as a step. -/
theorem step_st32_reg {s : State} {rest : List BusEvent} {a : BusAddr} {v : Word} {r : Reg}
    (h : s.pending = .st32 a v :: rest) (hr : s.inReset = false) (hrow : (a.toNat, r) ∈ addressMap) (hdl : r ≠ .dlCmd)
    (hph : r ≠ .phCmd) : step s = .next (writeReg { s with pending := rest, bus := .written } v r) := by
  obtain ⟨hreg, _, h4⟩ := addressMap_row hrow
  rw [step_st32 h hr h4, busStore_reg v hreg hdl hph]

/-- Settles O10: each address is the row of a register that stores its word. -/
theorem plainRegisterWritesStore : Obligations.PlainRegisterWritesStore := by
  intro s rest a v hr hpend done
  have hwrite (r : Reg) (hrow : (a.toNat, r) ∈ addressMap) (hdl : r ≠ .dlCmd) (hph : r ≠ .phCmd) :
      step s = .next (writeReg done v r) := step_st32_reg hpend hr hrow hdl hph
  refine ⟨?_, ?_, ?_, ?_, ?_, ?_⟩ <;> rintro rfl
  · exact hwrite .dlPrepSr (by decide) (by decide) (by decide)
  · exact hwrite .dlPrepBs (by decide) (by decide) (by decide)
  · exact hwrite .dlPrepMaxd (by decide) (by decide) (by decide)
  · exact hwrite .dlDelay (by decide) (by decide) (by decide)
  · rw [hwrite .phArgLo (by decide) (by decide) (by decide), writeReg, hi_eq_shift]
    rfl
  · rw [hwrite .phArgHi (by decide) (by decide) (by decide), writeReg, lo_eq_setWidth]
    rfl

/-- R88: the legal gains. -/
theorem gainLegal_iff {v : Word} :
    gainLegal v = true ↔ ∃ neg m, val32 v = .fin neg m ∧ (m = 0 ∨ neg = false) ∧ m ≤ 2 ^ 149 := by
  refine ⟨fun h => ?_, fun h => ?_⟩
  · unfold gainLegal at h
    split at h
    · cases h
    · cases h
    · rename_i neg m hv
      rw [binary32_one] at h
      simp only [Bool.or_eq_true, Bool.and_eq_true, decide_eq_true_eq, Bool.not_eq_true'] at h
      refine ⟨neg, m, hv, h.imp_right And.left, ?_⟩
      rcases h with rfl | ⟨_, hle⟩
      · exact Nat.zero_le _
      · exact hle
  · by_contra hill
    exact not_legal_of_gainLegal_eq_false (Bool.eq_false_of_not_eq_true hill) h

/-- Settles O11: the row of `DL_GAIN`, whose write checks its word. -/
theorem gainWriteIsChecked : Obligations.GainWriteIsChecked := by
  intro s rest v hr hpend done
  have hwrite : step s = .next (done.writeGain v) :=
    step_st32_reg (r := .dlGain) hpend hr (by decide) (by decide) (by decide)
  rw [hwrite, ← gainLegal_iff]
  exact ⟨fun hlegal => congrArg _ (if_pos hlegal), fun hill => congrArg _ (if_neg hill)⟩

/-! ### The corner cases of the gain (R82) -/

theorem val32_one32 : val32 one32 = .fin false (2 ^ 149) := by decide +kernel

theorem val32_zero : val32 0 = .fin false 0 := by decide +kernel

/-- Away from a quiet NaN under a gain of 1.0 the stored sample is the product. -/
theorem gained_eq_mul32 {n : Nat} {g x : Word} (h : ¬(g = one32 ∧ val32 x = .nan false)) : gained n g x = mul32 n g x :=
  if_neg h

/-- A finite word is its sign over a pattern that rounding leaves. -/
theorem signed32_round_eq {x : Word} {neg : Bool} {m : Nat} (h : val32 x = .fin neg m) :
    signed32 neg (binary32.round m 1) = x := by
  obtain ⟨p, hp, hx, rfl⟩ := val32_eq_fin h
  rw [binary32.round_eq_min, binary32.wideRound_quanta (by decide), min_eq_left hp.le, signed32_eq_pack, ← hx]

/-- R9: a product of finite values. -/
theorem mul32_fin_fin {a b : Word} {na nb : Bool} {ma mb : Nat} (n : Nat) (ha : val32 a = .fin na ma)
    (hb : val32 b = .fin nb mb) : mul32 n a b = signed32 (na != nb) (binary32.round (ma * mb) (2 ^ 149)) :=
  (finiteArithmeticRoundsTheExactResult.1 n a b na nb ma mb ha hb).1

/-- 1.0 times a number is that number. -/
theorem mul32_one_left (n : Nat) {x : Word} (hx : (val32 x).isNan = false) : mul32 n one32 x = x := by
  cases hv : val32 x with
  | nan s => rw [hv] at hx; cases hx
  | inf neg =>
    obtain ⟨_, hmul⟩ := ((infiniteOperandsGiveInfinities.1 n x one32 neg hv).2 false _ val32_one32).2.2 (by positivity)
    rw [hmul, Bool.bne_false, val32_eq_inf hv]
  | fin neg m =>
    have hscale : binary32.round (m * 2 ^ 149) (2 ^ 149) = binary32.round m 1 := by
      rw [← binary32.round_scale m 1 (Nat.two_pow_pos 149), Nat.one_mul]
    rw [mul32_fin_fin n val32_one32 hv, Bool.false_bne, Nat.mul_comm, hscale, signed32_round_eq hv]

/-- +0.0 times a finite value is the zero of its sign. -/
theorem mul32_zero_left (n : Nat) {x : Word} {neg : Bool} {m : Nat} (hx : val32 x = .fin neg m) :
    mul32 n 0 x = signed32 neg 0 := by
  rw [mul32_fin_fin n val32_zero hx, Nat.zero_mul, FloatFormat.round_zero, Bool.false_bne]

/-- Settles O30: 1.0 and +0.0 times each kind of value. -/
theorem gainOneAndGainZero : Obligations.GainOneAndGainZero := by
  intro n x
  have hzero : gained n 0 x = mul32 n 0 x := gained_eq_mul32 fun h => absurd h.1 (by decide)
  refine ⟨fun hx => ?_, fun hx => ?_, fun neg m hx => ?_, fun hx => ?_⟩
  · cases hv : val32 x with
    | nan s =>
      cases s with
      | true => exact absurd hv hx
      | false => exact if_pos ⟨rfl, hv⟩
    | _ =>
      rw [gained_eq_mul32 (by simp [hv])]
      exact mul32_one_left n (by rw [hv]; rfl)
  · rw [gained_eq_mul32 (by simp [hx])]
    exact ((nanOperandsGiveNanResults n _ x).2.1 (.inr (by rw [hx]; rfl))).1
  · rw [hzero, mul32_zero_left n hx]
    cases neg <;> rfl
  · rw [hzero]
    cases hv : val32 x with
    | nan s => exact ((nanOperandsGiveNanResults n 0 x).1 (.inr (by rw [hv]; rfl))).1
    | inf neg => exact ((nanOperandsGiveNanResults n x 0).2.2.1 neg false hv val32_zero).2
    | fin neg m => rw [hv] at hx; cases hx

/-! ### Silence (R97) -/

/-- A legal gain whose sign bit is 0 is finite and not negative. -/
theorem val32_of_gainLegal {g : Word} (hlegal : gainLegal g = true) (hsign : g.toNat < 2 ^ 31) :
    ∃ m, val32 g = .fin false m := by
  obtain ⟨neg, m, hv, _⟩ := gainLegal_iff.1 hlegal
  obtain ⟨p, hp, hg, _⟩ := val32_eq_fin hv
  cases neg with
  | false => exact ⟨m, hv⟩
  | true =>
    have hsw : binary32.signWeight = 2 ^ 31 := rfl
    rw [hg, toNat_ofNat_pack32 hp.le, FloatFormat.pack, if_pos rfl, hsw] at hsign
    omega

/-- R97: a gain that is +0.0 or positive stores +0.0 for +0.0. -/
theorem gained_zero (n : Nat) {g : Word} {m : Nat} (hg : val32 g = .fin false m) : gained n g 0 = 0 := by
  rw [gained_eq_mul32 (fun h => nomatch val32_zero.symm.trans h.2), mul32_fin_fin n hg val32_zero, Nat.mul_zero,
    FloatFormat.round_zero]
  rfl

/-- R97: +0.0 added to +0.0 is +0.0. -/
theorem add32_zero_zero (n : Nat) : add32 n 0 0 = 0 :=
  (finiteArithmeticRoundsTheExactResult.1 n 0 0 false false 0 0 val32_zero val32_zero).2.2 rfl

section
variable {s t : State} {ch len : Nat}

/-- R82 over elements: what a DL_WRITE that passes its checks has read and left in the history. -/
theorem dlWrite_elems (hd : s.dl.Inv s.params) (hx : exec (.dlWrite ch len) s = .next t)
    (hok : blockCheck s ch len = none) :
    t.dl = s.dl.latch ∧ t.io = s.io ∧
    (∀ j, j < s.dl.bs.toNat → ∃ x, s.io.word? (ioAddr s.params ch j) = some x ∧
      t.hist.elem s.params ch (s.dl.writeIndex j) = gained (s.freeCount + j) s.dl.gain x) ∧
    ∀ c i, i < s.params.histDepth → (c ≠ ch ∨ ∀ j, j < s.dl.bs.toNat → i ≠ s.dl.writeIndex j) →
      t.hist.elem s.params c i = s.hist.elem s.params c i := by
  obtain ⟨hprep, _, _⟩ := blockCheck_eq_none.1 hok
  cases hg : writeBlock (s.setDl s.dl.latch) ch with
  | none => rw [exec_dlWrite_uninit hok hg] at hx; cases hx
  | some g =>
    rw [exec_dlWrite_done hok hg] at hx
    cases hx
    obtain ⟨hread, helem, hframe⟩ := writeBlock_elems (by simpa using hd.bs_le_cap) (by simpa using hd.cap_pos hprep)
      (by simpa using hd.cap_le_histDepth) hg
    simp only [State.setDl_dl, State.setDl_io, State.setDl_params, State.setDl_hist, State.setDl_freeCount,
      DlUnit.latch_bs, DlUnit.latch_gain, DlUnit.latch_writeIndex] at hread helem hframe
    refine ⟨rfl, rfl, fun j hj => ?_, hframe⟩
    obtain ⟨x, hx⟩ := Option.isSome_iff_exists.1 (hread j hj)
    exact ⟨x, hx, helem j x hj hx⟩

/-- R83 over elements: what a DL_READMIX that passes its checks has read and left in the buffers. -/
theorem dlReadmix_elems (hd : s.dl.Inv s.params) (hx : exec (.dlReadmix ch len) s = .next t)
    (hok : blockCheck s ch len = none) :
    t.dl = s.dl.latch ∧ t.hist = s.hist ∧
    (∀ j, j < s.dl.bs.toNat → ∃ x, s.io.word? (ioAddr s.params ch j) = some x ∧
      t.io.word? (ioAddr s.params ch j) = some
        (add32 (s.freeCount + j) x (s.hist.elem s.params ch (s.dl.latch.readIndex s.params.epsQ j)))) ∧
    ∀ c j, j < s.params.maxBlock → (c ≠ ch ∨ s.dl.bs.toNat ≤ j) →
      t.io.word? (ioAddr s.params c j) = s.io.word? (ioAddr s.params c j) := by
  obtain ⟨hprep, _, _⟩ := blockCheck_eq_none.1 hok
  obtain ⟨_, _, hmax, _⟩ := hd.prepared hprep
  cases hm : mixBlock (s.setDl s.dl.latch) ch with
  | none => rw [exec_dlReadmix_uninit hok hm] at hx; cases hx
  | some m =>
    rw [exec_dlReadmix_done hok hm] at hx
    cases hx
    obtain ⟨hread, helem, hframe⟩ := mixBlock_elems (by simpa using hmax) hm
    simp only [State.setDl_dl, State.setDl_io, State.setDl_params, State.setDl_hist, State.setDl_freeCount,
      DlUnit.latch_bs] at hread helem hframe
    refine ⟨rfl, rfl, fun j hj => ?_, hframe⟩
    obtain ⟨x, hx⟩ := Option.isSome_iff_exists.1 (hread j hj)
    exact ⟨x, hx, helem j x hj hx⟩

end

/-- Settles O31: each stored and each mixed element is made of zeros. -/
theorem silenceStaysSilent : Obligations.SilenceStaysSilent := by
  intro s t ch _ hd hprep hch hsign hio hhist
  have hok : blockCheck s ch s.dl.bs.toNat = none := blockCheck_eq_none.2 ⟨hprep, hch, rfl⟩
  refine ⟨fun hx i hi => ?_, fun hx j hj => ?_⟩
  · obtain ⟨_, _, helem, hframe⟩ := dlWrite_elems hd hx hok
    by_cases hwritten : ∃ j, j < s.dl.bs.toNat ∧ i = s.dl.writeIndex j
    · obtain ⟨j, hj, rfl⟩ := hwritten
      obtain ⟨x, hread, hstore⟩ := helem j hj
      obtain ⟨m, hgain⟩ := val32_of_gainLegal hd.gain hsign
      rw [hio j hj] at hread
      cases hread
      rw [hstore, gained_zero _ hgain]
    · rw [hframe ch i (hi.trans_le hd.cap_le_histDepth) (.inr fun j hj heq => hwritten ⟨j, hj, heq⟩), hhist i hi]
  · obtain ⟨_, _, helem, _⟩ := dlReadmix_elems hd hx hok
    obtain ⟨x, hread, hmixed⟩ := helem j hj
    rw [hio j hj] at hread
    cases hread
    rw [hmixed, hhist _ (hd.latch_readIndex_lt hprep _ _), add32_zero_zero]

/-! ### Independence of the channels (R99) -/

/-- Two machines hold the same in a channel's buffer and history. -/
def AgreeOn (p : Config.Params) (c : Nat) (s t : State) : Prop :=
  (∀ j, j < p.maxBlock → s.io.word? (ioAddr p c j) = t.io.word? (ioAddr p c j)) ∧
    ∀ k, k < p.histDepth → s.hist.elem p c k = t.hist.elem p c k

section
variable {s s' t t' : State} {ch other len : Nat}

/-- The checks of the block commands read the DL unit and the parameters alone. -/
theorem blockCheck_congr (ch len : Nat) (hparams : s'.params = s.params) (hdl : s'.dl = s.dl) :
    blockCheck s' ch len = blockCheck s ch len := by
  rw [blockCheck, hparams, hdl, blockCheck]

/-- R99 for DL_WRITE. -/
theorem dlWrite_agreeOn (hd : s.dl.Inv s.params) (hother : other ≠ ch) (hparams : s'.params = s.params)
    (hdl : s'.dl = s.dl) (hfree : s'.freeCount = s.freeCount) (hagree : AgreeOn s.params ch s' s)
    (hx : exec (.dlWrite ch len) s = .next t) (hx' : exec (.dlWrite ch len) s' = .next t') :
    AgreeOn s.params other t s ∧ t'.dl = t.dl ∧ AgreeOn s.params ch t' t := by
  obtain ⟨hagreeIo, hagreeHist⟩ := hagree
  have hcheck := blockCheck_congr ch len hparams hdl
  cases hok : blockCheck s ch len with
  | some e =>
    rw [exec_dlWrite_failed hok] at hx
    rw [exec_dlWrite_failed (hcheck.trans hok)] at hx'
    cases hx
    cases hx'
    exact ⟨⟨fun _ _ => rfl, fun _ _ => rfl⟩, by simp only [State.raiseDl_dl, hdl], hagreeIo, hagreeHist⟩
  | none =>
    obtain ⟨hprep, _, _⟩ := blockCheck_eq_none.1 hok
    obtain ⟨_, _, hmax, _⟩ := hd.prepared hprep
    obtain ⟨htdl, htio, helem, hframe⟩ := dlWrite_elems hd hx hok
    obtain ⟨htdl', htio', helem', hframe'⟩ := dlWrite_elems (hparams ▸ hdl ▸ hd) hx' (hcheck.trans hok)
    rw [hparams, hdl, hfree] at helem'
    rw [hparams, hdl] at hframe'
    refine ⟨⟨fun j _ => by rw [htio], fun k hk => hframe other k hk (.inl hother)⟩, by rw [htdl, htdl', hdl],
      fun j hj => by rw [htio, htio', hagreeIo j hj], fun k hk => ?_⟩
    by_cases hwritten : ∃ j, j < s.dl.bs.toNat ∧ k = s.dl.writeIndex j
    · obtain ⟨j, hj, rfl⟩ := hwritten
      obtain ⟨x, hread, hstore⟩ := helem j hj
      obtain ⟨x', hread', hstore'⟩ := helem' j hj
      rw [hagreeIo j (hj.trans_le hmax), hread] at hread'
      cases hread'
      rw [hstore, hstore']
    · have hne : ∀ j, j < s.dl.bs.toNat → k ≠ s.dl.writeIndex j := fun j hj heq => hwritten ⟨j, hj, heq⟩
      rw [hframe ch k hk (.inr hne), hframe' ch k hk (.inr hne), hagreeHist k hk]

/-- R99 for DL_READMIX. -/
theorem dlReadmix_agreeOn (hd : s.dl.Inv s.params) (hother : other ≠ ch) (hparams : s'.params = s.params)
    (hdl : s'.dl = s.dl) (hfree : s'.freeCount = s.freeCount) (hagree : AgreeOn s.params ch s' s)
    (hx : exec (.dlReadmix ch len) s = .next t) (hx' : exec (.dlReadmix ch len) s' = .next t') :
    AgreeOn s.params other t s ∧ t'.dl = t.dl ∧ AgreeOn s.params ch t' t := by
  obtain ⟨hagreeIo, hagreeHist⟩ := hagree
  have hcheck := blockCheck_congr ch len hparams hdl
  cases hok : blockCheck s ch len with
  | some e =>
    rw [exec_dlReadmix_failed hok] at hx
    rw [exec_dlReadmix_failed (hcheck.trans hok)] at hx'
    cases hx
    cases hx'
    exact ⟨⟨fun _ _ => rfl, fun _ _ => rfl⟩, by simp only [State.raiseDl_dl, hdl], hagreeIo, hagreeHist⟩
  | none =>
    obtain ⟨hprep, _, _⟩ := blockCheck_eq_none.1 hok
    obtain ⟨_, _, hmax, _⟩ := hd.prepared hprep
    obtain ⟨htdl, hthist, helem, hframe⟩ := dlReadmix_elems hd hx hok
    obtain ⟨htdl', hthist', helem', hframe'⟩ := dlReadmix_elems (hparams ▸ hdl ▸ hd) hx' (hcheck.trans hok)
    rw [hparams, hdl, hfree] at helem'
    rw [hparams, hdl] at hframe'
    refine ⟨⟨fun j hj => hframe other j hj (.inl hother), fun k _ => by rw [hthist]⟩, by rw [htdl, htdl', hdl],
      fun j hj => ?_, fun k hk => by rw [hthist, hthist', hagreeHist k hk]⟩
    by_cases hmixed : j < s.dl.bs.toNat
    · obtain ⟨x, hread, hmix⟩ := helem j hmixed
      obtain ⟨x', hread', hmix'⟩ := helem' j hmixed
      have hlt : s.dl.latch.readIndex s.params.epsQ j < s.params.histDepth :=
        (hd.latch_readIndex_lt hprep _ _).trans_le hd.cap_le_histDepth
      rw [hagreeIo j hj, hread] at hread'
      cases hread'
      rw [hmix, hmix', hagreeHist _ hlt]
    · rw [hframe ch j hj (.inr (by omega)), hframe' ch j hj (.inr (by omega)), hagreeIo j hj]

end

/-- Settles O32, command by command. -/
theorem channelsAreIndependent : Obligations.ChannelsAreIndependent := by
  intro s s' t t' ch other len i hi _ hd hother hparams hdl hfree hio hhist hx hx'
  have hresult : AgreeOn s.params other t s ∧ t'.dl = t.dl ∧ AgreeOn s.params ch t' t := by
    rcases hi with rfl | rfl
    · exact dlWrite_agreeOn hd hother hparams hdl hfree ⟨hio, hhist⟩ hx hx'
    · exact dlReadmix_agreeOn hd hother hparams hdl hfree ⟨hio, hhist⟩ hx hx'
  obtain ⟨⟨hotherIo, hotherHist⟩, hdl', hchIo, hchHist⟩ := hresult
  exact ⟨hotherIo, hotherHist, hdl', hchIo, hchHist⟩

end Sys2Proof.Machine
end

section
/-! PROOFS. Runs of a bus order (spec/20_memory.md R55, R56): what a list of bus events makes of every state that meets an
assertion, event by event; with it the write position after ADVANCEs (spec/40_delayline.md R94). -/

namespace Sys2Proof.Machine

/-- From every state that meets `P` and has `es` next in its bus order, the events run to their end and leave a state that meets
`Q`, with the rest of the bus order still to come. -/
def Runs (P : State → Prop) (es : List BusEvent) (Q : State → Prop) : Prop :=
  ∀ s rest, P s → s.pending = es ++ rest →
    ∃ t, Sys2Proof.core.run es.length s = .next t ∧ t.pending = rest ∧ Q t

/-- A run goes on where its first part ends. -/
theorem run_add (M : Host.Core) {m : Nat} (n : Nat) {s t : M.State} (h : M.run m s = .next t) :
    M.run (m + n) s = M.run n t := by
  induction m generalizing s with
  | zero => cases h; rw [Nat.zero_add]
  | succ m ih =>
    rw [Host.Core.run] at h
    rw [Nat.succ_add, Host.Core.run]
    cases hs : M.step s with
    | next u => rw [hs] at h; exact ih h
    | fault r => rw [hs] at h; cases h
    | refused r => rw [hs] at h; cases h

section
variable {P Q R : State → Prop} {es fs : List BusEvent}

theorem Runs.nil (h : ∀ s, P s → Q s) : Runs P [] Q :=
  fun s _ hP hpend => ⟨s, rfl, hpend, h s hP⟩

theorem Runs.append (h : Runs P es Q) (h' : Runs Q fs R) : Runs P (es ++ fs) R := by
  intro s rest hP hpend
  obtain ⟨t, hrun, htpend, hQ⟩ := h s (fs ++ rest) hP (by rw [hpend, List.append_assoc])
  obtain ⟨u, hrun', hupend, hR⟩ := h' t rest hQ htpend
  refine ⟨u, ?_, hupend, hR⟩
  rw [List.length_append, run_add _ _ hrun, hrun']

/-- One event. -/
theorem Runs.event {e : BusEvent}
    (h : ∀ s rest, P s → s.pending = e :: rest → ∃ t, step s = .next t ∧ t.pending = rest ∧ Q t) : Runs P [e] Q := by
  intro s rest hP hpend
  obtain ⟨t, hstep, htpend, hQ⟩ := h s rest hP hpend
  refine ⟨t, ?_, htpend, hQ⟩
  have hcore : Sys2Proof.core.step s = .next t := hstep
  simp only [List.length_singleton, Host.Core.run, hcore]

/-- One command, outside reset. -/
theorem Runs.command {i : Instr} (hi : i.wf = true) (hlive : ∀ s, P s → s.inReset = false)
    (h : ∀ s rest, P s → ∃ t, exec i { s with pending := rest, bus := .written } = .next t ∧ Q t) :
    Runs P [cmdStore i] Q := by
  refine Runs.event fun s rest hP hpend => ?_
  obtain ⟨t, hexec, hQ⟩ := h s rest hP
  obtain ⟨_, _, hpending, _⟩ := exec_keeps_interface hexec
  refine ⟨t, ?_, hpending, hQ⟩
  rw [stepExecutesTheCommandWritten s i.cmdReg (encode i) i rest (hlive s hP) hpend (decodeOfEncodeIsIdentity i hi), hexec]

end

/-! ### The write position after ADVANCEs (R94) -/

/-- A prepared unit with the sizes of `d`, `k` ADVANCEs after a write position of 0. -/
structure Advanced (d : DlUnit) (k : Nat) (u : State) : Prop where
  live : u.inReset = false
  prepared : u.dl.prepared = true
  bs : u.dl.bs = d.bs
  cap : u.dl.cap = d.cap
  wpos : u.dl.wpos.toNat = k * d.bs.toNat % d.cap.toNat

/-- R84: one ADVANCE more. -/
theorem runs_advance {d : DlUnit} (hpos : 0 < d.cap.toNat) (k : Nat) :
    Runs (Advanced d k) [cmdStore .dlAdvance] (Advanced d (k + 1)) := by
  refine Runs.command rfl (fun s h => h.live) fun s rest h => ⟨_, exec_dlAdvance_prepared h.prepared, ?_⟩
  refine ⟨h.live, h.prepared, h.bs, h.cap, ?_⟩
  show (BitVec.ofNat 32 ((s.dl.wpos.toNat + s.dl.bs.toNat) % s.dl.cap.toNat)).toNat = _
  rw [h.bs, h.cap, toNat_ofNat_mod hpos, h.wpos, Nat.mod_add_mod, Nat.succ_mul]

theorem runs_advances {d : DlUnit} (hpos : 0 < d.cap.toNat) (k n : Nat) :
    Runs (Advanced d k) (List.replicate n (cmdStore .dlAdvance)) (Advanced d (k + n)) := by
  induction n generalizing k with
  | zero => exact Runs.nil fun _ h => h
  | succ n ih =>
    have hrest := ih (k + 1)
    rw [Nat.succ_add_eq_add_succ] at hrest
    exact (runs_advance hpos k).append hrest

/-- Settles O29: ADVANCE by ADVANCE. -/
theorem writePositionAfterAdvances : Obligations.WritePositionAfterAdvances := by
  intro s k hd hprep hw hr hpend
  have hstart : Advanced s.dl 0 s := ⟨hr, hprep, rfl, rfl, by rw [hw, Nat.zero_mul]; exact (Nat.zero_mod _).symm⟩
  obtain ⟨t, hrun, htpend, ht⟩ := runs_advances (hd.cap_pos hprep) 0 k s [] hstart (by rw [hpend, List.append_nil])
  rw [List.length_replicate] at hrun
  refine ⟨t, hrun, htpend, ht.cap, ?_⟩
  rw [ht.wpos, Nat.zero_add]

end Sys2Proof.Machine
end

section
/-! PROOFS. A stream by the protocol of spec/40_delayline.md R91 with an unchanging delay (R95): what the history and the buffers
hold between any two accesses, and what each access makes of it. -/

namespace Sys2Proof.Machine

/-! ### What a stream leaves in the memories -/

/-- The element a channel's history holds for the time `v`, counted from `CAP` samples before the stream: what it held before the
stream, or the gained input of the stream's sample `v - CAP`. -/
structure Held (s : State) (blocks : List (List (List Word))) (ch v : Nat) (w : Word) : Prop where
  old : v < s.dl.cap.toNat → w = s.hist.elem s.params ch ((s.dl.wpos.toNat + v) % s.dl.cap.toNat)
  new : s.dl.cap.toNat ≤ v →
    ∃ n y, sampleAt blocks s.dl.bs.toNat ch (v - s.dl.cap.toNat) = some y ∧ w = gained n s.dl.gain y

/-- After `T` samples of the stream a channel's history holds the last `CAP` times. -/
def HistoryHeld (s : State) (blocks : List (List (List Word))) (ch T : Nat) (h : History) : Prop :=
  ∀ v, T ≤ v → v < T + s.dl.cap.toNat →
    Held s blocks ch v (h.elem s.params ch ((s.dl.wpos.toNat + v) % s.dl.cap.toNat))

/-- A channel's buffer holds block `k`, each sample with the one `D` samples earlier added. -/
def BlockMixed (s : State) (blocks : List (List (List Word))) (ch k : Nat) (io : Memory) : Prop :=
  ∀ j, j < s.dl.bs.toNat → ∃ x n w, sampleAt blocks s.dl.bs.toNat ch (k * s.dl.bs.toNat + j) = some x ∧
    Held s blocks ch (k * s.dl.bs.toNat + j + s.dl.cap.toNat - s.dl.clamped s.dl.curDelay) w ∧
    io.word? (ioAddr s.params ch j) = some (add32 n x w)

/-- R80, R84: the unit within the stream is the unit before it, at the write position of block `k`. -/
def streamUnit (s : State) (k : Nat) (blockOpen : Bool) : DlUnit :=
  { s.dl with
    wpos := BitVec.ofNat 32 ((s.dl.wpos.toNat + k * s.dl.bs.toNat) % s.dl.cap.toNat), blockOpen := blockOpen }

/-- The machine within block `k` of the stream that began in `s`, with `written` channels written to the history and `mixed`
channels mixed. -/
structure StreamAt (s : State) (blocks : List (List (List Word))) (k written mixed : Nat) (u : State) : Prop where
  params : u.params = s.params
  live : u.inReset = false
  dl : ∃ b, u.dl = streamUnit s k b
  after : ∀ ch, ch < written → HistoryHeld s blocks ch ((k + 1) * s.dl.bs.toNat) u.hist
  before : ∀ ch, written ≤ ch → ch < s.params.numCh → HistoryHeld s blocks ch (k * s.dl.bs.toNat) u.hist
  mixed : ∀ ch, ch < mixed → BlockMixed s blocks ch k u.io

/-- The first `n` samples of a block's input stand in the channel's buffer. -/
def Filled (s : State) (ch : Nat) (input : List Word) (n : Nat) (io : Memory) : Prop :=
  ∀ j x, j < n → input[j]? = some x → io.word? (ioAddr s.params ch j) = some x

/-- A machine that begins a stream: prepared, between blocks, with the mailbox at the delay in use. -/
structure StreamStart (s : State) : Prop where
  legal : s.params.Legal
  inv : s.dl.Inv s.params
  prepared : s.dl.prepared = true
  closed : s.dl.blockOpen = false
  delay : s.dl.delay = s.dl.curDelay

section
variable {s u : State} {blocks : List (List (List Word))} {k c ch : Nat}

/-- A history that holds the same elements of the channel holds the same times. -/
theorem HistoryHeld.congr {T : Nat} {g h : History} (hs : HistoryHeld s blocks ch T h) (hpos : 0 < s.dl.cap.toNat)
    (heq : ∀ i, i < s.dl.cap.toNat → g.elem s.params ch i = h.elem s.params ch i) : HistoryHeld s blocks ch T g :=
  fun v hlo hhi => (heq _ (Nat.mod_lt _ hpos)).symm ▸ hs v hlo hhi

/-- A buffer that holds the same words of the channel's block holds the block mixed alike. -/
theorem BlockMixed.congr {m n : Memory} (hm : BlockMixed s blocks ch k m)
    (heq : ∀ j, j < s.dl.bs.toNat → n.word? (ioAddr s.params ch j) = m.word? (ioAddr s.params ch j)) :
    BlockMixed s blocks ch k n :=
  fun j hj => (heq j hj).symm ▸ hm j hj

/-- R95's numbering: a sample by its block, channel and place. -/
theorem sampleAt_eq {bs j : Nat} {block : List (List Word)} {input : List Word} {x : Word} (hk : blocks[k]? = some block)
    (hch : block[ch]? = some input) (hj : j < bs) (hx : input[j]? = some x) :
    sampleAt blocks bs ch (k * bs + j) = some x := by
  have hdiv : (k * bs + j) / bs = k := by
    rw [Nat.mul_comm, Nat.mul_add_div (by omega), Nat.div_eq_of_lt hj, Nat.add_zero]
  have hmod : (k * bs + j) % bs = j := by rw [Nat.mul_comm, Nat.mul_add_mod, Nat.mod_eq_of_lt hj]
  simp [sampleAt, hdiv, hmod, hk, hch, hx]

/-- Positions less than `cap` apart are distinct. -/
theorem mod_ne_mod {a b cap : Nat} (hlt : a < b) (hb : b < a + cap) : a % cap ≠ b % cap := by
  intro h
  have hdvd : cap ∣ b - a := (Nat.modEq_iff_dvd' hlt.le).1 h
  have := Nat.le_of_dvd (by omega) hdvd
  omega

/-! ### The unit within a stream -/

theorem streamUnit_wpos (h : StreamStart s) (b : Bool) :
    (streamUnit s k b).wpos.toNat = (s.dl.wpos.toNat + k * s.dl.bs.toNat) % s.dl.cap.toNat :=
  toNat_ofNat_mod (h.inv.cap_pos h.prepared) _

/-- R80: the block's delay, latched or not, is the one the stream began with. -/
theorem streamUnit_latch (h : StreamStart s) (b : Bool) : (streamUnit s k b).latch = streamUnit s k true := by
  rw [DlUnit.latch_eq]
  cases b <;> simp [streamUnit, h.delay]

theorem streamUnit_inv (h : StreamStart s) (b : Bool) : (streamUnit s k b).Inv s.params where
  unprepared hu := absurd (h.prepared.symm.trans hu) (by decide)
  prepared _ := by
    obtain ⟨hsr, hbs, hmax, hle, hdepth, _, hm⟩ := h.inv.prepared h.prepared
    refine ⟨hsr, hbs, hmax, hle, hdepth, ?_, hm⟩
    rw [streamUnit_wpos h]
    exact Nat.mod_lt _ (h.inv.cap_pos h.prepared)
  gain := h.inv.gain
  closed _ := h.inv.closed h.closed

/-- R84: advancing goes to the next block. -/
theorem streamUnit_advance (h : StreamStart s) (b : Bool) :
    { streamUnit s k b with
      wpos := BitVec.ofNat 32 (((streamUnit s k b).wpos.toNat + s.dl.bs.toNat) % s.dl.cap.toNat),
      prevDelay := s.dl.curDelay, blockOpen := false } = streamUnit s (k + 1) false := by
  rw [streamUnit_wpos h, Nat.mod_add_mod, Nat.add_assoc, ← Nat.succ_mul, ← h.inv.closed h.closed]
  rfl

/-- R82: sample `j` of block `k` is written at the position of its time. -/
theorem streamUnit_writeIndex (h : StreamStart s) (b : Bool) (j : Nat) :
    (streamUnit s k b).writeIndex j = (s.dl.wpos.toNat + (k * s.dl.bs.toNat + j)) % s.dl.cap.toNat := by
  rw [DlUnit.writeIndex, streamUnit_wpos h, ← Nat.add_assoc]
  exact Nat.mod_add_mod _ _ _

/-- R79: sample `j` of block `k` is read at the position of the time `D` samples earlier: equal delays do not smooth. -/
theorem streamUnit_readIndex (h : StreamStart s) (b : Bool) (eps : Word) (j : Nat) :
    (streamUnit s k b).readIndex eps j =
      (s.dl.wpos.toNat + (k * s.dl.bs.toNat + j + s.dl.cap.toNat - s.dl.clamped s.dl.curDelay)) % s.dl.cap.toNat := by
  have hfast : (streamUnit s k b).changed eps = false := by
    simp [DlUnit.changed, streamUnit, h.inv.closed h.closed]
  have hdelay : (streamUnit s k b).delayOf eps j = s.dl.clamped s.dl.curDelay := DlUnit.delayOf_of_not_changed hfast j
  have hle := s.dl.clamped_le s.dl.curDelay
  rw [DlUnit.readIndex, hdelay, streamUnit_wpos h]
  show ((s.dl.wpos.toNat + k * s.dl.bs.toNat) % s.dl.cap.toNat + j + s.dl.cap.toNat - _) % s.dl.cap.toNat = _
  rw [show ∀ a, a + j + s.dl.cap.toNat - s.dl.clamped s.dl.curDelay = a + (j + s.dl.cap.toNat - s.dl.clamped s.dl.curDelay)
    by omega, Nat.mod_add_mod]
  congr 1
  omega

/-- A state of the stream passes the checks of the block commands. -/
theorem StreamAt.checks_pass {written mixed : Nat} (h : StreamStart s) (hu : StreamAt s blocks k written mixed u)
    (hc : c < s.params.numCh) : blockCheck u c s.dl.bs.toNat = none := by
  obtain ⟨b, hdl⟩ := hu.dl
  rw [blockCheck_eq_none, hu.params, hdl]
  exact ⟨h.prepared, hc, rfl⟩

/-- The invariant holds within the stream. -/
theorem StreamAt.inv {written mixed : Nat} (h : StreamStart s) (hu : StreamAt s blocks k written mixed u) :
    u.dl.Inv u.params := by
  obtain ⟨b, hdl⟩ := hu.dl
  rw [hdl, hu.params]
  exact streamUnit_inv h b

/-- A filled buffer holds its input's word at every sample of the block. -/
theorem Filled.word {input : List Word} {io : Memory} (hfill : Filled s c input s.dl.bs.toNat io)
    (hlen : input.length = s.dl.bs.toNat) (j : Nat) (hj : j < s.dl.bs.toNat) :
    ∃ x, input[j]? = some x ∧ io.word? (ioAddr s.params c j) = some x :=
  ⟨input[j], by simp, hfill j _ hj (by simp)⟩

/-- R127: a block command reads no unwritten element of a filled buffer. -/
theorem StreamAt.readable {written mixed : Nat} {input : List Word} (hu : StreamAt s blocks k written mixed u)
    (hfill : Filled s c input s.dl.bs.toNat u.io) (hlen : input.length = s.dl.bs.toNat) (j : Nat)
    (hj : j < u.dl.bs.toNat) : (u.io.word? (ioAddr u.params c j)).isSome = true := by
  obtain ⟨b, hdl⟩ := hu.dl
  rw [hdl] at hj
  obtain ⟨x, _, hx⟩ := hfill.word hlen j hj
  rw [hu.params, hx]
  rfl

/-- The bus order and the response are no part of the stream's state. -/
theorem StreamAt.withInterface {written mixed : Nat} (hu : StreamAt s blocks k written mixed u) (pending : List BusEvent)
    (bus : BusResponse) : StreamAt s blocks k written mixed { u with pending := pending, bus := bus } :=
  ⟨hu.params, hu.live, hu.dl, hu.after, hu.before, hu.mixed⟩

/-! ### The accesses of a channel (R91) -/

/-- R46, R53: an I/O element's address is a bus address. -/
theorem toNat_ofNat_ioAddr {p : Config.Params} {j : Nat} (hp : p.Legal) (hc : c < p.numCh) (hj : j < p.maxBlock) :
    (BitVec.ofNat 20 (ioAddr p c j)).toNat = ioAddr p c j := by
  obtain ⟨_, _, _, _, _, _, htop⟩ := hp
  have hw := inIoWindow_ioAddr p hc hj (k := 0) (by decide)
  simp only [inIoWindow, Bool.and_eq_true, decide_eq_true_eq] at hw
  rw [BitVec.toNat_ofNat, Nat.mod_eq_of_lt (by omega)]

/-- R90, R91: filling one word of a channel that has not been mixed yet. -/
theorem runs_fill_word (h : StreamStart s) {input : List Word} {j : Nat} {x : Word} (hc : c < s.params.numCh)
    (hj : j < s.dl.bs.toNat) (hx : input[j]? = some x) :
    Runs (fun u => StreamAt s blocks k c c u ∧ Filled s c input j u.io)
      [.st32 (BitVec.ofNat 20 (ioAddr s.params c j)) x]
      (fun u => StreamAt s blocks k c c u ∧ Filled s c input (j + 1) u.io) := by
  obtain ⟨_, _, hmax, _⟩ := h.inv.prepared h.prepared
  refine Runs.event fun u rest ⟨hu, hfill⟩ hpend => ?_
  have haddr := toNat_ofNat_ioAddr h.legal hc (hj.trans_le hmax)
  have hstep := step_st32_io hpend hu.live (by rw [haddr]; exact ioAddr_aligned _ c j)
    (by rw [haddr, hu.params]; exact inIoWindow_ioAddr _ hc (hj.trans_le hmax) (k := 0) (by decide))
  rw [haddr] at hstep
  refine ⟨_, hstep, rfl, ⟨hu.params, hu.live, hu.dl, hu.after, hu.before, fun ch hch => ?_⟩, fun i y hi hy => ?_⟩
  · refine (hu.mixed ch hch).congr fun i hi => Memory.word?_setWord_other _ _ _ _ ?_
    exact ioAddr_separate _ (hi.trans_le hmax) (hj.trans_le hmax) (.inl hch.ne)
  · by_cases hij : i = j
    · subst hij
      rw [hx] at hy
      cases hy
      exact Memory.word?_setWord_same _ _ _
    · rw [← hfill i y (by omega) hy]
      exact Memory.word?_setWord_other _ _ _ _ (ioAddr_apart _ _ hij)

/-- R91: filling the buffer from sample `done.length` on. -/
theorem runs_fill (h : StreamStart s) (hc : c < s.params.numCh) (todo done : List Word)
    (hlen : (done ++ todo).length = s.dl.bs.toNat) :
    Runs (fun u => StreamAt s blocks k c c u ∧ Filled s c (done ++ todo) done.length u.io)
      (fillFrom s.params c done.length todo)
      (fun u => StreamAt s blocks k c c u ∧ Filled s c (done ++ todo) s.dl.bs.toNat u.io) := by
  induction todo generalizing done with
  | nil => exact Runs.nil fun u hu => by simpa [← hlen] using hu
  | cons x todo ih =>
    have hj : done.length < s.dl.bs.toNat := by rw [← hlen]; simp
    have hrest := ih (done ++ [x]) (by simpa using hlen)
    rw [List.append_assoc, List.singleton_append, List.length_append, List.length_singleton] at hrest
    exact (runs_fill_word h hc hj (by simp)).append hrest

/-- The commands of a block fit their words. -/
theorem block_wf (h : StreamStart s) (hc : c < s.params.numCh) :
    (Instr.dlWrite c s.dl.bs.toNat).wf = true ∧ (Instr.dlReadmix c s.dl.bs.toNat).wf = true := by
  obtain ⟨_, hnum, _, hblock, _⟩ := h.legal
  obtain ⟨_, _, hmax, _⟩ := h.inv.prepared h.prepared
  simp only [Instr.wf, Bool.and_eq_true, decide_eq_true_eq]
  omega

/-- R82: a block of samples written at the positions of its times replaces the oldest times of the channel's history. -/
theorem HistoryHeld.write {T : Nat} {g g' : History} (h : StreamStart s) (hg : HistoryHeld s blocks ch T g)
    (helem : ∀ j, j < s.dl.bs.toNat → ∃ n y, sampleAt blocks s.dl.bs.toNat ch (T + j) = some y ∧
      g'.elem s.params ch ((s.dl.wpos.toNat + (T + j)) % s.dl.cap.toNat) = gained n s.dl.gain y)
    (hframe : ∀ i, i < s.dl.cap.toNat →
      (∀ j, j < s.dl.bs.toNat → i ≠ (s.dl.wpos.toNat + (T + j)) % s.dl.cap.toNat) →
      g'.elem s.params ch i = g.elem s.params ch i) :
    HistoryHeld s blocks ch (T + s.dl.bs.toNat) g' := by
  intro v hlo hhi
  by_cases hv : v < T + s.dl.cap.toNat
  · rw [hframe _ (Nat.mod_lt _ (h.inv.cap_pos h.prepared)) fun j hj => (mod_ne_mod (by omega) (by omega)).symm]
    exact hg v (by omega) hv
  · obtain ⟨n, y, hy, hstore⟩ := helem (v - s.dl.cap.toNat - T) (by omega)
    rw [show T + (v - s.dl.cap.toNat - T) = v - s.dl.cap.toNat by omega] at hy hstore
    refine ⟨fun hold => by omega, fun _ => ⟨n, y, hy, ?_⟩⟩
    rw [← hstore, ← Nat.add_mod_right (s.dl.wpos.toNat + (v - s.dl.cap.toNat))]
    congr 2
    omega

theorem dlWrite_completes {len : Nat} (hok : blockCheck s ch len = none)
    (hread : ∀ j, j < s.dl.bs.toNat → (s.io.word? (ioAddr s.params ch j)).isSome = true) :
    ∃ t, exec (.dlWrite ch len) s = .next t := by
  obtain ⟨g, hg⟩ := Option.isSome_iff_exists.1
    (writeBlock_isSome_iff (s := s.setDl s.dl.latch) (ch := ch).2 (by simpa using hread))
  exact ⟨_, exec_dlWrite_done hok hg⟩

theorem dlReadmix_completes {len : Nat} (hok : blockCheck s ch len = none)
    (hread : ∀ j, j < s.dl.bs.toNat → (s.io.word? (ioAddr s.params ch j)).isSome = true) :
    ∃ t, exec (.dlReadmix ch len) s = .next t := by
  obtain ⟨m, hm⟩ := Option.isSome_iff_exists.1
    (mixBlock_isSome_iff (s := s.setDl s.dl.latch) (ch := ch).2 (by simpa using hread))
  exact ⟨_, exec_dlReadmix_done hok hm⟩

/-- R82: DL_WRITE of a filled buffer. -/
theorem StreamAt.dlWrite {block : List (List Word)} {input : List Word} (h : StreamStart s)
    (hu : StreamAt s blocks k c c u) (hfill : Filled s c input s.dl.bs.toNat u.io) (hk : blocks[k]? = some block)
    (hinput : block[c]? = some input) (hlen : input.length = s.dl.bs.toNat) (hc : c < s.params.numCh) :
    ∃ t, exec (.dlWrite c s.dl.bs.toNat) u = .next t ∧ StreamAt s blocks k (c + 1) c t ∧
      Filled s c input s.dl.bs.toNat t.io := by
  have hok := hu.checks_pass h hc
  obtain ⟨b, hdl⟩ := hu.dl
  obtain ⟨t, hx⟩ := dlWrite_completes hok (hu.readable hfill hlen)
  obtain ⟨hparams, hlive, _⟩ := exec_keeps_interface hx
  obtain ⟨htdl, htio, helem, hframe⟩ := dlWrite_elems (hu.inv h) hx hok
  rw [hu.params, hdl] at helem hframe
  simp only [streamUnit_writeIndex h] at helem hframe
  have hdepth := h.inv.cap_le_histDepth
  have hpos := h.inv.cap_pos h.prepared
  refine ⟨t, hx, ⟨hparams.trans hu.params, hlive.trans hu.live, ⟨true, by rw [htdl, hdl, streamUnit_latch h]⟩,
    fun ch hch => ?_, fun ch hlo hhi => ?_, by rw [htio]; exact hu.mixed⟩, by rw [htio]; exact hfill⟩
  · rcases Nat.lt_succ_iff_lt_or_eq.1 hch with hlt | rfl
    · exact (hu.after ch hlt).congr hpos fun i hi => hframe ch i (hi.trans_le hdepth) (.inl hlt.ne)
    · rw [Nat.succ_mul]
      refine (hu.before ch le_rfl hc).write h (fun j hj => ?_) fun i hi hne => hframe ch i (hi.trans_le hdepth) (.inr hne)
      obtain ⟨x, hread, hstore⟩ := helem j hj
      obtain ⟨y, hy, hfilled⟩ := hfill.word hlen j hj
      rw [hfilled] at hread
      cases hread
      exact ⟨_, x, sampleAt_eq hk hinput hj hy, hstore⟩
  · exact (hu.before ch (by omega) hhi).congr hpos fun i hi => hframe ch i (hi.trans_le hdepth) (.inl (by omega))

/-- R79, R83: DL_READMIX of a filled buffer whose block has been written. -/
theorem StreamAt.dlReadmix {block : List (List Word)} {input : List Word} (h : StreamStart s)
    (hu : StreamAt s blocks k (c + 1) c u) (hfill : Filled s c input s.dl.bs.toNat u.io) (hk : blocks[k]? = some block)
    (hinput : block[c]? = some input) (hlen : input.length = s.dl.bs.toNat) (hc : c < s.params.numCh) :
    ∃ t, exec (.dlReadmix c s.dl.bs.toNat) u = .next t ∧ StreamAt s blocks k (c + 1) (c + 1) t := by
  have hok := hu.checks_pass h hc
  obtain ⟨b, hdl⟩ := hu.dl
  obtain ⟨t, hx⟩ := dlReadmix_completes hok (hu.readable hfill hlen)
  obtain ⟨hparams, hlive, _⟩ := exec_keeps_interface hx
  obtain ⟨htdl, hthist, helem, hframe⟩ := dlReadmix_elems (hu.inv h) hx hok
  rw [hu.params, hdl] at helem hframe
  simp only [streamUnit_latch h, streamUnit_readIndex h] at helem
  obtain ⟨_, _, hmax, hcap, _⟩ := h.inv.prepared h.prepared
  have hdelay := s.dl.clamped_le s.dl.curDelay
  refine ⟨t, hx, hparams.trans hu.params, hlive.trans hu.live, ⟨true, by rw [htdl, hdl, streamUnit_latch h]⟩,
    by rw [hthist]; exact hu.after, by rw [hthist]; exact hu.before, fun ch hch => ?_⟩
  rcases Nat.lt_succ_iff_lt_or_eq.1 hch with hlt | rfl
  · exact (hu.mixed ch hlt).congr fun j hj => hframe ch j (hj.trans_le hmax) (.inl hlt.ne)
  · intro j hj
    obtain ⟨x, hread, hmix⟩ := helem j hj
    obtain ⟨y, hy, hfilled⟩ := hfill.word hlen j hj
    rw [hfilled] at hread
    cases hread
    refine ⟨x, _, _, sampleAt_eq hk hinput hj hy, hu.after ch hch _ ?_ ?_, hmix⟩
    · rw [Nat.succ_mul]; omega
    · rw [Nat.succ_mul]; omega

/-- R91: reading words of the mixed block back changes nothing of the stream's state. -/
theorem runs_read (h : StreamStart s) (hc : c < s.params.numCh) (n j : Nat) (hj : j + n ≤ s.dl.bs.toNat) :
    Runs (StreamAt s blocks k (c + 1) (c + 1)) (readFrom s.params c j n) (StreamAt s blocks k (c + 1) (c + 1)) := by
  obtain ⟨_, _, hmax, _⟩ := h.inv.prepared h.prepared
  induction n generalizing j with
  | zero => exact Runs.nil fun _ hu => hu
  | succ n ih =>
    refine Runs.append (es := [_]) (Runs.event fun u rest hu hpend => ?_) (ih (j + 1) (by omega))
    have haddr := toNat_ofNat_ioAddr h.legal hc (show j < s.params.maxBlock by omega)
    obtain ⟨x, a, w, _, _, hword⟩ := hu.mixed c c.lt_succ_self j (by omega)
    refine ⟨_, step_ld32_io hpend hu.live (by rw [haddr]; exact ioAddr_aligned _ c j) ?_ (by rw [haddr]; exact hword), rfl,
      hu.withInterface _ _⟩
    rw [haddr, hu.params]
    exact inIoWindow_ioAddr _ hc (by omega) (k := 0) (by decide)

/-- R91: one channel of a block. -/
theorem runs_channel (h : StreamStart s) {block : List (List Word)} {input : List Word} (hk : blocks[k]? = some block)
    (hinput : block[c]? = some input) (hlen : input.length = s.dl.bs.toNat) (hc : c < s.params.numCh) :
    Runs (StreamAt s blocks k c c) (channelAccesses s.params c input) (StreamAt s blocks k (c + 1) (c + 1)) := by
  obtain ⟨hwfWrite, hwfMix⟩ := block_wf h hc
  have hfill : Runs (StreamAt s blocks k c c) (fillFrom s.params c 0 input)
      (fun u => StreamAt s blocks k c c u ∧ Filled s c input s.dl.bs.toNat u.io) :=
    (Runs.nil fun u hu => ⟨hu, fun _ _ hj => absurd hj (Nat.not_lt_zero _)⟩).append (runs_fill h hc input [] hlen)
  have hwrite : Runs (fun u => StreamAt s blocks k c c u ∧ Filled s c input s.dl.bs.toNat u.io)
      [cmdStore (.dlWrite c s.dl.bs.toNat)]
      (fun u => StreamAt s blocks k (c + 1) c u ∧ Filled s c input s.dl.bs.toNat u.io) :=
    Runs.command hwfWrite (fun u hu => hu.1.live) fun u rest ⟨hu, hf⟩ =>
      (hu.withInterface rest .written).dlWrite h hf hk hinput hlen hc
  have hmix : Runs (fun u => StreamAt s blocks k (c + 1) c u ∧ Filled s c input s.dl.bs.toNat u.io)
      [cmdStore (.dlReadmix c s.dl.bs.toNat)] (StreamAt s blocks k (c + 1) (c + 1)) :=
    Runs.command hwfMix (fun u hu => hu.1.live) fun u rest ⟨hu, hf⟩ =>
      (hu.withInterface rest .written).dlReadmix h hf hk hinput hlen hc
  rw [channelAccesses, hlen]
  exact (hfill.append (hwrite.append hmix)).append (runs_read h hc _ 0 (by omega))

/-! ### The accesses of a block and of a stream (R91) -/

/-- R91: the channels of block `k` from channel `done.length` on. -/
theorem runs_channels (h : StreamStart s) (todo done : List (List Word)) (hk : blocks[k]? = some (done ++ todo))
    (hlen : (done ++ todo).length = s.params.numCh) (hinputs : ∀ input ∈ todo, input.length = s.dl.bs.toNat) :
    Runs (StreamAt s blocks k done.length done.length) (channelsFrom s.params done.length todo)
      (StreamAt s blocks k s.params.numCh s.params.numCh) := by
  induction todo generalizing done with
  | nil => exact Runs.nil fun u hu => by simpa [← hlen] using hu
  | cons input todo ih =>
    have hc : done.length < s.params.numCh := by rw [← hlen]; simp
    have hrest := ih (done ++ [input]) (by simpa using hk) (by simpa using hlen) fun i hi => hinputs i (.tail _ hi)
    rw [List.length_append, List.length_singleton] at hrest
    exact (runs_channel h hk (by simp) (hinputs input (.head _)) hc).append hrest

/-- Between blocks: `k` blocks are done, and the buffers hold the last of them. -/
structure BlockStart (s : State) (blocks : List (List (List Word))) (k : Nat) (u : State) : Prop where
  at_start : StreamAt s blocks k 0 0 u
  last : ∀ l, k = l + 1 → ∀ ch, ch < s.params.numCh → BlockMixed s blocks ch l u.io

/-- R84, R91: the ADVANCE that ends a block. -/
theorem runs_endBlock (h : StreamStart s) :
    Runs (StreamAt s blocks k s.params.numCh s.params.numCh) [cmdStore .dlAdvance] (BlockStart s blocks (k + 1)) := by
  refine Runs.command rfl (fun u hu => hu.live) fun u rest hu => ?_
  obtain ⟨b, hdl⟩ := hu.dl
  have hprep : u.dl.prepared = true := by rw [hdl]; exact h.prepared
  refine ⟨_, exec_dlAdvance_prepared hprep, ⟨hu.params, hu.live, ⟨false, ?_⟩, fun ch hch => absurd hch (Nat.not_lt_zero _),
    fun ch _ hch => hu.after ch hch, fun ch hch => absurd hch (Nat.not_lt_zero _)⟩, ?_⟩
  · rw [← streamUnit_advance h b]
    simp only [State.setDl_dl, hdl]
    rfl
  · rintro l ⟨⟩ ch hch
    exact hu.mixed ch hch

/-- R91: one block. -/
theorem runs_block (h : StreamStart s) {block : List (List Word)} (hk : blocks[k]? = some block)
    (hlen : block.length = s.params.numCh) (hinputs : ∀ input ∈ block, input.length = s.dl.bs.toNat) :
    Runs (BlockStart s blocks k) (blockAccesses s.params block) (BlockStart s blocks (k + 1)) :=
  (Runs.nil fun _ hu => hu.at_start).append ((runs_channels h block [] hk hlen hinputs).append (runs_endBlock h))

/-- R91: the blocks of the stream from block `done.length` on. -/
theorem runs_stream (h : StreamStart s) (todo done : List (List (List Word)))
    (hshape : ∀ block ∈ todo, block.length = s.params.numCh ∧ ∀ input ∈ block, input.length = s.dl.bs.toNat) :
    Runs (BlockStart s (done ++ todo) done.length) (streamAccesses s.params todo)
      (BlockStart s (done ++ todo) (done ++ todo).length) := by
  induction todo generalizing done with
  | nil => exact Runs.nil fun u hu => by simpa using hu
  | cons block todo ih =>
    obtain ⟨hlen, hinputs⟩ := hshape block (.head _)
    have hrest := ih (done ++ [block]) fun b hb => hshape b (.tail _ hb)
    rw [List.append_assoc, List.singleton_append, List.length_append, List.length_singleton] at hrest
    exact (runs_block h (by simp) hlen hinputs).append hrest

/-- Before the stream every channel's history holds the times before it. -/
theorem blockStart_zero (h : StreamStart s) (hlive : s.inReset = false) : BlockStart s blocks 0 s where
  at_start := by
    obtain ⟨_, _, _, _, _, hwpos, _⟩ := h.inv.prepared h.prepared
    refine ⟨rfl, hlive, ⟨false, ?_⟩, fun ch hch => absurd hch (Nat.not_lt_zero _), fun ch _ _ v _ hv => ?_,
      fun ch hch => absurd hch (Nat.not_lt_zero _)⟩
    · rw [streamUnit, Nat.zero_mul, Nat.add_zero, Nat.mod_eq_of_lt hwpos, BitVec.ofNat_toNat, BitVec.setWidth_eq, ← h.closed]
    · exact ⟨fun _ => rfl, fun hnew => by omega⟩
  last l hl := by omega

end

/-- Settles O33: after the last block its buffers hold it mixed, each sample with what its channel's history held for the time
`D` samples earlier. -/
theorem delayedSampleIsTheGainedInput : Obligations.DelayedSampleIsTheGainedInput := by
  intro s blocks hinv hlive hprep hclosed hdelay hshape hpend
  have h : StreamStart s := ⟨hinv.params, hinv.dl, hprep, hclosed, hdelay⟩
  obtain ⟨u, hrun, hupend, hu⟩ := runs_stream h blocks [] hshape s [] (blockStart_zero h hlive)
    (by rw [hpend, List.append_nil])
  rw [← hpend] at hrun
  refine ⟨u, hrun, hupend, fun ch j t x hch hj ht hx => ?_⟩
  have hle := s.dl.clamped_le s.dl.curDelay
  have hcap := hinv.dl.bs_le_cap
  obtain ⟨l, hl⟩ : ∃ l, blocks.length = l + 1 := by
    refine Nat.exists_eq_succ_of_ne_zero fun h0 => ?_
    rw [h0, Nat.zero_mul] at ht
    omega
  obtain rfl : t = l * s.dl.bs.toNat + j := by rw [hl, Nat.succ_mul] at ht; omega
  obtain ⟨x', a, w, hx', hheld, hword⟩ := hu.last l hl ch hch j hj
  obtain rfl : x = x' := Option.some.inj (hx.symm.trans hx')
  refine ⟨fun y hD hy => ?_, fun hD => ?_⟩
  · obtain ⟨n, y', hy', rfl⟩ := hheld.new (by omega)
    rw [show l * s.dl.bs.toNat + j + s.dl.cap.toNat - s.dl.clamped s.dl.curDelay - s.dl.cap.toNat =
      l * s.dl.bs.toNat + j - s.dl.clamped s.dl.curDelay by omega] at hy'
    obtain rfl : y = y' := Option.some.inj (hy.symm.trans hy')
    exact ⟨a, n, hword⟩
  · rw [hheld.old (by omega)] at hword
    refine ⟨a, hword.trans ?_⟩
    congr 4
    omega

end Sys2Proof.Machine
end

section
/-! PROOFS. What each PH command does (spec/41_phasor.md R105 to R109, R112), the exact remainder (R104) and the exact cycle
(R114, R115). -/

namespace Sys2Proof.Machine

/-! ### The wrap of a value of sign 0 (R104) -/

/-- Rounding keeps a magnitude that a finite pattern denotes. -/
theorem round_quanta {p : Nat} (hp : p < binary64.infPattern) : binary64.round (binary64.quanta p) 1 = p :=
  (roundingIsToNearestEven binary64 (.inr rfl)).2.2 p hp

/-- The significand of `TWO_PI`, at `2^1024` quanta a unit. -/
theorem twoPiQuanta_eq : twoPiQuanta = 0x1921FB54442D18 * 2 ^ 1024 := by decide +kernel

/-- A finite value from `TWO_PI` up is a whole number of `TWO_PI`'s units, so its remainder is fewer of them than `TWO_PI`'s
significand and has a pattern of its own. -/
theorem exists_quanta_eq_mod_twoPi {p : Nat} (hp : twoPiQuanta ≤ binary64.quanta p) :
    ∃ r, r < twoPi.toNat ∧ binary64.quanta r = binary64.quanta p % twoPiQuanta := by
  have hge : twoPi.toNat ≤ p := binary64.quanta_strictMono.le_iff_le.1 hp
  have hbinade : (1024 + 1) * 2 ^ binary64.fracBits ≤ twoPi.toNat := by decide
  obtain ⟨k, hk, -⟩ := binary64.quanta_grid 1024 p (.inr (hbinade.trans hge))
  have hmod : binary64.quanta p % twoPiQuanta = k % 0x1921FB54442D18 * 2 ^ 1024 := by
    rw [hk, twoPiQuanta_eq, Nat.mul_mod_mul_right]
  have hfits : k % 0x1921FB54442D18 ≤ 2 * 2 ^ binary64.fracBits :=
    (Nat.mod_lt k (by decide)).le.trans (by decide)
  obtain ⟨r, hr⟩ := binary64.exists_quanta_eq _ 1024 hfits
  have hrem : binary64.quanta r = binary64.quanta p % twoPiQuanta := hr.trans hmod.symm
  have hlt : binary64.quanta r < twoPiQuanta := hrem ▸ Nat.mod_lt _ twoPiQuanta_pos
  exact ⟨r, binary64.quanta_strictMono.lt_iff_lt.1 hlt, hrem⟩

/-- Settles O40: below `TWO_PI` the value is its own remainder; from there up its remainder has a pattern, which rounding
keeps. -/
theorem wrapIsTheExactRemainder : Obligations.WrapIsTheExactRemainder := by
  intro n w m h
  by_cases hm : m < twoPiQuanta
  · rw [wrap_of_lt_twoPi n h hm, Nat.mod_eq_of_lt hm, h]
  · obtain ⟨p, _, _, rfl⟩ := val64_eq_fin h
    obtain ⟨r, hr, hrem⟩ := exists_quanta_eq_mod_twoPi (Nat.le_of_not_lt hm)
    have hfin : r < binary64.infPattern := hr.trans (by decide)
    have hval : val64 (signed64 false r) = .fin false (binary64.quanta r) := val64_signed64_fin hfin
    have hne : signed64 false r ≠ twoPi := by
      intro heq
      rw [heq, val64_twoPi] at hval
      exact (binary64.quanta_strictMono hr).ne' (FloatVal.fin.inj hval).2
    have hwrap : wrap n w = wrapQuanta w (binary64.quanta p : ℤ) := by simp [wrap, h, signedQuanta]
    have hmod : (binary64.quanta p : ℤ) % twoPiQuanta = binary64.quanta r := by rw [← Int.natCast_mod, ← hrem]
    rw [hwrap, wrapQuanta_outside w (by omega) hmod, round_quanta hfin, if_neg hne, hval, hrem]

/-! ### Setting the rate and the frequency (R105, R106) -/

/-- R105's first check lets exactly the positive finite rates pass. -/
theorem rateRefused_eq_false_iff {v : DWord} : rateRefused v = false ↔ ∃ m, val64 v = .fin false m ∧ 0 < m := by
  unfold rateRefused
  cases val64 v with
  | nan s => simp
  | inf neg => simp
  | fin neg m => cases neg <;> simp [Nat.pos_iff_ne_zero]

section
variable {s : State}

theorem exec_phSetrate_refused (h : rateRefused s.ph.arg = true) : exec .phSetrate s = .next (s.raisePh .badArgument) :=
  if_pos h

theorem exec_phSetrate_accepted (h : rateRefused s.ph.arg = false) :
    exec .phSetrate s =
      if (val64 (incr s.freeCount s.ph.freq s.ph.arg)).isInf then .next (s.raisePh .badArgument)
      else .next ((s.setPh { s.ph with rate := s.ph.arg, inc := incr s.freeCount s.ph.freq s.ph.arg }).take 2) :=
  if_neg (by simp [h])

theorem exec_phSetfreq_refused (h : (val64 s.ph.arg).isFinite = false) :
    exec .phSetfreq s = .next (s.raisePh .badArgument) :=
  if_pos h

theorem exec_phSetfreq_accepted (h : (val64 s.ph.arg).isFinite = true) :
    exec .phSetfreq s =
      if (val64 (incr s.freeCount s.ph.arg s.ph.rate)).isInf then .next (s.raisePh .badArgument)
      else .next ((s.setPh { s.ph with freq := s.ph.arg, inc := incr s.freeCount s.ph.arg s.ph.rate }).take 2) :=
  if_neg (by simp [h])

end

/-- Settles O34: the first check, then the increment's. -/
theorem setrateStoresOrRefuses : Obligations.SetrateStoresOrRefuses := by
  intro s
  refine ⟨fun hneg => ?_, fun hpos hinf => ?_, fun hpos hinf => ?_⟩
  · exact exec_phSetrate_refused (Bool.eq_true_of_not_eq_false (mt rateRefused_eq_false_iff.1 hneg))
  · exact (exec_phSetrate_accepted (rateRefused_eq_false_iff.2 hpos)).trans (if_pos hinf)
  · exact (exec_phSetrate_accepted (rateRefused_eq_false_iff.2 hpos)).trans (if_neg (ne_true_of_eq_false hinf))

/-- Settles O35: the first check, then the increment's. -/
theorem setfreqStoresOrRefuses : Obligations.SetfreqStoresOrRefuses := by
  intro s
  refine ⟨fun hnot => ?_, fun hfin hinf => ?_, fun hfin hinf => ?_⟩
  · exact exec_phSetfreq_refused (Bool.eq_false_of_not_eq_true (mt FloatVal.isFinite_iff.1 hnot))
  · exact (exec_phSetfreq_accepted (FloatVal.isFinite_iff.2 hfin)).trans (if_pos hinf)
  · exact (exec_phSetfreq_accepted (FloatVal.isFinite_iff.2 hfin)).trans (if_neg (ne_true_of_eq_false hinf))

/-! ### Restarting and sampling (R108, R109, R112, R115) -/

/-- Settles O37: the command is this one update. -/
theorem phResetZeroesThePhase : Obligations.PhResetZeroesThePhase := fun _ => rfl

/-- Settles O38: the command is this one update, both values from the phase before. -/
theorem nextOutputsThenAdvances : Obligations.NextOutputsThenAdvances := fun _ => rfl

/-- Settles O41: the output is the phase over `PI_D`. -/
theorem outputIsBelowTwo : Obligations.OutputIsBelowTwo := fun s hphase =>
  ⟨_, nextOutputsThenAdvances s, outInRange_div_piD s.freeCount hphase⟩

/-- A numeric result is the operation's, whatever the number of the free value. -/
theorem finish64_some (n : Nat) (a b w : DWord) : finish64 n a b (some w.toNat) = w := by
  rw [finish64, BitVec.ofNat_toNat, BitVec.setWidth_eq]

/-- R109: the output at phase +0.0 is +0.0. -/
theorem div64_zero_piD (n : Nat) : div64 n 0 piD = 0 := by
  have hdiv : binary64.div (0 : DWord).toNat piD.toNat = some (0 : DWord).toNat := by decide +kernel
  rw [div64, hdiv, finish64_some]

/-- Settles O42: PH_RESET leaves the phase +0.0 for PH_NEXT to output. -/
theorem firstSampleAfterResetIsZero : Obligations.FirstSampleAfterResetIsZero := by
  intro s
  refine ⟨_, _, phResetZeroesThePhase s, nextOutputsThenAdvances _, ?_⟩
  dsimp only
  exact div64_zero_piD s.freeCount

/-! ### The exact cycle (R114) -/

/-- `PI_D / 2`, the increment at a quarter of the cycle per sample. -/
def quarterTurn : DWord := 0x3FF921FB54442D18

/-- One quarter of the exact cycle: from `phase` PH_NEXT outputs `out` and goes on to `next`, whatever numbers the free values
have, since no operation gives a NaN. -/
def QuarterStep (phase out next : DWord) : Prop :=
  ∀ a b c, div64 a phase piD = out ∧ wrap b (add64 c phase quarterTurn) = next

/-- R104 does not depend on the number of the free value where the value is finite. -/
theorem wrap_number_irrelevant (n : Nat) {w : DWord} (h : (val64 w).isFinite = true) : wrap n w = wrap 0 w := by
  obtain ⟨neg, m, hw⟩ := FloatVal.isFinite_iff.1 h
  simp only [wrap, hw]

/-- A quarter of the cycle from its three operations: a numeric quotient, a numeric finite sum, and the sum wrapped. -/
theorem quarterStep_of_eq {phase out next sum : DWord}
    (hdiv : binary64.div phase.toNat piD.toNat = some out.toNat)
    (hadd : binary64.add phase.toNat quarterTurn.toNat = some sum.toNat)
    (hfin : (val64 sum).isFinite = true) (hwrap : wrap 0 sum = next) : QuarterStep phase out next := by
  intro a b c
  have hout : div64 a phase piD = out := by rw [div64, hdiv, finish64_some]
  have hsum : add64 c phase quarterTurn = sum := by rw [add64, hadd, finish64_some]
  exact ⟨hout, by rw [hsum, wrap_number_irrelevant b hfin, hwrap]⟩

/-- The first quarter: from +0.0 to `PI_D / 2`, output 0. -/
theorem quarterStep_zero : QuarterStep 0 0 quarterTurn :=
  quarterStep_of_eq (sum := quarterTurn) (by decide +kernel) (by decide +kernel) (by decide +kernel) (by decide +kernel)

/-- The second quarter: on to `PI_D`, output 0.5. -/
theorem quarterStep_quarter : QuarterStep quarterTurn 0x3FE0000000000000 piD :=
  quarterStep_of_eq (sum := piD) (by decide +kernel) (by decide +kernel) (by decide +kernel) (by decide +kernel)

/-- The third quarter: on to `3 × PI_D / 2`, output 1.0. -/
theorem quarterStep_half : QuarterStep piD 0x3FF0000000000000 0x4012D97C7F3321D2 :=
  quarterStep_of_eq (sum := 0x4012D97C7F3321D2) (by decide +kernel) (by decide +kernel) (by decide +kernel)
    (by decide +kernel)

/-- The last quarter: the sum is `TWO_PI`, which wraps to +0.0, output 1.5. -/
theorem quarterStep_threeQuarters : QuarterStep 0x4012D97C7F3321D2 0x3FF8000000000000 0 :=
  quarterStep_of_eq (sum := twoPi) (by decide +kernel) (by decide +kernel) (by decide +kernel) (by decide +kernel)

/-- The machine `n` PH_NEXT words before the end `rest` of its bus order, at `phase`, a quarter of the cycle per sample. -/
structure AtQuarter (rest : List BusEvent) (n : Nat) (phase : DWord) (s : State) : Prop where
  live : s.inReset = false
  pending : s.pending = List.replicate n (cmdStore .phNext) ++ rest
  phase : s.ph.phase = phase
  inc : s.ph.inc = quarterTurn

/-- One PH_NEXT on the bus goes one quarter on. -/
theorem AtQuarter.step {rest : List BusEvent} {n : Nat} {phase out next : DWord} {s : State}
    (h : AtQuarter rest (n + 1) phase s) (hstep : QuarterStep phase out next) :
    ∃ t, step s = .next t ∧ t.ph.out = out ∧ AtQuarter rest n next t := by
  obtain ⟨hlive, hpending, hphase, hinc⟩ := h
  have hexec := stepExecutesTheCommandWritten s .phCmd (encode .phNext) .phNext _ hlive hpending
    (decodeOfEncodeIsIdentity .phNext rfl)
  obtain ⟨hout, hnext⟩ := hstep s.freeCount (s.freeCount + 2) (s.freeCount + 1)
  refine ⟨_, hexec.trans (nextOutputsThenAdvances _), ?_, hlive, rfl, ?_, hinc⟩
  · rw [← hout, ← hphase]; rfl
  · rw [← hnext, ← hphase, ← hinc]

/-- Settles O43: quarter by quarter. -/
theorem quarterCycleRepeatsExactly : Obligations.QuarterCycleRepeatsExactly := by
  intro s rest hlive hphase hinc hpending
  have h0 : AtQuarter rest 4 0 s := ⟨hlive, hpending, hphase, hinc⟩
  obtain ⟨t1, hstep1, hout1, h1⟩ := h0.step quarterStep_zero
  obtain ⟨t2, hstep2, hout2, h2⟩ := h1.step quarterStep_quarter
  obtain ⟨t3, hstep3, hout3, h3⟩ := h2.step quarterStep_half
  obtain ⟨t4, hstep4, hout4, h4⟩ := h3.step quarterStep_threeQuarters
  exact ⟨t1, t2, t3, t4, hstep1, hstep2, hstep3, hstep4, hout1, hout2, hout3, hout4, h4.phase, h4.inc.trans hinc.symm,
    h4.pending⟩

end Sys2Proof.Machine
end

section
/-! PROOFS. The two units are independent (spec/41_phasor.md R116): a command of one commutes with any change of the other. -/

namespace Sys2Proof.Machine

/-- An outcome with its next state changed. -/
def mapNext (f : State → State) : Host.Outcome State Fault Refusal → Host.Outcome State Fault Refusal
  | .next s => .next (f s)
  | .fault r => .fault r
  | .refused r => .refused r

theorem mapNext_ite (f : State → State) (c : Prop) [Decidable c] (a b : Host.Outcome State Fault Refusal) :
    mapNext f (if c then a else b) = if c then mapNext f a else mapNext f b := apply_ite _ _ _ _

/-- The machine with the PH unit of another, and its counter of free values. -/
def State.withPhOf (s' s : State) : State := { s' with ph := s.ph, freeCount := s.freeCount }

/-- R116: a PH command has the same effect on the PH unit beside any other DL unit, memories and interface. -/
theorem exec_withPhOf {i : Instr} (hi : i.cmdReg = .phCmd) (s' s : State) :
    exec i (s'.withPhOf s) = mapNext s'.withPhOf (exec i s) := by
  cases i with
  | phSetrate => simp only [exec, execPhSetrate, mapNext_ite]; rfl
  | phSetfreq => simp only [exec, execPhSetfreq, mapNext_ite]; rfl
  | phSetphase => simp only [exec, execPhSetphase, mapNext_ite]; rfl
  | phReset | phNext | phClrerr => rfl
  | _ => cases hi

/-- R116: a DL command has the same effect beside any other PH unit. -/
theorem exec_setPh {i : Instr} (hi : i.cmdReg = .dlCmd) (s : State) (u : PhUnit) :
    exec i (s.setPh u) = mapNext (State.setPh · u) (exec i s) := by
  have hcheck (ch len : Nat) : blockCheck (s.setPh u) ch len = blockCheck s ch len := rfl
  have hwrite (ch : Nat) : writeBlock ((s.setPh u).setDl s.dl.latch) ch = writeBlock (s.setDl s.dl.latch) ch := rfl
  have hmix (ch : Nat) : mixBlock ((s.setPh u).setDl s.dl.latch) ch = mixBlock (s.setDl s.dl.latch) ch := rfl
  cases i with
  | dlPrepare => simp only [exec, execDlPrepare, mapNext_ite]; rfl
  | dlWrite ch len =>
    simp only [exec, execDlWrite, hcheck, State.setPh_dl, hwrite]
    cases blockCheck s ch len with
    | some e => rfl
    | none => cases writeBlock (s.setDl s.dl.latch) ch <;> rfl
  | dlReadmix ch len =>
    simp only [exec, execDlReadmix, hcheck, State.setPh_dl, hmix]
    cases blockCheck s ch len with
    | some e => rfl
    | none => cases mixBlock (s.setDl s.dl.latch) ch <;> rfl
  | dlAdvance => simp only [exec, execDlAdvance, mapNext_ite]; rfl
  | dlRelease | dlClrerr => rfl
  | _ => cases hi

/-- Settles O56: what a command leaves, and that it commutes with a change of the other unit. -/
theorem unitsAreIndependent : Obligations.UnitsAreIndependent := by
  intro i s t hx
  refine ⟨fun hi => ?_, fun hi => ⟨exec_dlCmd_keeps_ph hi hx, fun u => ?_⟩⟩
  · obtain ⟨_, hdl, hhist, hio⟩ := exec_phCmd_keeps hi hx
    refine ⟨hdl, hhist, hio, fun s' hph hfree => ⟨s'.withPhOf t, ?_, rfl⟩⟩
    have hs' : s'.withPhOf s = s' := by rw [State.withPhOf, ← hph, ← hfree]
    rw [← hs', exec_withPhOf hi, hx]
    rfl
  · exact (exec_setPh hi s u).trans (congrArg _ hx)

end Sys2Proof.Machine
end

section
/-! PROOFS. Faults, errors and idling (spec/60_exceptions.md R121, R126, R127, R134): where an access has no meaning, what a
recorded error needs to go away, and the step without an access. -/

namespace Sys2Proof.Machine

/-- Settles O14: with no bus event to service, the step is the identity. -/
theorem idleCoreKeepsItsState : Obligations.IdleCoreKeepsItsState := by
  intro s hpend
  simp only [step, hpend]

/-! ### The first error is kept (R121, R126) -/

/-- R63: a command executes by a write of its word to its own unit's register. -/
theorem store_of_executes {e : BusEvent} {i : Instr} (h : Executes e (· = i)) :
    ∃ w, e = .store (cmdAddr i.cmdReg) .w32 w ∧ decode i.cmdReg (w.setWidth 32) = .ok i := by
  obtain ⟨r, w, _, hev, hdec, rfl⟩ := h
  obtain rfl := cmdReg_of_decode hdec
  exact ⟨w, hev, hdec⟩

/-- Settles O52: an error code that changes was 0 before, or becomes 0 by its unit's CLRERR. -/
theorem firstErrorIsKept : Obligations.FirstErrorIsKept := by
  intro s t e rest hpend he hstep
  obtain ⟨_, _, hdl, hph⟩ := statusFieldsChangeOnlyByTheirCauses s t e rest hpend he hstep
  refine ⟨fun herr => or_iff_not_imp_left.2 fun hne => ?_, fun herr => or_iff_not_imp_left.2 fun hne => ?_⟩
  · rcases hdl hne with ⟨_, hclr⟩ | ⟨hnone, _⟩
    · exact store_of_executes (i := .dlClrerr) hclr
    · exact absurd hnone herr
  · rcases hph hne with ⟨_, hclr⟩ | ⟨hnone, _⟩
    · exact store_of_executes (i := .phClrerr) hclr
    · exact absurd hnone herr

/-! ### The accesses without a meaning (R47, R127) -/

/-- R47: an access of another width or at another address has no meaning. -/
theorem accessDefined_eq_false {a : BusAddr} {width : Width} (h : width ≠ .w32 ∨ a.toNat % 4 ≠ 0) :
    accessDefined a width = false := by
  rcases h with hwidth | halign
  · simp [accessDefined, hwidth]
  · simp [accessDefined, halign]

/-- R50: the I/O window holds no register. -/
theorem regAt_eq_none_of_inIoWindow {p : Config.Params} {a : Nat} (h : inIoWindow p a = true) : regAt a = none := by
  simp only [inIoWindow, Bool.and_eq_true, decide_eq_true_eq] at h
  obtain ⟨hbase, _⟩ := h
  exact regAt_eq_none hbase

/-- R127: a bus read of an unwritten word inside the window is a fault. -/
theorem busLoad_unwritten {s : State} {a : Nat} (hw : inIoWindow s.params a = true) (hv : s.io.word? a = none) :
    busLoad a s = .fault .uninitRead := by
  simp [busLoad, regAt_eq_none_of_inIoWindow hw, hw, hv]

/-- Settles O13: the service refuses a misaligned access, the bus read and the loops of the block commands an unwritten word. -/
theorem accessesWithoutMeaningFault : Obligations.AccessesWithoutMeaningFault := by
  refine ⟨fun s rest a width data hr hbad => ?_, fun s rest c j a _ hr hc hj ha hpend hnone => ?_,
    fun s ch j hprep hch hj hnone => ?_⟩
  · have hdef := accessDefined_eq_false hbad
    refine ⟨fun hpend => ?_, fun hpend => ?_⟩
    · rw [step_cons hpend]
      simp [service, hr, hdef]
    · rw [step_cons hpend]
      simp [service, hr, hdef]
  · rw [step_ld32 hpend hr (ha ▸ ioAddr_aligned s.params c j), ha]
    exact busLoad_unwritten (inIoWindow_ioAddr s.params hc hj (k := 0) (by decide)) hnone
  · have hcheck : blockCheck s ch s.dl.bs.toNat = none := blockCheck_eq_none.2 ⟨hprep, hch, rfl⟩
    have hlatched : j < (s.setDl s.dl.latch).dl.bs.toNat := by simpa using hj
    exact ⟨exec_dlWrite_uninit hcheck (writeBlock_none hlatched hnone),
      exec_dlReadmix_uninit hcheck (mixBlock_none hlatched hnone)⟩

end Sys2Proof.Machine
end

section
/-! PROOFS. The reset input (spec/70_reset_and_hazards.md R135): what an asserted reset does to a bus access. -/

namespace Sys2Proof.Machine

/-- R135: while reset is asserted a load or a store of any width, at any address, has no effect but its response. -/
theorem service_access_inReset {s : State} {e : BusEvent} (hr : s.inReset = true) (hassert : e ≠ .assertReset)
    (hrelease : e ≠ .releaseReset) : service e s = .next { s with bus := .notServiced } := by
  cases e with
  | assertReset => exact absurd rfl hassert
  | releaseReset => exact absurd rfl hrelease
  | load a width => simp [service, hr]
  | store a width data => simp [service, hr]

/-- Settles O16: the step services the next event of the bus order, which is a load or a store. -/
theorem noAccessIsServicedInReset : Obligations.NoAccessIsServicedInReset := by
  intro s rest e hr hpend hassert hrelease
  rw [step_cons hpend]
  exact service_access_inReset hr hassert hrelease

end Sys2Proof.Machine
end
